-- ==== Sys2Proof/Word.lean ====
section
/-! DEFINITION. The word types of the core (spec 00_scope R8, R9) and the pixel of the raster port. -/

namespace Sys2Proof

/-- A command word or a host register, 32 bits (30_encoding R60, 10_state R26). -/
abbrev Word := BitVec 32

/-- A byte (00_scope R9). -/
abbrev Byte := BitVec 8

/-- The 16-bit quantities: target width, source dimensions, height, chunk size (00_scope R8). -/
abbrev Half := BitVec 16

/-- A pixel `(R, G, B, A)`, four integers 0 to 255 (10_state R32, 20_memory R40). -/
structure Pixel where
  r : Byte
  g : Byte
  b : Byte
  a : Byte
  deriving DecidableEq, Repr, Inhabited

end Sys2Proof
end

