-- ==== Sys2Proof/Syntax.lean ====
section
/-! DEFINITION. The operations of spec/opcode_table.json, one constructor per row: the four command rows
(`ENC`, `PKT`, `SND`, `ILLEGAL`), the twelve stage operations that commands are made of (30_encoding R62)
and the five data formats (30_encoding R66). Only command rows have an encoding as a command word. -/

namespace Sys2Proof

/-- The threshold that `THR` hands to `INK` (41_dither R81): the flat 128, or `(2*m + 1) * 255 / 32` for a
Bayer matrix element `m`. The rational value is `Machine.Threshold.times32` over 32. -/
inductive Threshold where
  | flat
  | bayer (m : BitVec 4)
  deriving DecidableEq, Repr

/-- The transport's two write primitives (10_state R33, 44_chunk R112). -/
inductive WriteMode where
  /-- `writeWithResponse`, bit value 0. -/
  | acknowledged
  /-- `writeWithoutResponse`, bit value 1. -/
  | unacknowledged
  deriving DecidableEq, Repr

/-- The mode's bit in `STATUS.TX_MODE` and in a write request (10_state R22, R33). -/
def WriteMode.bit : WriteMode → Bool
  | .acknowledged => false
  | .unacknowledged => true

/-- The eight ink bits of one bitmap byte, leftmost pixel column first (opcode table row `BITMAP_BYTE`,
letters a to h). -/
structure InkBits where
  a : Bool
  b : Bool
  c : Bool
  d : Bool
  e : Bool
  f : Bool
  g : Bool
  h : Bool
  deriving DecidableEq, Repr

/-- The rows of the opcode table. -/
inductive Instr where
  /-- `ENC d, w` (R70). -/
  | enc (d : Bool) (w : Half)
  /-- `PKT` (R100). -/
  | pkt
  /-- `SND c` (R110). -/
  | snd (c : Half)
  /-- `VAL`, stage 1 of `ENC` (R71); the raster port is an implicit operand. -/
  | val (w : Half)
  /-- `DIM`, stage 2 of `ENC` (R72). -/
  | dim (sw sh w : Half)
  /-- `RSMP`, stage 3 of `ENC` (R73); the source raster with its `sw`, `sh` is an implicit operand. -/
  | rsmp (w h : Half)
  /-- `LUMA`, stage 4 of `ENC`, per pixel (R80). -/
  | luma (r g b : Byte)
  /-- `THR`, stage 5 of `ENC`, per pixel (R81). -/
  | thr (d : Bool) (x y : Half)
  /-- `INK`, stage 6 of `ENC`, per pixel (R83). -/
  | ink (s : BitVec 18) (t : Threshold)
  /-- `PACK`, stage 7 of `ENC`, per byte (R90); `Q` is an implicit operand. -/
  | pack (d : Bool) (xb y : Half)
  /-- `HDR`, stage 1 of `PKT` (R101). -/
  | hdr (height : Half) (n : Word)
  /-- `CAT`, stage 2 of `PKT` (R102); the header of `HDR` and `BMP` are implicit operands. -/
  | cat (n : Word)
  /-- `MSEL`, stage 1 of `SND` (R112); `CAP_WNR` is an implicit operand. -/
  | msel (c : Half)
  /-- `CHK`, stage 2 of `SND`, per chunk (R113). -/
  | chk
  /-- `WR`, stage 3 of `SND`, per chunk: issue (R114), response (R116, R117) and the wait (R118). -/
  | wr
  /-- Any 32-bit word that matches no command row (R63, R125). -/
  | illegal (cw : Word)
  /-- The frame header format, 8 bytes (R101). -/
  | frameHeader (height : Half) (n : Word)
  /-- The frame format, header and payload (R102). -/
  | frame (height : Half) (payload : List Byte)
  /-- The bitmap byte format (R42, R90). -/
  | bitmapByte (bits : InkBits)
  /-- Element `M[row][col]` of the Bayer matrix (R82). -/
  | bayerM (row col : BitVec 2)
  /-- A transport write request (R33). -/
  | txwrite (mode : WriteMode) (bytes : List Byte)
  deriving DecidableEq, Repr

/-- The pseudo-instruction `ENC d`, which stands for `ENC d, 384` (30_encoding R65). -/
abbrev Instr.encDefault (d : Bool) : Instr := .enc d 384#16

/-- The pseudo-instruction `SND`, which stands for `SND 20` (30_encoding R65). -/
abbrev Instr.sndDefault : Instr := .snd 20#16

end Sys2Proof
end

