-- ==== Sys2Proof/Decode.lean ====
section
/-! DEFINITION. The decoder of command words, total on 32-bit words (spec 30_encoding R60 to R64), and after
it the encoder written from the same formats. -/

namespace Sys2Proof

/-- A command row of the operation map: a word `cw` is of the row when `cw & mask = pattern` (30_encoding R62). -/
structure CommandRow where
  mnemonic : String
  mask : Word
  pattern : Word
  deriving DecidableEq, Repr

namespace CommandRow

/-- `ENC d, w`, format E (R60, R62). -/
def enc : CommandRow := ⟨"ENC", 0xFFFE0000#32, 0x01000000#32⟩

/-- `PKT`, format N (R60, R62). -/
def pkt : CommandRow := ⟨"PKT", 0xFFFFFFFF#32, 0x02000000#32⟩

/-- `SND c`, format S (R60, R62). -/
def snd : CommandRow := ⟨"SND", 0xFFFF0000#32, 0x03000000#32⟩

/-- The rows with an encoding, in the order of R62. -/
def all : List CommandRow := [enc, pkt, snd]

/-- `cw & mask = match` (R62). -/
def hits (row : CommandRow) (cw : Word) : Bool := cw &&& row.mask == row.pattern

end CommandRow

/-- The word matches some command row, so it is not illegal (30_encoding R63). -/
def isCommandWord (cw : Word) : Bool := CommandRow.all.any (·.hits cw)

/-- `D = cw[16]` (30_encoding R61). -/
def ditherField (cw : Word) : Bool := cw.getLsbD 16

/-- `W` or `C`, `cw[15:0]`, unsigned, no extension, scaling or shift (30_encoding R61). -/
def immField (cw : Word) : Half := cw.extractLsb' 0 16

/-- The instruction a command word decodes to: the first row it matches, else the row `ILLEGAL`
(30_encoding R62, R63). Stage operations and data formats have no word. -/
def decode (cw : Word) : Instr :=
  if CommandRow.enc.hits cw then .enc (ditherField cw) (immField cw)
  else if CommandRow.pkt.hits cw then .pkt
  else if CommandRow.snd.hits cw then .snd (immField cw)
  else .illegal cw

/-- Format E: `OP = 0x01` in 31:24, zero in 23:17, `D` in 16, `W` in 15:0 (30_encoding R60). -/
def encodeEnc (d : Bool) (w : Half) : Word := 0x01#8 ++ 0#7 ++ BitVec.ofBool d ++ w

/-- Format N: `OP = 0x02` in 31:24, zero below (30_encoding R60). -/
def encodePkt : Word := 0x02#8 ++ 0#24

/-- Format S: `OP = 0x03` in 31:24, zero in 23:16, `C` in 15:0 (30_encoding R60). -/
def encodeSnd (c : Half) : Word := 0x03#8 ++ 0#8 ++ c

/-- The command word of an instruction; `none` for the rows that have no encoding (30_encoding R62, R66). -/
def encode : Instr → Option Word
  | .enc d w => some (encodeEnc d w)
  | .pkt => some encodePkt
  | .snd c => some (encodeSnd c)
  | .illegal cw => some cw
  | .val _ => none
  | .dim _ _ _ => none
  | .rsmp _ _ => none
  | .luma _ _ _ => none
  | .thr _ _ _ => none
  | .ink _ _ => none
  | .pack _ _ _ => none
  | .hdr _ _ => none
  | .cat _ => none
  | .msel _ => none
  | .chk => none
  | .wr => none
  | .frameHeader _ _ => none
  | .frame _ _ => none
  | .bitmapByte _ => none
  | .bayerM _ _ => none
  | .txwrite _ _ => none

/-- The command word made of the low `nbits` bits of `w`, the bits above them zero. -/
def tableWord (nbits w : Nat) : Word := BitVec.ofNat 32 (w % 2 ^ nbits)

/-- The decoder on an instruction numbered as the opcode table numbers it. All commands are one 32-bit word
(30_encoding R64), so a longer row is no command and is refused. -/
def decodeTableWord (nbits w : Nat) : Option Instr :=
  if nbits ≤ 32 then some (decode (tableWord nbits w)) else none

end Sys2Proof
end

