-- ==== Sys2Proof/Config.lean ====
section
/-! DEFINITION. The parameters of an implementation (spec 00_scope R8) and the free values of the model.
`W_PROTOCOL` and `CHUNK_DEFAULT` are fixed by the spec; `BMP_CAP` and `RESAMPLE` are OPEN and stand in
`Params`, which State carries and no step writes (log 7). -/

namespace Sys2Proof

/-- Which resampling filter the implementation has (00_scope R8 `RESAMPLE`, 40_resample R74 to R76; log 8).
`reference` is `RESAMPLE_REF`; `other k` is the `k`-th filter of an unconstrained family, made to keep
properties P1, P2, P4, P5 and P6 by `Machine.filterPixel`. -/
inductive Filter where
  | reference
  | other (k : Nat)
  deriving DecidableEq, Repr

/-- The OPEN parameters of 00_scope R8 on which a rule depends. -/
structure Params where
  /-- `BMP_CAP`: the largest bitmap payload in bytes. -/
  bmpCap : Nat
  /-- `RESAMPLE`: the resampling filter. -/
  filter : Filter
  deriving DecidableEq, Repr

namespace Config

/-- `W_PROTOCOL`, the default operand of `ENC` (00_scope R8). -/
abbrev protocolWidth : Half := 384#16

/-- `CHUNK_DEFAULT`, the default operand of `SND` (00_scope R8) and the reset value of `CHUNK` (10_state R38). -/
abbrev chunkDefault : Half := 20#16

/-- The largest payload the operand widths allow, `8191 * 65535` (00_scope R8, 90_conflicts C11). -/
abbrev bmpCapMax : Nat := 536797185

/-- The spec's defaults for executable models (92_eei_decisions, "Open parameters in one place"). -/
def defaults : Params := ⟨bmpCapMax, .reference⟩

/-- FREE VALUE. The unspecified value that draw number `draw` of a read of register `number` returns
(10_state R23, R24, R26; 93 U8, U9; log 3). -/
opaque freeRegister (draw number : Nat) : Word

/-- FREE VALUE. The pixel a raster gives at a position outside it, or where its list of pixels holds none: cases that
the rasterizer's duty and the ranges of the commands exclude (70 R143, 42_pack R90; log 9). -/
opaque absentPixel (x y : Nat) : Pixel

/-- FREE VALUE. Pixel `(x, y)` of the `w` by `h` raster that filter number `k` makes of the `sw` by `sh`
source whose pixels are listed row by row (40_resample R74; log 8). -/
opaque freeFilter (k : Nat) (source : List Pixel) (sw sh w h x y : Nat) : Pixel

/-- FREE VALUE. Pixel `(x, y)` of the `w` by `h` raster that `RESAMPLE_REF` makes of an `sw` by `sh` source that has
no pixel (`sw = 0` or `sh = 0`), which 40_resample R73 and R76 do not state (log 23). -/
opaque noSourcePixel (sw sh w h x y : Nat) : Pixel

/-- FREE VALUE. The quotient `DIM` works with in draw number `draw`, for operands outside those of 40_resample R72,
such as `sw = 0` (log 22). -/
opaque freeQuotient (draw : Nat) : Nat

/-- FREE VALUE. The length of the chunk that `CHK` cuts in draw number `draw`, outside the precondition of 44_chunk
R113 (log 24). -/
opaque freeLength (draw : Nat) : Nat

/-- FREE VALUE. In draw number `draw`, the byte at `address` of a buffer in which nothing has been written there
(10_state R38, 93 U14; log 1). -/
opaque freeByte (draw address : Nat) : Byte

/-- FREE VALUE. The four length bytes of a frame whose payload is longer than 32 bits can say, in draw number `draw`
(43_header R101, R105; log 25). -/
opaque freePayloadLength (draw : Nat) : Word

end Config

end Sys2Proof
end

