-- ==== Sys2Proof/Machine/State.lean ====
section
/-! DEFINITION. The state of the core as plain data (spec 10_state), the moves of the agents around it
(70 R154), the reasons a step can stop, and the state after reset (10_state R38). -/

namespace Sys2Proof.Machine

/-- A byte buffer: (address, byte) cells, addresses strictly rising; an address that is not listed holds no
value, and a read of it by the core gives a free one (log 1). -/
abbrev Memory := List Host.Cell

/-- A raster of pixels, row by row from the top, each row from the left (20_memory R40, R46; log 9). The source
raster at the raster port and the resampled raster `Q` are both of this shape. -/
structure Raster where
  width : Half
  height : Half
  pixels : List Pixel
  deriving DecidableEq, Repr

/-- The sequencer state `SEQ` (10_state R21); value 3 is never taken and has no constructor (93 U13). -/
inductive Seq where
  | idle
  | sndIssue
  | sndWait
  deriving DecidableEq, Repr

/-- The way the last command ended, `STATUS.ERR` (10_state R22, 60 R120); codes 6 to 15 are never produced and
have no constructor (93 U13). -/
inductive ErrKind where
  | ok
  | invalidInput
  | decodeFailure
  | transportWriteFailure
  | illegalCommand
  | sequenceError
  deriving DecidableEq, Repr

/-- A write request `TxWrite(mode, bytes)` on the transport port (10_state R33). -/
structure TxRequest where
  mode : WriteMode
  bytes : List Byte
  deriving DecidableEq, Repr

/-- The transport's answer to a request (10_state R33). -/
inductive TxAnswer where
  | ok
  | fail
  deriving DecidableEq, Repr

/-- The response field of a recorded beat (10_state R37). -/
inductive Response where
  | pending
  | answered (a : TxAnswer)
  deriving DecidableEq, Repr

/-- One beat of `TXLOG` (10_state R37). -/
structure Beat where
  mode : WriteMode
  bytes : List Byte
  response : Response
  deriving DecidableEq, Repr

/-- A chunk `(o, n)` of the frame (44_chunk R113). -/
structure Slice where
  offset : Nat
  length : Nat
  deriving DecidableEq, Repr

/-- What the stage operations of one command hand to one another (30_encoding R62); all empty between two
steps, as the resampled raster `Q` is (10_state R27, R38; log 10). -/
structure Work where
  /-- `h`, from `DIM` (R72). -/
  height : Option Half
  /-- `Q`, from `RSMP` (R73). -/
  q : Option Raster
  /-- `S`, from `LUMA` (R80). -/
  luma : Option (BitVec 18)
  /-- `t`, from `THR` (R81). -/
  threshold : Option Threshold
  /-- The ink bit, from `INK` (R83). -/
  ink : Option Bool
  /-- The byte, from `PACK` (R90). -/
  packed : Option Byte
  /-- The bitmap under construction `B` (R70, R90). -/
  bitmap : Memory
  /-- The header, from `HDR` (R101). -/
  header : Option (List Byte)
  /-- The frame `F`, from `CAT` (R102). -/
  frame : Option (List Byte)
  /-- The chunk `(o, n)`, from `CHK` (R113). -/
  slice : Option Slice
  /-- An element of the Bayer matrix (R82). -/
  bayer : Option (BitVec 4)
  deriving DecidableEq, Repr

/-- Nothing handed on: the value between two steps (10_state R38, row `Q`). -/
def Work.empty : Work :=
  ⟨none, none, none, none, none, none, [], none, none, none, none⟩

/-- What a read port gave the host or the bitmap consumer (log 13). -/
inductive HostData where
  | word (v : Word)
  | byte (v : Byte)
  deriving DecidableEq, Repr

/-- A move of one of the agents of 70 R154 (log 4). -/
inductive Move where
  /-- The core takes its next step, if it has one (10_state R39). -/
  | core
  /-- The host writes the value `v` to register `n` (10_state R26, R31). -/
  | hostWrite (n : Nat) (v : Word)
  /-- The host reads register `n` (10_state R26, R31). -/
  | hostRead (n : Nat)
  /-- The consumer reads `BMP_W` and `BMP_H` through the bitmap read port (10_state R35). -/
  | readBitmapSize
  /-- The consumer reads `BMP[i]` through the bitmap read port (10_state R35). -/
  | readBitmap (i : Nat)
  /-- The host reads `FRM_LEN` through the frame read port (10_state R36). -/
  | readFrameLength
  /-- The host reads `FRM[o]` through the frame read port (10_state R36). -/
  | readFrame (o : Nat)
  /-- The host asserts reset (70 R140, R141). -/
  | reset
  /-- The rasterizer presents `SRC_OK` and a raster (10_state R32). -/
  | present (ok : Bool) (raster : Raster)
  /-- The transport drives `CAP_WNR` (10_state R34). -/
  | capability (wnr : Bool)
  /-- The transport answers the outstanding write (10_state R33). -/
  | respond (a : TxAnswer)
  deriving DecidableEq, Repr

/-- Reasons for which a step stops with a fault. None of them is reached by `step` from a state that meets
`Machine.Inv`; each is safe, since the machine stops where the spec gives no effect. -/
inductive Fault where
  /-- A stage operation is asked for where no earlier stage handed it its operand, or `WR` outside an `SND`
  (30_encoding R62: carried out only as part of their command, in the order shown; 44_chunk R114: `require SEQ =
  SND_ISSUE`). Raised by `execPack`, `execCat`, `execWr`. Safe (log 10). -/
  | stageOutOfOrder
  /-- A second write is put on the transport port while one is outstanding (20_memory R53: never). Raised by
  `execWr`, `execTxwrite`. Safe (log 19). -/
  | writeOutstanding
  deriving DecidableEq, Repr

/-- Reasons for which a step is refused. -/
inductive Refusal where
  /-- An instruction that has no meaning yet, rejected by name by `exec`. Safe. No arm answers it. -/
  | notModelled (mnemonic : String)
  /-- The transport answers while no write is outstanding (93 U7: the transport has no such step). Raised by
  `answerMove`. Safe (log 14). -/
  | answerWithoutWrite
  /-- The bitmap is read while `BMP_VALID = 0` or at `i ≥ BMP_LEN` (10_state R35, 93 U8: refused, no value).
  Raised by `readBitmapMove`, `readBitmapSizeMove`. Safe (log 13). -/
  | bitmapReadRefused
  /-- The frame is read while `FRM_VALID = 0` or at `o ≥ FRM_LEN` (10_state R36, 93 U8: refused, no value).
  Raised by `readFrameMove`, `readFrameLengthMove`. Safe (log 13). -/
  | frameReadRefused
  /-- Register 0, which is write-only, is read (10_state R26). Raised by `hostReadMove`. Safe (log 13). -/
  | commandRegisterIsWriteOnly
  deriving DecidableEq, Repr

/-- The state of the core, its inputs and the agents around it. -/
structure State where
  /-- `SEQ` (10_state R21). -/
  seq : Seq
  /-- `STATUS.ERR` (10_state R22). -/
  err : ErrKind
  /-- `STATUS.BMP_VALID` (10_state R22). -/
  bmpValid : Bool
  /-- `STATUS.FRM_VALID` (10_state R22). -/
  frmValid : Bool
  /-- `STATUS.TX_MODE`, the latched write mode (10_state R22, R28). -/
  txMode : WriteMode
  /-- `BMP_W` (10_state R23). -/
  bmpW : Half
  /-- `BMP_H` (10_state R23). -/
  bmpH : Half
  /-- The bitmap buffer `BMP` (10_state R27). -/
  bmp : Memory
  /-- `FRM_LEN` (10_state R24). -/
  frmLen : Word
  /-- The frame buffer `FRM` (10_state R27). -/
  frm : Memory
  /-- `CHUNK` (10_state R25). -/
  chunk : Half
  /-- `TX_OFF` (10_state R25). -/
  txOff : Word
  /-- The pending write `TXREQ` (10_state R28). -/
  txReq : Option TxRequest
  /-- The observation record `TXLOG` (10_state R37). -/
  txLog : List Beat
  /-- The values inside the running command, `Q` among them (10_state R27; log 10). -/
  work : Work
  /-- Input `SRC_OK` (10_state R32). -/
  srcOk : Bool
  /-- Inputs `SRC_W`, `SRC_H` and the pixels (10_state R32). -/
  src : Raster
  /-- Input `CAP_WNR` (10_state R34). -/
  capWnr : Bool
  /-- The transport's answer in this step (10_state R33; log 14). -/
  txAnswer : Option TxAnswer
  /-- Command words written to register 0 and not yet accepted, oldest first (10_state R31; log 5). -/
  held : List Word
  /-- The coming moves of the agents, the next one first (log 4). -/
  agenda : List Move
  /-- What the last accepted read returned (log 13). -/
  hostData : Option HostData
  /-- How many free values have been drawn (log 3, log 22). -/
  draws : Nat
  /-- The OPEN parameters of the implementation, never written (00_scope R8; log 7). -/
  params : Params
  deriving DecidableEq, Repr

/-- The state after reset (10_state R38, 70 R140). `BMP_W`, `BMP_H` and `FRM_LEN` are unspecified there and zero
here (DESIGN CHOICE, unsafe, log 2); the inputs are the model's (log 15). -/
def State.reset : State where
  seq := .idle
  err := .ok
  bmpValid := false
  frmValid := false
  txMode := .acknowledged
  bmpW := 0#16
  bmpH := 0#16
  bmp := []
  frmLen := 0#32
  frm := []
  chunk := Config.chunkDefault
  txOff := 0#32
  txReq := none
  txLog := []
  work := .empty
  srcOk := false
  src := ⟨0#16, 0#16, []⟩
  capWnr := false
  txAnswer := none
  held := []
  agenda := []
  hostData := none
  draws := 0
  params := Config.defaults

end Sys2Proof.Machine
end

