-- ==== Sys2Proof/Machine/Memory.lean ====
section
/-! DEFINITION. The byte buffers `BMP` and `FRM` (spec 20_memory R40): a list of (address, byte) cells in one
canonical form (log 1), read and written through the operations of this file only. -/

namespace Sys2Proof.Machine

/-- What an unlisted address reads as: no value (10_state R38, 93 U8, U14); see `fetchByte` for what a reader then
gets. -/
def Memory.unlisted : Option Byte := none

/-- The byte at an address, if it has one. -/
def Memory.read (m : Memory) (a : Nat) : Option Byte :=
  match m with
  | [] => Memory.unlisted
  | (k, v) :: rest => if a = k then some v else Memory.read rest a

/-- Store one byte, keeping the addresses strictly rising. -/
def Memory.write (m : Memory) (a : Nat) (v : Byte) : Memory :=
  match m with
  | [] => [(a, v)]
  | (k, b) :: rest =>
    if a < k then (a, v) :: (k, b) :: rest
    else if a = k then (a, v) :: rest
    else (k, b) :: Memory.write rest a v

/-- Every address listed is at least `lo`, and they rise strictly. -/
def Memory.risesFrom (lo : Nat) (m : Memory) : Bool :=
  match m with
  | [] => true
  | (k, _) :: rest => decide (lo ≤ k) && Memory.risesFrom (k + 1) rest

/-- The canonical form: addresses strictly rising. An unlisted address has no value, so no entry can equal what
an unlisted address reads as. -/
def Memory.wf (m : Memory) : Bool := Memory.risesFrom 0 m

/-- The buffer that holds the bytes `bs` from address `a` on. -/
def Memory.ofBytesFrom (a : Nat) (bs : List Byte) : Memory :=
  match bs with
  | [] => []
  | b :: rest => (a, b) :: Memory.ofBytesFrom (a + 1) rest

/-- The buffer that holds exactly the byte sequence `bs`, from index 0 on (00_scope R9). -/
def Memory.ofBytes (bs : List Byte) : Memory := Memory.ofBytesFrom 0 bs

/-- `n` bytes from address `a` on, `MemRead` of 00_scope R10; no value if one of them has none. -/
def Memory.readRange (m : Memory) (a : Nat) : Nat → Option (List Byte)
  | 0 => some []
  | n + 1 =>
    match Memory.read m a, Memory.readRange m (a + 1) n with
    | some b, some bs => some (b :: bs)
    | _, _ => none

/-- Write the bytes `bs` from address `a` on, `MemWrite` of 00_scope R10, one byte at a time (20_memory R48). -/
def Memory.writeRange (m : Memory) (a : Nat) (bs : List Byte) : Memory :=
  match bs with
  | [] => m
  | b :: rest => Memory.writeRange (Memory.write m a b) (a + 1) rest

end Sys2Proof.Machine
end

