-- ==== Sys2Proof/Machine/Operands.lean ====
section
/-! DEFINITION. The operands of the operations that are not in the command word (spec 30_encoding R61): the
source raster behind the raster port, the resampled raster, the capability input, the payload length and the
current chunk. -/

namespace Sys2Proof.Machine

/-- `SrcRead(x, y)`, and the read of `Q(x, y)`: column `x` from the left, row `y` from the top
(20_memory R46). Outside the raster, or where the list holds no pixel, the value is free (log 9). -/
def Raster.pixel (r : Raster) (x y : Nat) : Pixel :=
  if x < r.width.toNat ∧ y < r.height.toNat then
    match r.pixels[y * r.width.toNat + x]? with
    | some p => p
    | none => Config.absentPixel x y
  else Config.absentPixel x y

/-- The `w` by `h` raster whose pixel `(x, y)` is `f x y`. -/
def Raster.tabulate (w h : Half) (f : Nat → Nat → Pixel) : Raster where
  width := w
  height := h
  pixels := (List.range h.toNat).flatMap fun y => (List.range w.toNat).map fun x => f x y

/-- All pixels in range, row by row: what a resampler may read (40_resample R75, P6). -/
def Raster.inRange (r : Raster) : List Pixel :=
  (List.range r.height.toNat).flatMap fun y => (List.range r.width.toNat).map fun x => r.pixel x y

/-- The mode that `CAP_WNR` asks for: 1 unacknowledged, 0 acknowledged (44_chunk R112). -/
def modeOfCapability (wnr : Bool) : WriteMode := if wnr then .unacknowledged else .acknowledged

/-- `(w >> 3) * h`, the number of bytes of a `w` by `h` bitmap (20_memory R44, 42_pack R91). -/
def bitmapSize (w h : Nat) : Nat := w / 8 * h

/-- `BMP_LEN = (BMP_W >> 3) * BMP_H`, not stored (10_state R23). -/
def bmpLen (s : State) : Word := (s.bmpW >>> 3).setWidth 32 * s.bmpH.setWidth 32

/-- A free value has been drawn: the next draw is another one (log 22). -/
def drawn (s : State) : State := { s with draws := s.draws + 1 }

/-- One byte of a buffer, and the state after the read: where nothing has been written there the byte is free
(log 1). -/
def fetchByte (m : Memory) (a : Nat) (s : State) : Byte × State :=
  match Memory.read m a with
  | some b => (b, s)
  | none => (Config.freeByte s.draws a, drawn s)

/-- `n` bytes of a buffer from address `a` on, each as `fetchByte` gives it. -/
def fetchBytes (m : Memory) (a : Nat) (n : Nat) (s : State) : List Byte × State :=
  match n with
  | 0 => ([], s)
  | n + 1 =>
    match fetchByte m a s with
    | (b, s1) =>
      match fetchBytes m (a + 1) n s1 with
      | (bs, s2) => (b :: bs, s2)

/-- `CHK`: the next chunk, `o = TX_OFF`, `n = min(CHUNK, FRM_LEN - TX_OFF)`, and the state after it. Where the
precondition `TX_OFF < FRM_LEN`, `CHUNK ≥ 1` does not hold, the rule states no length and `n` is free (44_chunk R113;
log 24). -/
def nextSlice (s : State) : Slice × State :=
  if s.txOff.toNat < s.frmLen.toNat ∧ 1 ≤ s.chunk.toNat then
    (⟨s.txOff.toNat, min s.chunk.toNat (s.frmLen.toNat - s.txOff.toNat)⟩, s)
  else (⟨s.txOff.toNat, Config.freeLength s.draws⟩, drawn s)

end Sys2Proof.Machine
end

