-- ==== Sys2Proof/Machine/Flags.lean ====
section
/-! DEFINITION. The status register and the values of the host registers (spec 10_state R22 to R26). -/

namespace Sys2Proof.Machine

/-- The code that `STATUS.ERR` shows (10_state R22, 60_exceptions R120). -/
def errCode : ErrKind → BitVec 4
  | .ok => 0#4
  | .invalidInput => 1#4
  | .decodeFailure => 2#4
  | .transportWriteFailure => 3#4
  | .illegalCommand => 4#4
  | .sequenceError => 5#4

/-- The encoding of `SEQ` (10_state R21). -/
def seqCode : Seq → BitVec 2
  | .idle => 0#2
  | .sndIssue => 1#2
  | .sndWait => 2#2

/-- `BUSY`: 1 exactly when `SEQ` is not `IDLE`; derived, not stored (10_state R22). -/
def busy (s : State) : Bool := s.seq != .idle

/-- `STATUS`: `ERR` 3:0, `BMP_VALID` 4, `FRM_VALID` 5, `TX_MODE` 6, `BUSY` 7, zero above (10_state R22). -/
def statusWord (s : State) : Word :=
  0#24 ++ BitVec.ofBool (busy s) ++ BitVec.ofBool s.txMode.bit ++ BitVec.ofBool s.frmValid
    ++ BitVec.ofBool s.bmpValid ++ errCode s.err

/-- `BMP_DIM`: `BMP_W` 15:0, `BMP_H` 31:16 (10_state R23). -/
def bmpDimWord (s : State) : Word := s.bmpH ++ s.bmpW

/-- `TX_CFG`: `CHUNK` 15:0, zero above (10_state R25). -/
def txCfgWord (s : State) : Word := 0#16 ++ s.chunk

/-- The value a read of register `n` returns where the spec gives it one: register 1 to 6, and registers 2 to 4
only while their valid bit is 1 (10_state R23, R24, R26; 93 U8, U9). -/
def registerValue (n : Nat) (s : State) : Option Word :=
  match n with
  | 1 => some (statusWord s)
  | 2 => if s.bmpValid then some (bmpDimWord s) else none
  | 3 => if s.bmpValid then some (bmpLen s) else none
  | 4 => if s.frmValid then some s.frmLen else none
  | 5 => some (txCfgWord s)
  | 6 => some s.txOff
  | _ => none

end Sys2Proof.Machine
end

