-- ==== Sys2Proof/Machine/Ops.lean ====
section
/-! DEFINITION. The operations the meanings share: taking an error (spec 60_exceptions R121), ending a command,
holding a command at the port, the commits of `ENC` and `PKT`, and the writes to the transport port. -/

namespace Sys2Proof.Machine

/-- The outcome of a meaning. -/
abbrev Result := Host.Outcome State Fault Refusal

/-- `raise <Kind>`: `STATUS.ERR` takes the code, `SEQ` is `IDLE`, `TXREQ` is empty, and nothing else changes
(60_exceptions R121). There is no return beside it: nothing was entered (R128). -/
def raise (k : ErrKind) (s : State) : State :=
  { s with err := k, seq := .idle, txReq := none }

/-- `complete OK`: the command ends with `STATUS.ERR = 0` (00_scope R10). -/
def complete (s : State) : State := { s with err := .ok }

/-- A command word that is not accepted stays pending at the host, before the words written after it
(10_state R31; log 12). -/
def hold (cw : Word) (s : State) : State := { s with held := cw :: s.held }

/-- A command is accepted only while `SEQ = IDLE`; until then its word is held (10_state R31). -/
def whenAccepted (cw : Word) (s : State) (accepted : Result) : Result :=
  match s.seq with
  | .idle => accepted
  | .sndIssue => .next (hold cw s)
  | .sndWait => .next (hold cw s)

/-- Commit of `ENC`: `BMP`, `BMP_W`, `BMP_H` and `BMP_VALID`, as one update (42_pack R92). -/
def commitBitmap (w h : Half) (bytes : List Byte) (s : State) : State :=
  { s with bmp := Memory.ofBytes bytes, bmpW := w, bmpH := h, bmpValid := true }

/-- Commit of `PKT`: `FRM`, `FRM_LEN` and `FRM_VALID`, as one update (43_header R103). -/
def commitFrame (len : Word) (bytes : List Byte) (s : State) : State :=
  { s with frm := Memory.ofBytes bytes, frmLen := len, frmValid := true }

/-- `MSEL`: `CHUNK`, `TX_MODE` from `CAP_WNR`, `TX_OFF = 0`, `SEQ = SND_ISSUE` (44_chunk R112). -/
def selectMode (c : Half) (s : State) : State :=
  { s with chunk := c, txMode := modeOfCapability s.capWnr, txOff := 0#32, seq := .sndIssue }

/-- `TxWrite(mode, bytes)`: the request stands on the transport port and a beat without response is recorded
(10_state R33, R37; 44_chunk R115). -/
def txWrite (mode : WriteMode) (bytes : List Byte) (s : State) : State :=
  { s with txReq := some ⟨mode, bytes⟩, txLog := s.txLog ++ [⟨mode, bytes, .pending⟩] }

/-- The response replaces `pending` in the last beat (44_chunk R115). -/
def settleLast (a : TxAnswer) : List Beat → List Beat
  | [] => []
  | [b] => [{ b with response := .answered a }]
  | b :: c :: rest => b :: settleLast a (c :: rest)

/-- `WR`, response `TX_OK`: `TX_OFF` moves past the bytes of the request; at `FRM_LEN` the `SND` ends `OK`, before
it the next chunk is to be issued (44_chunk R116). -/
def answerOk (r : TxRequest) (s : State) : State :=
  let off := s.txOff + BitVec.ofNat 32 r.bytes.length
  let s' := { s with txReq := none, txAnswer := none, txOff := off, txLog := settleLast .ok s.txLog }
  if off = s.frmLen then { s' with seq := .idle, err := .ok } else { s' with seq := .sndIssue }

/-- `WR`, response `TX_FAIL`: `TRANSPORT_WRITE_FAILURE` is raised; `TX_OFF` keeps the failed chunk's offset
(44_chunk R117). -/
def answerFail (s : State) : State :=
  raise .transportWriteFailure { s with txAnswer := none, txLog := settleLast .fail s.txLog }

end Sys2Proof.Machine
end

