-- ==== Sys2Proof/Machine/Chunk.lean ====
section
/-! DEFINITION. The byte chunker and write-mode multiplexer (spec 44_chunk): the stage operations `MSEL`, `CHK`,
`WR` and the command `SND`. -/

namespace Sys2Proof.Machine

/-- `MSEL c` (R112). -/
def execMsel (c : Half) (s : State) : Result := .next (selectMode c s)

/-- `CHK` (R113): hands on the chunk. -/
def execChk (s : State) : Result :=
  match nextSlice s with
  | (c, s') => .next { s' with work := { s'.work with slice := some c } }

/-- The bytes of the next chunk, `FRM[o : o+n]`, and the state after they are read (R113). -/
def nextChunk (s : State) : List Byte × State :=
  match nextSlice s with
  | (c, s') => fetchBytes s.frm c.offset c.length s'

/-- `WR`, issue (R114): the request for the next chunk stands on the port and `SEQ` waits. A second write is never
put on the port while one is outstanding (20_memory R53; log 19). -/
def issueWrite (s : State) : Result :=
  if s.txReq.isSome then .fault .writeOutstanding
  else
    match nextChunk s with
    | (bytes, s') => .next { txWrite s.txMode bytes s' with seq := .sndWait }

/-- `WR`, response: success (R116), failure (R117), or none yet, in which case the core waits (R118). -/
def takeAnswer (s : State) : Result :=
  match s.txAnswer with
  | none => .next s
  | some a =>
    match s.txReq with
    | none => .fault .stageOutOfOrder
    | some r =>
      match a with
      | .ok => .next (answerOk r s)
      | .fail => .next (answerFail s)

/-- `WR` (R114, R116, R117, R118): the issue step in `SND_ISSUE`, the response step in `SND_WAIT`. -/
def execWr (s : State) : Result :=
  match s.seq with
  | .idle => .fault .stageOutOfOrder
  | .sndIssue => issueWrite s
  | .sndWait => takeAnswer s

/-- The body of an accepted `SND c`: the checks in order, then `MSEL` (R110, R111). -/
def startSend (c : Half) (s : State) : State :=
  if s.frmValid = false then raise .sequenceError s
  else if c.toNat = 0 then raise .invalidInput s
  else selectMode c s

/-- `SND c` (R110): the acceptance; the chunks follow as steps of `WR`. -/
def execSnd (c : Half) (s : State) : Result :=
  whenAccepted (encodeSnd c) s (.next (startSend c s))

end Sys2Proof.Machine
end

