-- ==== Sys2Proof/Machine/Header.lean ====
section
/-! DEFINITION. The frame header composer (spec 43_header): the stage operations `HDR`, `CAT` and the command
`PKT`. -/

namespace Sys2Proof.Machine

/-- `le16(v)`: least significant byte first (20_memory R41). -/
def le16 (v : Half) : List Byte := [v.extractLsb' 0 8, v.extractLsb' 8 8]

/-- `le32(v)`: least significant byte first (20_memory R41). -/
def le32 (v : Word) : List Byte :=
  [v.extractLsb' 0 8, v.extractLsb' 8 8, v.extractLsb' 16 8, v.extractLsb' 24 8]

/-- Two bytes read as one little-endian integer (20_memory R43). -/
def fromLe16 : List Byte → Option Half
  | [b0, b1] => some (b1 ++ b0)
  | _ => none

/-- Four bytes read as one little-endian integer (20_memory R43). -/
def fromLe32 : List Byte → Option Word
  | [b0, b1, b2, b3] => some (b3 ++ b2 ++ b1 ++ b0)
  | _ => none

/-- The two magic bytes, not an integer (R101, 90_conflicts C6). -/
def magic : List Byte := [0x42#8, 0x4D#8]

/-- `HDR`: the 8-byte header (R101). -/
def headerBytes (height : Half) (n : Word) : List Byte := magic ++ le16 height ++ le32 n

/-- `CAT`: the frame is the header, then the payload (R102). -/
def frameBytes (hdr payload : List Byte) : List Byte := hdr ++ payload

/-- `HDR height n` (R101): hands on the header. -/
def execHdr (height : Half) (n : Word) (s : State) : Result :=
  .next { s with work := { s.work with header := some (headerBytes height n) } }

/-- `CAT n` (R102): hands on the frame made of the header and the first `n` bytes of `BMP`. -/
def execCat (n : Word) (s : State) : Result :=
  match s.work.header with
  | none => .fault .stageOutOfOrder
  | some hdr =>
    match fetchBytes s.bmp 0 n.toNat s with
    | (payload, s') => .next { s' with work := { s'.work with frame := some (frameBytes hdr payload) } }

/-- The body of an accepted `PKT` (R100). -/
def packetize (s : State) : State :=
  if s.bmpValid = false then raise .sequenceError s
  else
    let n := bmpLen s
    match fetchBytes s.bmp 0 n.toNat s with
    | (payload, s') => complete (commitFrame (8#32 + n) (frameBytes (headerBytes s.bmpH n) payload) s')

/-- `PKT` (R100), one indivisible step. -/
def execPkt (s : State) : Result := whenAccepted encodePkt s (.next (packetize s))

end Sys2Proof.Machine
end

