-- ==== Sys2Proof/Machine/Dither.lean ====
section
/-! DEFINITION. The monochrome ditherer (spec 41_dither): the stage operations `LUMA`, `THR`, `INK` and the Bayer
matrix. -/

namespace Sys2Proof.Machine

/-- `LUMA`: `S = 299*R + 587*G + 114*B`, one thousand times the luminance, in 18 bits (R80). -/
def luminance (r g b : Byte) : BitVec 18 :=
  BitVec.ofNat 18 (299 * r.toNat + 587 * g.toNat + 114 * b.toNat)

/-- The Bayer matrix `M`, row-major (R82). -/
def bayerMatrix : Vector (BitVec 4) 16 :=
  #v[0#4, 8#4, 2#4, 10#4, 12#4, 4#4, 14#4, 6#4, 3#4, 11#4, 1#4, 9#4, 15#4, 7#4, 13#4, 5#4]

/-- `M[row][col]`, element `4*row + col` of the list (R82). -/
def bayerElement (row col : BitVec 2) : BitVec 4 :=
  bayerMatrix[4 * row.toNat + col.toNat]'(by have := row.isLt; have := col.isLt; omega)

/-- `THR`: 128 without dithering, else the threshold of `M[y mod 4][x mod 4]` (R81). -/
def thresholdAt (d : Bool) (x y : Nat) : Threshold :=
  if d then .bayer (bayerElement (BitVec.ofNat 2 y) (BitVec.ofNat 2 x)) else .flat

/-- The threshold as a number, times 32: `128 * 32`, or `(2*m + 1) * 255` (R81). -/
def thresholdTimes32 : Threshold → Nat
  | .flat => 4096
  | .bayer m => (2 * m.toNat + 1) * 255

/-- `INK`: the pixel is ink when its luminance is strictly below the threshold, in the integer forms of R83 and
R84. -/
def inkDecision (s : BitVec 18) : Threshold → Bool
  | .flat => decide (s.toNat < 128000)
  | .bayer m => decide (4 * s.toNat < 31875 * (2 * m.toNat + 1))

/-- `LUMA r g b` (R80): hands on `S`. -/
def execLuma (r g b : Byte) (s : State) : Result :=
  .next { s with work := { s.work with luma := some (luminance r g b) } }

/-- `THR d x y` (R81): hands on the threshold. -/
def execThr (d : Bool) (x y : Half) (s : State) : Result :=
  .next { s with work := { s.work with threshold := some (thresholdAt d x.toNat y.toNat) } }

/-- `INK S t` (R83): hands on the ink bit. -/
def execInk (lum : BitVec 18) (t : Threshold) (s : State) : Result :=
  .next { s with work := { s.work with ink := some (inkDecision lum t) } }

end Sys2Proof.Machine
end

