-- ==== Sys2Proof/Machine/Resample.lean ====
section
/-! DEFINITION. The image resampler (spec 40_resample): the stage operations `VAL`, `DIM` and `RSMP`. -/

namespace Sys2Proof.Machine

/-- `VAL`: the checks of an `ENC`, in order; the first that fails gives the error (R71, 60_exceptions R124). -/
def validationError (w : Half) (s : State) : Option ErrKind :=
  if s.srcOk = false then some .decodeFailure
  else if w.toNat = 0 then some .invalidInput
  else if w.toNat % 8 ≠ 0 then some .invalidInput
  else if s.src.width.toNat = 0 ∨ s.src.height.toNat = 0 then some .invalidInput
  else none

/-- The height before the range checks: `sh * w / sw` rounded half up, at least 1 (R72). -/
def roundedHeight (sw sh w : Nat) : Nat :=
  let h := (2 * sh * w + sw) / (2 * sw)
  if h = 0 then 1 else h

/-- The range checks of `DIM`: the height, or none where it does not fit the header's 16 bits or the bitmap does not
fit `BMP_CAP` bytes (R72). -/
def checkedHeight (cap : Nat) (w : Half) (h : Nat) : Option Half :=
  if h > 65535 then none
  else if bitmapSize w.toNat h > cap then none
  else some (BitVec.ofNat 16 h)

/-- `DIM`: the bitmap height, where it passes the range checks (R72). -/
def bitmapHeight (cap : Nat) (sw sh w : Half) : Option Half :=
  checkedHeight cap w (roundedHeight sw.toNat sh.toNat w.toNat)

/-- The height before the range checks, and the state after it is computed. For `sw = 0` the quotient of R72 does not
exist, and below `w = 8` the rule states none: it is then free, and `max(1, …)` is taken of it. A source of height 0
has a quotient, and `max(1, …)` gives it a height (R71, corner cases; log 22). -/
def heightOf (sw sh w : Half) (s : State) : Nat × State :=
  if 1 ≤ sw.toNat ∧ 8 ≤ w.toNat then (roundedHeight sw.toNat sh.toNat w.toNat, s)
  else (max 1 (Config.freeQuotient s.draws), drawn s)

/-- `un` (or `vn`): the numerator over `2 * out` of the source coordinate of output index `i`, pixel centres
aligned, clamped to the `n` source samples (R76). -/
def axisNumerator (n out i : Nat) : Nat :=
  min (if (2 * i + 1) * n < out then 0 else (2 * i + 1) * n - out) (2 * out * (n - 1))

/-- `x0`: the nearer-to-origin sample (R76). -/
def axisLow (n out i : Nat) : Nat := axisNumerator n out i / (2 * out)

/-- `fx`: the weight of the farther sample, out of `2 * out` (R76). -/
def axisFraction (n out i : Nat) : Nat := axisNumerator n out i % (2 * out)

/-- `x1`: the next sample, clamped to the edge (R76). -/
def axisHigh (n out i : Nat) : Nat := min (axisLow n out i + 1) (n - 1)

/-- `num / (4*w*h)` rounded half up, for the four samples of one channel (R76). -/
def blend (w h fx fy s00 s10 s01 s11 : Nat) : Byte :=
  let num := (2 * w - fx) * (2 * h - fy) * s00 + fx * (2 * h - fy) * s10
    + (2 * w - fx) * fy * s01 + fx * fy * s11
  BitVec.ofNat 8 ((num + 2 * w * h) / (4 * w * h))

/-- Pixel `(x, y)` of `RESAMPLE_REF` at size `w` by `h`: bilinear, each channel on its own (R76). -/
def referencePixel (src : Raster) (w h x y : Nat) : Pixel :=
  let sw := src.width.toNat
  let sh := src.height.toNat
  let fx := axisFraction sw w x
  let fy := axisFraction sh h y
  let p00 := src.pixel (axisLow sw w x) (axisLow sh h y)
  let p10 := src.pixel (axisHigh sw w x) (axisLow sh h y)
  let p01 := src.pixel (axisLow sw w x) (axisHigh sh h y)
  let p11 := src.pixel (axisHigh sw w x) (axisHigh sh h y)
  ⟨blend w h fx fy p00.r.toNat p10.r.toNat p01.r.toNat p11.r.toNat,
   blend w h fx fy p00.g.toNat p10.g.toNat p01.g.toNat p11.g.toNat,
   blend w h fx fy p00.b.toNat p10.b.toNat p01.b.toNat p11.b.toNat,
   blend w h fx fy p00.a.toNat p10.a.toNat p01.a.toNat p11.a.toNat⟩

/-- The one value of every pixel of the raster, if there is one (R75, P4). -/
def constantPixel (src : Raster) : Option Pixel :=
  match src.inRange with
  | [] => none
  | p :: rest => if rest.all (· == p) then some p else none

/-- Pixel `(x, y)` that the implementation's filter makes. A filter other than the reference one is free but for
P4: it keeps a constant source. It is a function of the pixels in range, `sw`, `sh`, `w`, `h` (P1, P6) (R74, R75;
log 8). Of a source without a pixel the reference filter makes a free one too (log 23). -/
def filterPixel (f : Filter) (src : Raster) (w h x y : Nat) : Pixel :=
  match f with
  | .reference =>
    if src.width.toNat = 0 ∨ src.height.toNat = 0 then
      Config.noSourcePixel src.width.toNat src.height.toNat w h x y
    else referencePixel src w h x y
  | .other k =>
    match constantPixel src with
    | some p => p
    | none => Config.freeFilter k src.inRange src.width.toNat src.height.toNat w h x y

/-- `RSMP`: the resampled raster `Q`, exactly `w` columns and `h` rows (R73; P2 of R74). -/
def resample (f : Filter) (src : Raster) (w h : Half) : Raster :=
  Raster.tabulate w h fun x y => filterPixel f src w.toNat h.toNat x y

/-- `VAL w` (R71): raises the first error, or changes nothing. -/
def execVal (w : Half) (s : State) : Result :=
  match validationError w s with
  | some k => .next (raise k s)
  | none => .next s

/-- `DIM sw sh w` (R72): hands on the height, or raises `INVALID_INPUT`. -/
def execDim (sw sh w : Half) (s : State) : Result :=
  match heightOf sw sh w s with
  | (h, s') =>
    match checkedHeight s.params.bmpCap w h with
    | some h16 => .next { s' with work := { s'.work with height := some h16 } }
    | none => .next (raise .invalidInput s')

/-- `RSMP` at size `w` by `h` (R73): hands on `Q`, with no byte of the bitmap built yet. -/
def execRsmp (w h : Half) (s : State) : Result :=
  .next { s with work := { s.work with q := some (resample s.params.filter s.src w h), bitmap := [] } }

end Sys2Proof.Machine
end

