-- ==== Sys2Proof/Machine/Pack.lean ====
section
/-! DEFINITION. The 1-bit bitmap packer (spec 42_pack): the stage operation `PACK`, the command `ENC` and the
render contract. -/

namespace Sys2Proof.Machine

/-- A bitmap byte: the leftmost column is the most significant bit (20_memory R42). -/
def layoutInk (b : InkBits) : Byte :=
  BitVec.ofBool b.a ++ BitVec.ofBool b.b ++ BitVec.ofBool b.c ++ BitVec.ofBool b.d
    ++ BitVec.ofBool b.e ++ BitVec.ofBool b.f ++ BitVec.ofBool b.g ++ BitVec.ofBool b.h

/-- The ink bit of pixel `(x, y)` of the raster `q`: `LUMA`, `THR`, `INK` in turn (R90, R94). -/
def inkAt (d : Bool) (q : Raster) (x y : Nat) : Bool :=
  let p := q.pixel x y
  inkDecision (luminance p.r p.g p.b) (thresholdAt d x y)

/-- `PACK`: the byte of columns `8*xb` to `8*xb + 7` of row `y`; column `8*xb + k` is bit `7 - k` (R90). -/
def packByte (d : Bool) (q : Raster) (xb y : Nat) : Byte :=
  layoutInk ⟨inkAt d q (xb * 8) y, inkAt d q (xb * 8 + 1) y, inkAt d q (xb * 8 + 2) y, inkAt d q (xb * 8 + 3) y,
    inkAt d q (xb * 8 + 4) y, inkAt d q (xb * 8 + 5) y, inkAt d q (xb * 8 + 6) y, inkAt d q (xb * 8 + 7) y⟩

/-- The whole bitmap: every byte `(xb, y)`, row by row, at index `y * (w >> 3) + xb` (R91, 20_memory R44). -/
def bitmapBytes (d : Bool) (q : Raster) : List Byte :=
  (List.range q.height.toNat).flatMap fun y =>
    (List.range (q.width.toNat / 8)).map fun xb => packByte d q xb y

/-- The index of the byte that holds column group `xb` of row `y` (20_memory R44). -/
def bitmapIndex (w xb y : Nat) : Nat := y * (w / 8) + xb

/-- The render contract: the bit of pixel `(x, y)` is `BMP[y*(BMP_W >> 3) + (x >> 3)][7 - (x mod 8)]` (R93). -/
def renderBit (s : State) (x y : Nat) : Option Bool :=
  (Memory.read s.bmp (bitmapIndex s.bmpW.toNat (x / 8) y)).map (·.getLsbD (7 - x % 8))

/-- `PACK d xb y` (R90): one byte of `Q` is packed and written to the bitmap under construction. A pixel outside `Q`
is free (log 9). -/
def execPack (d : Bool) (xb y : Half) (s : State) : Result :=
  match s.work.q with
  | none => .fault .stageOutOfOrder
  | some q =>
    let v := packByte d q xb.toNat y.toNat
    let i := bitmapIndex q.width.toNat xb.toNat y.toNat
    .next { s with work := { s.work with packed := some v, bitmap := Memory.write s.work.bitmap i v } }

/-- The body of an accepted `ENC d, w` (40_resample R70). -/
def encodeBitmap (d : Bool) (w : Half) (s : State) : State :=
  match validationError w s with
  | some k => raise k s
  | none =>
    match bitmapHeight s.params.bmpCap s.src.width s.src.height w with
    | none => raise .invalidInput s
    | some h => complete (commitBitmap w h (bitmapBytes d (resample s.params.filter s.src w h)) s)

/-- `ENC d, w` (40_resample R70), one indivisible step. -/
def execEnc (d : Bool) (w : Half) (s : State) : Result :=
  whenAccepted (encodeEnc d w) s (.next (encodeBitmap d w s))

end Sys2Proof.Machine
end

