-- ==== Sys2Proof/Machine/Formats.lean ====
section
/-! DEFINITION. The row `ILLEGAL` (spec 30_encoding R63) and the data formats (30_encoding R66). A format row is
the output of a stage operation (opcode table, `kind`); its meaning lays the datum out on that output (log 11). -/

namespace Sys2Proof.Machine

/-- `ILLEGAL`: a word that matches no command row, when accepted, ends at once with `ERR = 4` and changes nothing
else (30_encoding R63, 60_exceptions R125). -/
def execIllegal (cw : Word) (s : State) : Result :=
  whenAccepted cw s (.next (raise .illegalCommand s))

/-- `FRAME_HEADER` (43_header R101): the eight bytes, on the output of `HDR`. -/
def execFrameHeader (height : Half) (n : Word) (s : State) : Result :=
  .next { s with work := { s.work with header := some (headerBytes height n) } }

/-- The `payloadLength` of a header for `payload`, and the state after it is made: free for a payload whose length does
not fit 32 bits (43_header R101, R105; log 25). -/
def payloadLength (payload : List Byte) (s : State) : Word × State :=
  if payload.length < 4294967296 then (BitVec.ofNat 32 payload.length, s)
  else (Config.freePayloadLength s.draws, drawn s)

/-- `FRAME` (43_header R102): header and payload, on the output of `CAT`. -/
def execFrame (height : Half) (payload : List Byte) (s : State) : Result :=
  match payloadLength payload s with
  | (n, s') => .next { s' with work := { s'.work with frame := some (frameBytes (headerBytes height n) payload) } }

/-- `BITMAP_BYTE` (20_memory R42): the byte of eight ink bits, on the output of `PACK`. -/
def execBitmapByte (bits : InkBits) (s : State) : Result :=
  .next { s with work := { s.work with packed := some (layoutInk bits) } }

/-- `BAYER_M` (41_dither R82): the constant `M[row][col]`. -/
def execBayerM (row col : BitVec 2) (s : State) : Result :=
  .next { s with work := { s.work with bayer := some (bayerElement row col) } }

/-- `TXWRITE` (10_state R33): a request is put on the transport port; at most one is outstanding (20_memory R53;
log 19). The core's own requests have 1 to `CHUNK` bytes. -/
def execTxwrite (mode : WriteMode) (bytes : List Byte) (s : State) : Result :=
  if s.txReq.isSome then .fault .writeOutstanding else .next (txWrite mode bytes s)

end Sys2Proof.Machine
end

