-- ==== Sys2Proof/Machine/Dispatch.lean ====
section
/-! DEFINITION. The dispatch of the operations to their meanings, one arm per row of the opcode table. -/

namespace Sys2Proof.Machine

def exec (i : Instr) (s : State) : Host.Outcome State Fault Refusal :=
  match i with
  | .enc d w => Sys2Proof.Machine.execEnc d w s
  | .pkt => Sys2Proof.Machine.execPkt s
  | .snd c => Sys2Proof.Machine.execSnd c s
  | .val w => Sys2Proof.Machine.execVal w s
  | .dim sw sh w => Sys2Proof.Machine.execDim sw sh w s
  | .rsmp w h => Sys2Proof.Machine.execRsmp w h s
  | .luma r g b => Sys2Proof.Machine.execLuma r g b s
  | .thr d x y => Sys2Proof.Machine.execThr d x y s
  | .ink lum t => Sys2Proof.Machine.execInk lum t s
  | .pack d xb y => Sys2Proof.Machine.execPack d xb y s
  | .hdr height n => Sys2Proof.Machine.execHdr height n s
  | .cat n => Sys2Proof.Machine.execCat n s
  | .msel c => Sys2Proof.Machine.execMsel c s
  | .chk => Sys2Proof.Machine.execChk s
  | .wr => Sys2Proof.Machine.execWr s
  | .illegal cw => Sys2Proof.Machine.execIllegal cw s
  | .frameHeader height n => Sys2Proof.Machine.execFrameHeader height n s
  | .frame height payload => Sys2Proof.Machine.execFrame height payload s
  | .bitmapByte bits => Sys2Proof.Machine.execBitmapByte bits s
  | .bayerM row col => Sys2Proof.Machine.execBayerM row col s
  | .txwrite mode bytes => Sys2Proof.Machine.execTxwrite mode bytes s

end Sys2Proof.Machine
end

