-- ==== Sys2Proof/Machine/Ports.lean ====
section
/-! DEFINITION. What the agents around the core may do at its ports (spec 10_state R30 to R36, 70 R154): host
writes and reads, bitmap and frame reads, reset, a new raster, the capability input and the transport's answer. -/

namespace Sys2Proof.Machine

/-- A read returned `v` to its reader; a read has no other effect (20_memory R50). -/
def answerRead (v : HostData) (s : State) : State := { s with hostData := some v }

/-- A read whose value is unspecified returns a fresh free value (93 U8, U9; log 3). -/
def answerFreeRead (n : Nat) (s : State) : State :=
  { s with hostData := some (.word (Config.freeRegister s.draws n)), draws := s.draws + 1 }

/-- The host writes a register: register 0 takes a command word, behind those already held; a write to any other
number is ignored (10_state R26, R31). DESIGN CHOICE (log 21): the write and its acceptance are two steps even when
the core is idle and holds nothing; the word is put in `held` here, and a later step of the core accepts it, so that
moves of other agents (a read of `STATUS`, a new raster, a change of `CAP_WNR`) can come between. -/
def hostWriteMove (n : Nat) (v : Word) (s : State) : Result :=
  if n = 0 then .next { s with held := s.held ++ [v] } else .next s

/-- The host reads a register, at any time (10_state R26, R31). -/
def hostReadMove (n : Nat) (s : State) : Result :=
  if n = 0 then .refused .commandRegisterIsWriteOnly
  else
    match registerValue n s with
    | some v => .next (answerRead (.word v) s)
    | none => .next (answerFreeRead n s)

/-- The bitmap read port gives `BMP_W` and `BMP_H` while `BMP_VALID = 1` (10_state R35). DESIGN CHOICE (log 26): both in
one read, laid out as `BMP_DIM`; the spec does not say whether the port reads them together or one by one. -/
def readBitmapSizeMove (s : State) : Result :=
  if s.bmpValid then .next (answerRead (.word (bmpDimWord s)) s) else .refused .bitmapReadRefused

/-- The bitmap read port gives `BMP[i]` for `i < BMP_LEN` while `BMP_VALID = 1` (10_state R35). -/
def readBitmapMove (i : Nat) (s : State) : Result :=
  if s.bmpValid ∧ i < (bmpLen s).toNat then
    match fetchByte s.bmp i s with
    | (b, s') => .next (answerRead (.byte b) s')
  else .refused .bitmapReadRefused

/-- The frame read port gives `FRM_LEN` while `FRM_VALID = 1` (10_state R36). -/
def readFrameLengthMove (s : State) : Result :=
  if s.frmValid then .next (answerRead (.word s.frmLen) s) else .refused .frameReadRefused

/-- The frame read port gives `FRM[o]` for `o < FRM_LEN` while `FRM_VALID = 1` (10_state R36). -/
def readFrameMove (o : Nat) (s : State) : Result :=
  if s.frmValid ∧ o < s.frmLen.toNat then
    match fetchByte s.frm o s with
    | (b, s') => .next (answerRead (.byte b) s')
  else .refused .frameReadRefused

/-- Reset: every piece of the core's state takes its reset value, at once and whatever the core was doing
(70 R140, R141). The inputs, the host's held writes, the coming moves, what the host has read, the count of free
values and the parameters are not the core's and stay (log 5, log 15). -/
def resetCore (s : State) : State :=
  { State.reset with
    srcOk := s.srcOk, src := s.src, capWnr := s.capWnr, held := s.held, agenda := s.agenda,
    hostData := s.hostData, draws := s.draws, params := s.params }

/-- The rasterizer presents a raster (10_state R32). -/
def presentMove (ok : Bool) (raster : Raster) (s : State) : State := { s with srcOk := ok, src := raster }

/-- The transport drives the capability input (10_state R34). -/
def capabilityMove (wnr : Bool) (s : State) : State := { s with capWnr := wnr }

/-- A write is outstanding (10_state R28). -/
def writeOutstanding (s : State) : Bool := s.seq == .sndWait && s.txReq.isSome

end Sys2Proof.Machine
end

