-- ==== Sys2Proof/Machine/Sequencer.lean ====
section
/-! DEFINITION. What one step does (spec 10_state R39, 70 R154): the core's own step, which accepts a held command
or advances a transmission, and the moves of the other agents. -/

namespace Sys2Proof.Machine

/-- The core's next step (10_state R39): in `IDLE` the oldest held command word is accepted and runs; in
`SND_ISSUE` and `SND_WAIT` the stage `WR` runs. An idle core with no command held does nothing (log 6). -/
def coreStep (s : State) : Result :=
  match s.seq with
  | .idle =>
    match s.held with
    | [] => .next s
    | cw :: rest => exec (decode cw) { s with held := rest }
  | .sndIssue => exec .wr s
  | .sndWait => exec .wr s

/-- The transport answers the outstanding write, and `WR` takes the answer in the same step (44_chunk R116, R117);
with no write outstanding the transport has no such move (93 U7; log 14). -/
def answerMove (a : TxAnswer) (s : State) : Result :=
  if writeOutstanding s then exec .wr { s with txAnswer := some a } else .refused .answerWithoutWrite

/-- One move of one agent (70 R154). -/
def moveStep (m : Move) (s : State) : Result :=
  match m with
  | .core => coreStep s
  | .hostWrite n v => hostWriteMove n v s
  | .hostRead n => hostReadMove n s
  | .readBitmapSize => readBitmapSizeMove s
  | .readBitmap i => readBitmapMove i s
  | .readFrameLength => readFrameLengthMove s
  | .readFrame o => readFrameMove o s
  | .reset => .next (resetCore s)
  | .present ok raster => .next (presentMove ok raster s)
  | .capability wnr => .next (capabilityMove wnr s)
  | .respond a => answerMove a s

/-- The next step: the first move of the agenda, or the core's own step when no other agent has a move to make
(log 4). -/
def stepAgenda (s : State) : Result :=
  match s.agenda with
  | [] => coreStep s
  | m :: rest => moveStep m { s with agenda := rest }

/-- The state in which the command word of the low `nbits` bits of `w` is the oldest one held and the core is next
to move, idle and with no write outstanding, so that it accepts that word (log 16). -/
def placeCommand (s : State) (nbits w : Nat) : State :=
  { s with
    seq := .idle
    txReq := none
    held := tableWord nbits w :: s.held
    agenda := if s.agenda.isEmpty then [] else .core :: s.agenda }

/-- Run the operations of a list in order, stopping at the first that does not answer a next state: the stage
operations of a command in the order of 30_encoding R62. -/
def execAll : List Instr → State → Result
  | [], s => .next s
  | i :: rest, s =>
    match exec i s with
    | .next s' => execAll rest s'
    | .fault r => .fault r
    | .refused r => .refused r

end Sys2Proof.Machine
end

