-- ==== Sys2Proof/Machine/Step.lean ====
section
/-! DEFINITION. The step of the machine and the placement of a command where the step fetches it. -/

namespace Sys2Proof.Machine

/-- One step (spec 10_state R39, 70 R154). -/
def step : State → Host.Outcome State Fault Refusal := stepAgenda

/-- The state whose very next step accepts and runs the command word of the low `nbits` bits of `w`: a host write
of register 0 that stands at the command port (10_state R31; log 16). -/
def State.withFetchWord (s : State) (nbits w : Nat) : State := placeCommand s nbits w

end Sys2Proof.Machine
end

