-- ==== Sys2Proof/Safety.lean ====
section
/-! DEFINITION. What the claims speak of: the states a run of the core stays in (`Inv`), the end of a run, and the
beats of one transmission. -/

namespace Sys2Proof.Machine

/-- What `BMP`, `BMP_W`, `BMP_H` hold while `BMP_VALID = 1` (spec 10_state R23, 42_pack R91): a width that is a
positive multiple of 8, a height of at least 1, exactly `(BMP_W >> 3) * BMP_H` bytes, no more than `BMP_CAP`. -/
structure BitmapOk (s : State) : Prop where
  width : 8 ≤ s.bmpW.toNat ∧ s.bmpW.toNat % 8 = 0
  height : 1 ≤ s.bmpH.toNat
  fits : bitmapSize s.bmpW.toNat s.bmpH.toNat ≤ s.params.bmpCap
  bytes : ∃ bs : List Byte, bs.length = bitmapSize s.bmpW.toNat s.bmpH.toNat ∧ s.bmp = Memory.ofBytes bs

/-- What `FRM`, `FRM_LEN` hold while `FRM_VALID = 1` (43_header R105): a header and a payload of the length the
header states, `FRM_LEN = 8 + n`. -/
def FrameOk (s : State) : Prop :=
  ∃ (height : Half) (payload : List Byte),
    1 ≤ payload.length ∧ payload.length ≤ s.params.bmpCap ∧ s.frmLen.toNat = 8 + payload.length ∧
    s.frm = Memory.ofBytes (frameBytes (headerBytes height (BitVec.ofNat 32 payload.length)) payload)

/-- What holds while an `SND` is in progress (44_chunk R119 (d), R114): a frame, and an offset below its length
that is a multiple of the chunk size. -/
structure SendingOk (s : State) : Prop where
  frame : s.frmValid = true
  offset : s.txOff.toNat < s.frmLen.toNat
  aligned : s.chunk.toNat ∣ s.txOff.toNat

/-- No beat of the record is pending (10_state R37). -/
def Settled (log : List Beat) : Prop := ∀ b ∈ log, b.response ≠ .pending

/-- What holds while a write is outstanding (10_state R28, R37; 44_chunk R114, R115): `TXREQ` is the chunk at
`TX_OFF` in the latched mode, and it is the last beat of the record, the only one pending. -/
def WaitingOk (s : State) : Prop :=
  ∃ (bytes : List Byte) (log : List Beat),
    Memory.readRange s.frm s.txOff.toNat (min s.chunk.toNat (s.frmLen.toNat - s.txOff.toNat)) = some bytes ∧
    s.txReq = some ⟨s.txMode, bytes⟩ ∧ s.txLog = log ++ [⟨s.txMode, bytes, .pending⟩] ∧ Settled log

/-- The states a run stays in: an invariant of every step. -/
structure Inv (s : State) : Prop where
  /-- `1 ≤ BMP_CAP ≤ 536 797 185` (92_eei_decisions, open parameters). -/
  cap : 1 ≤ s.params.bmpCap ∧ s.params.bmpCap ≤ Config.bmpCapMax
  /-- The buffers keep their canonical form (log 1). -/
  bmpWf : Memory.wf s.bmp = true
  frmWf : Memory.wf s.frm = true
  /-- 10_state R22: `BMP_VALID = 1` when the bitmap registers hold an EncodedBitmap. -/
  bitmap : s.bmpValid = true → BitmapOk s
  /-- 10_state R22: `FRM_VALID = 1` when `FRM`, `FRM_LEN` hold a frame. -/
  frame : s.frmValid = true → FrameOk s
  /-- 10_state R25: `CHUNK` is 1 to 65535. -/
  chunk : 1 ≤ s.chunk.toNat
  sending : s.seq ≠ .idle → SendingOk s
  waiting : s.seq = .sndWait → WaitingOk s
  /-- 10_state R28: `TXREQ` is non-empty exactly when `SEQ = SND_WAIT`. -/
  quiet : s.seq ≠ .sndWait → s.txReq = none ∧ Settled s.txLog
  /-- 10_state R27: `Q` and the other values inside a command are never observable between steps (log 10). -/
  work : s.work = Work.empty
  /-- An answer is taken in the step in which it is given (log 14). -/
  answer : s.txAnswer = none

/-- The conditions under which an `ENC` of width `w` passes `VAL` and `DIM` when it is accepted (40_resample R71,
R72). -/
structure EncLegal (w : Half) (s : State) : Prop where
  idle : s.seq = .idle
  source : s.srcOk = true
  positive : w.toNat ≠ 0
  multiple : w.toNat % 8 = 0
  srcW : s.src.width.toNat ≠ 0
  srcH : s.src.height.toNat ≠ 0
  height : roundedHeight s.src.width.toNat s.src.height.toNat w.toNat ≤ 65535
  fits : bitmapSize w.toNat (roundedHeight s.src.width.toNat s.src.height.toNat w.toNat) ≤ s.params.bmpCap

/-- The height that `DIM` gives a legal `ENC` of width `w` (40_resample R72). -/
def encHeight (w : Half) (s : State) : Half :=
  BitVec.ofNat 16 (roundedHeight s.src.width.toNat s.src.height.toNat w.toNat)

/-- The resampled raster of an `ENC` of width `w` (40_resample R73). -/
def encRaster (w : Half) (s : State) : Raster := resample s.params.filter s.src w (encHeight w s)

/-- The stage operations of `ENC d, w` after `VAL` and `DIM` have given the height, in the order of 30_encoding
R62: the pixel stages are inside `PACK`. -/
def encStages (d : Bool) (w h : Half) : List Instr :=
  .rsmp w h ::
    (List.range h.toNat).flatMap fun y =>
      (List.range (w.toNat / 8)).map fun xb => .pack d (BitVec.ofNat 16 xb) (BitVec.ofNat 16 y)

/-- BONT's luminance over the rationals, `0.299 R + 0.587 G + 0.114 B` (41_dither R80, 00_scope R11). -/
def grayOf (p : Pixel) : ℚ :=
  299 / 1000 * (p.r.toNat : ℚ) + 587 / 1000 * (p.g.toNat : ℚ) + 114 / 1000 * (p.b.toNat : ℚ)

/-- BONT's threshold over the rationals: 128, or `(M[y mod 4][x mod 4] + 0.5) / 16 * 255` (41_dither R81). -/
def thresholdOf (d : Bool) (x y : Nat) : ℚ :=
  if d then (((bayerElement (BitVec.ofNat 2 (y % 4)) (BitVec.ofNat 2 (x % 4))).toNat : ℚ) + 1 / 2) / 16 * 255 else 128

/-- The source coordinate of output index `i` on an axis of `n` source and `out` output samples over the rationals,
`(i + 1/2) * n / out - 1/2`, pixel centres aligned, clamped to the edges 0 and `n - 1` (40_resample R76). -/
def sampleCoordinate (n out i : Nat) : ℚ :=
  max 0 (min (((i : ℚ) + 1 / 2) * n / out - 1 / 2) ((n : ℚ) - 1))

/-- The bilinear interpolation of one channel of a source at a coordinate `(u, v)` over the rationals: the four samples
around it, weighted by the distances on each axis, the farther sample clamped to the edge (40_resample R76). -/
def bilinear (src : Raster) (channel : Pixel → Byte) (u v : ℚ) : ℚ :=
  let sample (x y : Nat) : ℚ := ((channel (src.pixel x y)).toNat : ℚ)
  let x0 := ⌊u⌋₊
  let y0 := ⌊v⌋₊
  let x1 := min (x0 + 1) (src.width.toNat - 1)
  let y1 := min (y0 + 1) (src.height.toNat - 1)
  let fx := u - x0
  let fy := v - y0
  (1 - fx) * (1 - fy) * sample x0 y0 + fx * (1 - fy) * sample x1 y0
    + (1 - fx) * fy * sample x0 y1 + fx * fy * sample x1 y1

/-- The four channels of a pixel (10_state R32). -/
def channels : List (Pixel → Byte) := [Pixel.r, Pixel.g, Pixel.b, Pixel.a]

/-- The end of a run (70 R153): the host has issued all its commands (no write of register 0 is to come), none is held
at the command port, `SEQ = IDLE`, `TXREQ` empty. Other moves, such as reads, may still come. -/
def runEnded (s : State) : Prop :=
  (∀ m ∈ s.agenda, ∀ v, m ≠ .hostWrite 0 v) ∧ s.held = [] ∧ s.seq = .idle ∧ s.txReq = none

/-- The number of chunks of at most `c` bytes that cover `len` bytes, `ceil(len / c)` (44_chunk R119 (a)). -/
def chunkCount (len c : Nat) : Nat := (len + c - 1) / c

/-- Chunk number `k` of the byte sequence `bytes`, `bytes[k*c : min((k+1)*c, len)]` (44_chunk R119 (b)). -/
def chunkBytes (bytes : List Byte) (c k : Nat) : List Byte := (bytes.drop (k * c)).take c

/-- The first `j` beats of a transmission of `bytes` in chunks of `c`, each answered `TX_OK` (44_chunk R119). -/
def okBeats (mode : WriteMode) (bytes : List Byte) (c j : Nat) : List Beat :=
  (List.range j).map fun k => ⟨mode, chunkBytes bytes c k, .answered .ok⟩

/-- Moves that the other agents may make while a transmission runs and that are not refused: host writes of any
register, reads of registers, reads of the valid buffers within their length, a new raster, a change of the capability
input (70 R154). Not among them: a reset, and an answer of the transport. -/
def Quiet (s : State) : Move → Prop
  | .core => False
  | .hostWrite _ _ => True
  | .hostRead n => n ≠ 0
  | .readBitmapSize => s.bmpValid = true
  | .readBitmap i => s.bmpValid = true ∧ i < bitmapSize s.bmpW.toNat s.bmpH.toNat
  | .readFrameLength => s.frmValid = true
  | .readFrame o => s.frmValid = true ∧ o < s.frmLen.toNat
  | .reset => False
  | .present _ _ => True
  | .capability _ => True
  | .respond _ => False

/-- One write and its answer, with other moves before the core issues it (`before`) and while it is outstanding
(`during`). -/
structure Round where
  before : List Move
  during : List Move
  deriving DecidableEq, Repr

/-- The moves of a round: `before`, the core's issue step, `during`, the transport's answer. -/
def Round.moves (r : Round) (a : TxAnswer) : List Move := r.before ++ .core :: (r.during ++ [.respond a])

/-- The other moves of a round are quiet; while the write is outstanding the core, which then has no step, may be
given the move as well. -/
def Round.Ok (s : State) (r : Round) : Prop :=
  (∀ m ∈ r.before, Quiet s m) ∧ (∀ m ∈ r.during, Quiet s m ∨ m = .core)

/-- The schedule in which each round's write is answered `TX_OK`. -/
def okMoves (rounds : List Round) : List Move := rounds.flatMap fun r => r.moves .ok

/-- The command words that the host writes in a list of moves, in their order (10_state R31). -/
def commandWrites (ms : List Move) : List Word :=
  ms.filterMap fun m =>
    match m with
    | .hostWrite 0 v => some v
    | _ => none

end Sys2Proof.Machine
end

