-- ==== Sys2Proof/WellFormed.lean ====
section
/-! DEFINITION. Which terms of `Instr` the spec gives a place: the operand ranges its rules state and the
opcode table's own exclusion (an `ILLEGAL` word matches no command row). A meaning runs on every operand, within
these ranges or not; where a rule then states no result, the one value it does not state is free (log 22 to 25). -/

namespace Sys2Proof

/-- An operation whose operands are in the ranges of its rule. The operands of the commands are unrestricted:
`w` and `c` of any 16 bits are encodable and checked by the operation (30_encoding R61). -/
def Instr.wellFormed : Instr → Bool
  | .enc _ _ => true
  | .pkt => true
  | .snd _ => true
  -- R63: the row `ILLEGAL` stands for the words that match no command row
  | .illegal cw => !isCommandWord cw
  | .val _ => true
  -- R72: `sw ≥ 1`, `sh ≥ 1`, `w ≥ 8`, guaranteed by `VAL`
  | .dim sw sh w => decide (1 ≤ sw.toNat ∧ 1 ≤ sh.toNat ∧ 8 ≤ w.toNat)
  -- R73: a raster of at least one row and a legal width
  | .rsmp w h => decide (8 ≤ w.toNat ∧ w.toNat % 8 = 0 ∧ 1 ≤ h.toNat)
  | .luma _ _ _ => true
  | .thr _ _ _ => true
  -- R80: `S` is from 0 to 255 000
  | .ink s _ => decide (s.toNat ≤ 255000)
  -- R90: `xb < w >> 3` for a 16-bit `w`
  | .pack _ xb _ => decide (xb.toNat < 8192)
  | .hdr _ _ => true
  -- R105: `1 ≤ n ≤ 536 797 185`
  | .cat n => decide (1 ≤ n.toNat ∧ n.toNat ≤ 536797185)
  -- R111: `c = 0` is refused before `MSEL`
  | .msel c => decide (1 ≤ c.toNat)
  | .chk => true
  | .wr => true
  | .frameHeader _ _ => true
  -- R105: the payload length is from 1 to 536 797 185
  | .frame _ payload => decide (1 ≤ payload.length ∧ payload.length ≤ 536797185)
  | .bitmapByte _ => true
  | .bayerM _ _ => true
  -- R33: 1 to `CHUNK` bytes, and `CHUNK` is at most 65535
  | .txwrite _ bytes => decide (1 ≤ bytes.length ∧ bytes.length ≤ 65535)

end Sys2Proof
end

