-- ==== Sys2Proof/Certificates/Slice0/Obligations.lean ====
section
/-! DEFINITION. The statements of this model, each a proposition that a proof settles. Rules R<n> are those of
spec/; a clause that rests on a choice of the model names the log entry. -/

open Sys2Proof Sys2Proof.Machine

/-! ## Encoding and acceptance -/

/-- The example words of 30_encoding section 6 and vectors of 95 V3 decode as written there. -/
def Obligations.ExampleWordsDecode : Prop :=
  decode 0x01000180#32 = .enc false 384#16 ∧ decode 0x01010180#32 = Instr.encDefault true ∧
  decode 0x01000008#32 = .enc false 8#16 ∧ decode 0x0101FFF8#32 = .enc true 65528#16 ∧
  decode 0x02000000#32 = .pkt ∧ decode 0x03000014#32 = Instr.sndDefault ∧ decode 0x03000003#32 = .snd 3#16 ∧
  decode 0x01020008#32 = .illegal 0x01020008#32 ∧ decode 0x02000001#32 = .illegal 0x02000001#32 ∧
  decode 0x03010014#32 = .illegal 0x03010014#32 ∧ decode 0x00000000#32 = .illegal 0x00000000#32 ∧
  decode 0xFFFFFFFF#32 = .illegal 0xFFFFFFFF#32

/-- A well-formed operation that has a command word is what its word decodes to: no operand bit is dropped
(30_encoding R60, R61). -/
def Obligations.EncodedInstructionDecodesToItself : Prop :=
  ∀ i : Instr, i.wellFormed = true → ∀ cw, encode i = some cw → decode cw = i

/-- Every 32-bit word decodes to a well-formed operation whose encoding is that word: each word has one meaning. -/
def Obligations.DecodedWordEncodesToItself : Prop :=
  ∀ cw : Word, (decode cw).wellFormed = true ∧ encode (decode cw) = some cw

/-- R63: illegal are exactly the words with another `OP`, or with the right `OP` and a must-be-zero bit set; such a
word, when accepted, ends with `ERR = 4` and changes nothing else. -/
def Obligations.IllegalWords : Prop :=
  ∀ cw : Word,
    (decode cw = .illegal cw ↔
      (cw.extractLsb' 24 8 = 0x01#8 → cw.extractLsb' 17 7 ≠ 0#7) ∧
      (cw.extractLsb' 24 8 = 0x02#8 → cw.extractLsb' 0 24 ≠ 0#24) ∧
      (cw.extractLsb' 24 8 = 0x03#8 → cw.extractLsb' 16 8 ≠ 0#8)) ∧
    (∀ s : State, s.seq = .idle → s.txReq = none →
      exec (.illegal cw) s = .next { s with err := .illegalCommand })

/-- When the core is next to move, idle, and a command word is held, the step is the decoded instruction's meaning
at the state without that word (and, where the agenda said that the core moves, without that move). The agenda is
the model's (log 4). -/
def Obligations.StepRunsDecodedCommand : Prop :=
  ∀ (s : State) (cw : Word) (rest : List Word), s.seq = .idle → s.held = cw :: rest →
    (s.agenda = [] → step s = exec (decode cw) { s with held := rest }) ∧
    (∀ more, s.agenda = .core :: more →
      step s = exec (decode cw) { s with held := rest, agenda := more })

/-- R31: a write to register 0 puts its word behind those already held, at any time; while `SEQ` is not `IDLE` no
command is accepted: a step takes none of the held words, and the meaning of a command is then that its word stays
held, before the later ones. A write to another register changes nothing (10_state R26). The list of held words,
that a reset keeps it, and that a write and its acceptance are two steps are the model's (log 5, log 12, log 21). -/
def Obligations.CommandsAreHeldWhileBusy : Prop :=
  ∀ s : State,
    (∀ v rest, s.agenda = .hostWrite 0 v :: rest → step s = .next { s with held := s.held ++ [v], agenda := rest }) ∧
    (∀ n v rest, n ≠ 0 → s.agenda = .hostWrite n v :: rest → step s = .next { s with agenda := rest }) ∧
    (s.seq ≠ .idle → ∀ t, step s = .next t → ∃ more, t.held = s.held ++ more) ∧
    (s.seq ≠ .idle → ∀ i cw, i.wellFormed = true → encode i = some cw →
      exec i s = .next { s with held := cw :: s.held })

/-! ## ENC -/

/-- A legal `ENC d, w` writes `BMP`, `BMP_W`, `BMP_H`, `BMP_VALID` and `ERR` at once and nothing else (R70, R92). -/
def Obligations.EncCommitsTheBitmap : Prop :=
  ∀ (d : Bool) (w : Half) (s : State), EncLegal w s →
    exec (.enc d w) s = .next { s with
      bmp := Memory.ofBytes (bitmapBytes d (encRaster w s)), bmpW := w, bmpH := encHeight w s,
      bmpValid := true, err := .ok }

/-- R71, R124: the checks of an `ENC` in their order; the first that fails is the error, and `ERR` is all that
changes (R126). -/
def Obligations.EncErrorsInOrder : Prop :=
  ∀ (d : Bool) (w : Half) (s : State), s.seq = .idle → s.txReq = none →
    (s.srcOk = false → exec (.enc d w) s = .next { s with err := .decodeFailure }) ∧
    (s.srcOk = true →
      (w.toNat = 0 ∨ w.toNat % 8 ≠ 0 ∨ s.src.width.toNat = 0 ∨ s.src.height.toNat = 0) →
      exec (.enc d w) s = .next { s with err := .invalidInput }) ∧
    (s.srcOk = true → w.toNat ≠ 0 → w.toNat % 8 = 0 → s.src.width.toNat ≠ 0 → s.src.height.toNat ≠ 0 →
      (65535 < roundedHeight s.src.width.toNat s.src.height.toNat w.toNat ∨
        s.params.bmpCap < bitmapSize w.toNat (roundedHeight s.src.width.toNat s.src.height.toNat w.toNat)) →
      exec (.enc d w) s = .next { s with err := .invalidInput })

/-- The headline of the encoder: after a legal `ENC d, w`, for every pixel of the bitmap the render contract (R93)
reads a bit, and it is 1 exactly when the rational luminance of the resampled pixel is strictly below the rational
threshold of its position (R80, R81, R83, R90, over the rationals by R11), whatever pixel
the filter makes. -/
def Obligations.RenderedBitIsLuminanceBelowThreshold : Prop :=
  ∀ (d : Bool) (w : Half) (s : State), EncLegal w s →
    ∃ t, exec (.enc d w) s = .next t ∧ t.bmpW = w ∧ t.bmpH = encHeight w s ∧
      ∀ x y, x < w.toNat → y < (encHeight w s).toNat →
        ∃ bit, renderBit t x y = some bit ∧
          (bit = true ↔ grayOf ((encRaster w s).pixel x y) < thresholdOf d x y)

/-- R91: after a legal `ENC` the bitmap has exactly the bytes of indices 0 to `(w >> 3)*h - 1`; their count is at
least 1 and at most `8191 * 65535`, and at most `BMP_CAP`. That a byte outside them has no value is the model's
(log 1). -/
def Obligations.BitmapIsExactlyCovered : Prop :=
  ∀ (d : Bool) (w : Half) (s : State), EncLegal w s →
    ∃ t, exec (.enc d w) s = .next t ∧
      (∀ i, (Memory.read t.bmp i).isSome = true ↔ i < w.toNat / 8 * (encHeight w s).toNat) ∧
      1 ≤ w.toNat / 8 * (encHeight w s).toNat ∧
      w.toNat / 8 * (encHeight w s).toNat ≤ 8191 * 65535 ∧
      w.toNat / 8 * (encHeight w s).toNat ≤ s.params.bmpCap ∧
      (bmpLen t).toNat = w.toNat / 8 * (encHeight w s).toNat

/-- `ENC` twice with the same operands and inputs leaves what it left the first time, whichever way it ends (R70). -/
def Obligations.EncIsRepeatable : Prop :=
  ∀ (d : Bool) (w : Half) (s t : State), s.seq = .idle →
    exec (.enc d w) s = .next t → exec (.enc d w) t = .next t

/-- Frame of `ENC`: whichever way it ends, it writes only `BMP`, `BMP_W`, `BMP_H`, `BMP_VALID` and `ERR`, and an
`ENC` that does not end `OK` writes `ERR` alone; every byte of `FRM` reads as before, and after an error every byte
of `BMP` too (R70, R126, 70 R148). -/
def Obligations.EncFrame : Prop :=
  ∀ (d : Bool) (w : Half) (s t : State), s.seq = .idle → s.txReq = none → exec (.enc d w) s = .next t →
    t = { s with bmp := t.bmp, bmpW := t.bmpW, bmpH := t.bmpH, bmpValid := t.bmpValid, err := t.err } ∧
    (∀ a, Memory.read t.frm a = Memory.read s.frm a) ∧
    (t.err ≠ .ok → t = { s with err := t.err } ∧ ∀ a, Memory.read t.bmp a = Memory.read s.bmp a)

/-- The refinement of `ENC` by its stages: the checks of `VAL` and the height of `DIM` first; then running `RSMP`
and one `PACK` per byte in the order of R62 builds, in the work area, the very bitmap that `ENC` commits at once,
and touches nothing else. The hand-on field `work` is the model's (log 10). -/
def Obligations.EncIsItsStagesInOrder : Prop :=
  ∀ (d : Bool) (w : Half) (s : State), EncLegal w s →
    exec (.val w) s = .next s ∧
    exec (.dim s.src.width s.src.height w) s =
      .next { s with work := { s.work with height := some (encHeight w s) } } ∧
    ∃ t, execAll (encStages d w (encHeight w s)) s = .next t ∧
      t = { s with work := t.work } ∧ t.work.q = some (encRaster w s) ∧
      exec (.enc d w) s = .next { s with
        bmp := t.work.bitmap, bmpW := w, bmpH := encHeight w s, bmpValid := true, err := .ok }

/-! ## The stages of ENC -/

/-- `VAL`: a state with nothing to refuse passes unchanged; else the first failing check raises. The checks and their
order are R71's; that `VAL` runs on its own, outside an accepted `ENC` and in every state of `SEQ` (so that a failing one
in `SND_WAIT` ends the `SND`), is the model's choice (log 10). -/
def Obligations.ValChecksInputs : Prop :=
  ∀ (w : Half) (s : State),
    (s.srcOk = true → w.toNat ≠ 0 → w.toNat % 8 = 0 → s.src.width.toNat ≠ 0 → s.src.height.toNat ≠ 0 →
      exec (.val w) s = .next s) ∧
    (s.srcOk = false → exec (.val w) s = .next (raise .decodeFailure s)) ∧
    (s.srcOk = true →
      (w.toNat = 0 ∨ w.toNat % 8 ≠ 0 ∨ s.src.width.toNat = 0 ∨ s.src.height.toNat = 0) →
      exec (.val w) s = .next (raise .invalidInput s))

/-- R72: the height is `max(1, round(sh * w / sw))`, rounded half up over the exact rationals; `DIM` hands it on
when it fits 16 bits and the bitmap fits `BMP_CAP`, else it raises `INVALID_INPUT`. For `sw = 0` or `w < 8`, where the
rule states no quotient, it does the same with some height of at least 1 (free value, log 22). That `DIM` runs on its
own, outside an accepted `ENC` and in every state of `SEQ`, and the hand-on field `work` are the model's (log 10). -/
def Obligations.HeightIsTheRoundedQuotient : Prop :=
  (∀ (sw sh w : Half) (s : State), 1 ≤ sw.toNat → 8 ≤ w.toNat →
    ∀ h : Nat, h = max 1 ⌊((sh.toNat : ℚ) * w.toNat / sw.toNat + 1 / 2)⌋₊ →
      (h ≤ 65535 → w.toNat / 8 * h ≤ s.params.bmpCap →
        exec (.dim sw sh w) s = .next { s with work := { s.work with height := some (BitVec.ofNat 16 h) } }) ∧
      (65535 < h ∨ s.params.bmpCap < w.toNat / 8 * h →
        exec (.dim sw sh w) s = .next (raise .invalidInput s))) ∧
  (∀ (sw sh w : Half) (s : State), sw.toNat = 0 ∨ w.toNat < 8 →
    ∃ h : Nat, 1 ≤ h ∧
      (h ≤ 65535 → w.toNat / 8 * h ≤ s.params.bmpCap →
        exec (.dim sw sh w) s = .next { s with
          draws := s.draws + 1, work := { s.work with height := some (BitVec.ofNat 16 h) } }) ∧
      (65535 < h ∨ s.params.bmpCap < w.toNat / 8 * h →
        exec (.dim sw sh w) s = .next (raise .invalidInput { s with draws := s.draws + 1 })))

/-- `RSMP` hands on a raster of exactly `w` columns and `h` rows (P2 of R74), for every `w` and `h` and every source,
and has no other effect than to start an empty bitmap (R73). The hand-on field `work` is the model's (log 10); of a
source without a pixel the pixels made are free (log 23). -/
def Obligations.RsmpMakesARasterOfTheSize : Prop :=
  ∀ (w h : Half) (s : State),
    ∃ q, exec (.rsmp w h) s = .next { s with work := { s.work with q := some q, bitmap := [] } } ∧
      q.width = w ∧ q.height = h ∧ q.pixels.length = h.toNat * w.toNat ∧
      ∀ x y, x < w.toNat → y < h.toNat → q.pixel x y = filterPixel s.params.filter s.src w.toNat h.toNat x y

/-- P4 of R75: a source of one colour gives a raster of that colour, with every filter. The free filters and how
they keep these properties are the model's (log 8). -/
def Obligations.ResamplingKeepsConstants : Prop :=
  ∀ (f : Filter) (src : Raster) (w h : Half) (p : Pixel),
    1 ≤ src.width.toNat → 1 ≤ src.height.toNat →
    (∀ x y, x < src.width.toNat → y < src.height.toNat → src.pixel x y = p) →
    ∀ x y, x < w.toNat → y < h.toNat → (resample f src w h).pixel x y = p

/-- P1 and P6 of R74, R75: with every filter the raster is a function of the source's size and of its pixels in
range. The free filters and how they keep these properties are the model's (log 8). -/
def Obligations.ResamplingReadsPixelsInRangeOnly : Prop :=
  ∀ (f : Filter) (a b : Raster) (w h : Half), a.width = b.width → a.height = b.height →
    1 ≤ a.width.toNat → 1 ≤ a.height.toNat →
    (∀ x y, x < a.width.toNat → y < a.height.toNat → a.pixel x y = b.pixel x y) →
    resample f a w h = resample f b w h

/-- R76: with `RESAMPLE_REF` each channel of the raster that `RSMP` makes of a source with pixels is the bilinear
interpolation of that channel over the rationals, pixel centres aligned and edges clamped, rounded half up; and at equal
size the filter is the identity. The hand-on field `work` is the model's (log 10). -/
def Obligations.ReferenceFilterIsBilinear : Prop :=
  (∀ (w h : Half) (s : State), s.params.filter = .reference → 1 ≤ s.src.width.toNat → 1 ≤ s.src.height.toNat →
    ∃ q, exec (.rsmp w h) s = .next { s with work := { s.work with q := some q, bitmap := [] } } ∧
      ∀ x y, x < w.toNat → y < h.toNat → ∀ channel ∈ channels,
        (channel (q.pixel x y)).toNat =
          ⌊bilinear s.src channel (sampleCoordinate s.src.width.toNat w.toNat x)
            (sampleCoordinate s.src.height.toNat h.toNat y) + 1 / 2⌋₊) ∧
  (∀ (src : Raster) (x y : Nat), x < src.width.toNat → y < src.height.toNat →
    (resample .reference src src.width src.height).pixel x y = src.pixel x y)

/-- Alpha decides nothing with `RESAMPLE_REF`: sources that differ only in `A` give the same bitmap
(R80; 93 U10). -/
def Obligations.AlphaDecidesNoBit : Prop :=
  ∀ (d : Bool) (a b : Raster) (w h : Half), a.width = b.width → a.height = b.height →
    1 ≤ a.width.toNat → 1 ≤ a.height.toNat →
    (∀ x y, x < a.width.toNat → y < a.height.toNat →
      (a.pixel x y).r = (b.pixel x y).r ∧ (a.pixel x y).g = (b.pixel x y).g ∧ (a.pixel x y).b = (b.pixel x y).b) →
    bitmapBytes d (resample .reference a w h) = bitmapBytes d (resample .reference b w h)

/-- R80: `LUMA` hands on `S = 299*R + 587*G + 114*B`, which is `1000 * gray` and at most 255 000. The hand-on field
`work` is the model's (log 10). -/
def Obligations.LumaIsTheWeightedSum : Prop :=
  ∀ (p : Pixel) (s : State), ∃ lum : BitVec 18,
    exec (.luma p.r p.g p.b) s = .next { s with work := { s.work with luma := some lum } } ∧
    lum.toNat = 299 * p.r.toNat + 587 * p.g.toNat + 114 * p.b.toNat ∧
    (lum.toNat : ℚ) = 1000 * grayOf p ∧ lum.toNat ≤ 255000

/-- R81, R83, R84: `THR` hands on the threshold of the position, and `INK` on every `S` decides strictly below it over
the rationals; ties are not ink. The hand-on field `work` is the model's (log 10). -/
def Obligations.InkIsStrictlyBelowThreshold : Prop :=
  ∀ (d : Bool) (x y : Half) (lum : BitVec 18) (s : State),
    ∃ t bit, exec (.thr d x y) s = .next { s with work := { s.work with threshold := some t } } ∧
      exec (.ink lum t) s = .next { s with work := { s.work with ink := some bit } } ∧
      ((thresholdTimes32 t : ℚ) / 32 = thresholdOf d x.toNat y.toNat) ∧
      (bit = true ↔ (lum.toNat : ℚ) / 1000 < thresholdOf d x.toNat y.toNat)

/-- R85: (a) no tie when dithering, one side being odd and the other even, and the luminance and the threshold differ by
at least `1/4000`; (b) without dithering they are equal or differ by at least `1/1000`; (c) a gray pixel is ink up to
`floor(t(m)) = 16*m + 7`, or up to 127; (d) black always is ink and white never, every threshold being from 7.96875 to
247.03125; (e) at one threshold a darker pixel than an ink pixel is ink, and without dithering a pixel is ink exactly
when its rational luminance is below 128, at every position; (f) the threshold depends on `x mod 4`, `y mod 4` only, and
the ink bit of a pixel on its luminance and these only, not on its alpha and not on any other pixel or raster; (g) in a
4 by 4 tile of one gray level `g`, wherever it stands, the dithered ink pixels are as many as the `m` with
`floor(t(m)) ≥ g`: 16 for `g ≤ 7`, 15 for `8 ≤ g ≤ 23`, 8 at 128, none for `g ≥ 248`. -/
def Obligations.DitheringLaws : Prop :=
  (∀ (lum : BitVec 18) (m : BitVec 4),
    4 * lum.toNat % 2 = 0 ∧ 31875 * (2 * m.toNat + 1) % 2 = 1 ∧ 4 * lum.toNat ≠ 31875 * (2 * m.toNat + 1) ∧
    1 / 4000 ≤ |(lum.toNat : ℚ) / 1000 - (2 * (m.toNat : ℚ) + 1) * 255 / 32|) ∧
  (∀ lum : BitVec 18, (lum.toNat : ℚ) / 1000 = 128 ∨ 1 / 1000 ≤ |(lum.toNat : ℚ) / 1000 - 128|) ∧
  (∀ (g : Byte) (m : BitVec 4),
    (inkDecision (luminance g g g) .flat = true ↔ g.toNat ≤ 127) ∧
    (inkDecision (luminance g g g) (.bayer m) = true ↔ g.toNat ≤ 16 * m.toNat + 7) ∧
    ⌊((2 * (m.toNat : ℚ) + 1) * 255 / 32)⌋₊ = 16 * m.toNat + 7) ∧
  (∀ t : Threshold, inkDecision (luminance 0#8 0#8 0#8) t = true ∧
    inkDecision (luminance 255#8 255#8 255#8) t = false ∧
    7.96875 ≤ (thresholdTimes32 t : ℚ) / 32 ∧ (thresholdTimes32 t : ℚ) / 32 ≤ 247.03125) ∧
  ((∀ (t : Threshold) (dark light : BitVec 18), dark.toNat < light.toNat →
      inkDecision light t = true → inkDecision dark t = true) ∧
    ∀ (q : Raster) (x y : Nat), inkAt false q x y = true ↔ grayOf (q.pixel x y) < 128) ∧
  ((∀ d x y, thresholdAt d x y = thresholdAt d (x % 4) (y % 4)) ∧
    ∀ (d : Bool) (q q' : Raster) (x y x' y' : Nat), x % 4 = x' % 4 → y % 4 = y' % 4 →
      grayOf (q.pixel x y) = grayOf (q'.pixel x' y') → inkAt d q x y = inkAt d q' x' y') ∧
  (∀ (g : Byte) (x y n : Nat),
    n = ((List.range 16).filter fun i =>
      inkDecision (luminance g g g) (thresholdAt true (x + i % 4) (y + i / 4))).length →
    n = ((List.range 16).filter fun m => decide (g.toNat ≤ 16 * m + 7)).length ∧
    (g.toNat ≤ 7 → n = 16) ∧ (8 ≤ g.toNat → g.toNat ≤ 23 → n = 15) ∧ (g.toNat = 128 → n = 8) ∧
    (248 ≤ g.toNat → n = 0))

/-- R82: the matrix has the sixteen values in row-major reading order, and each of 0 to 15 stands in it once.
Executing a format row, and the field `work` it writes, are the model's (log 11, log 10). -/
def Obligations.BayerMatrixIsAsListed : Prop :=
  (∀ (row col : BitVec 2) (s : State), ∃ m : BitVec 4,
    exec (.bayerM row col) s = .next { s with work := { s.work with bayer := some m } } ∧
    ([0, 8, 2, 10, 12, 4, 14, 6, 3, 11, 1, 9, 15, 7, 13, 5] : List Nat)[4 * row.toNat + col.toNat]? = some m.toNat) ∧
  (∀ m : BitVec 4, ∃ row col : BitVec 2, bayerElement row col = m ∧
    ∀ row' col', bayerElement row' col' = m → row' = row ∧ col' = col)

/-- R90, R42, R44: `PACK` writes the byte at index `y*(w >> 3) + xb` of the bitmap under construction; column `8*xb
+ k` is its bit `7 - k`; every other index reads as before. So for every `xb` and `y`; a pixel outside `Q` is free (log
9). The hand-on field `work` is the model's (log 10). -/
def Obligations.PackPlacesEightPixels : Prop :=
  ∀ (d : Bool) (xb y : Half) (q : Raster) (s : State), s.work.q = some q →
    ∃ (v : Byte) (b : Memory), exec (.pack d xb y) s = .next { s with work := { s.work with packed := some v, bitmap := b } } ∧
      (∀ k, k < 8 → v.getLsbD (7 - k) = inkAt d q (xb.toNat * 8 + k) y.toNat) ∧
      Memory.read b (y.toNat * (q.width.toNat / 8) + xb.toNat) = some v ∧
      ∀ a, a ≠ y.toNat * (q.width.toNat / 8) + xb.toNat → Memory.read b a = Memory.read s.work.bitmap a

/-- The format row `BITMAP_BYTE` (R42): letter a is bit 7, letter h bit 0. Executing a format row, and the field
`work` it writes, are the model's (log 11, log 10). -/
def Obligations.BitmapByteLayout : Prop :=
  ∀ (a b c d e f g h : Bool) (s : State), ∃ v : Byte,
    exec (.bitmapByte ⟨a, b, c, d, e, f, g, h⟩) s = .next { s with work := { s.work with packed := some v } } ∧
    v.getLsbD 7 = a ∧ v.getLsbD 6 = b ∧ v.getLsbD 5 = c ∧ v.getLsbD 4 = d ∧
    v.getLsbD 3 = e ∧ v.getLsbD 2 = f ∧ v.getLsbD 1 = g ∧ v.getLsbD 0 = h

/-! ## PKT and the frame -/

/-- R100, R102, R103: with a bitmap, `PKT` writes the frame, its length, `FRM_VALID` and `ERR` at once and nothing
else. In a state that no run reaches, with `BMP_VALID = 1` and a byte of the bitmap not written, it does the same with
some bytes for those (free value, log 1). -/
def Obligations.PktCommitsTheFrame : Prop :=
  (∀ (s : State) (payload : List Byte), s.seq = .idle → s.bmpValid = true →
    payload.length = s.bmpW.toNat / 8 * s.bmpH.toNat → s.bmp = Memory.ofBytes payload →
    exec .pkt s = .next { s with
      frm := Memory.ofBytes (headerBytes s.bmpH (BitVec.ofNat 32 payload.length) ++ payload),
      frmLen := BitVec.ofNat 32 (8 + payload.length), frmValid := true, err := .ok }) ∧
  (∀ s : State, s.seq = .idle → s.bmpValid = true →
    ∃ (payload : List Byte) (k : Nat), payload.length = s.bmpW.toNat / 8 * s.bmpH.toNat ∧
      exec .pkt s = .next { s with
        frm := Memory.ofBytes (headerBytes s.bmpH (BitVec.ofNat 32 payload.length) ++ payload),
        frmLen := BitVec.ofNat 32 (8 + payload.length), frmValid := true, err := .ok, draws := k })

/-- R105: for every frame `PKT` builds from a state a run can be in, the magic bytes, the height and the payload
length read back little-endian, offset `8 + i` is the bitmap's byte `i`, and the length is
`8 + n`, from 9 to 536 797 193. -/
def Obligations.FrameStructure : Prop :=
  ∀ s : State, Inv s → s.seq = .idle → s.bmpValid = true →
    ∃ t n, exec .pkt s = .next t ∧ n = s.bmpW.toNat / 8 * s.bmpH.toNat ∧
      Memory.readRange t.frm 0 2 = some [0x42#8, 0x4D#8] ∧
      (Memory.readRange t.frm 2 2).bind fromLe16 = some s.bmpH ∧
      (Memory.readRange t.frm 4 4).bind fromLe32 = some (BitVec.ofNat 32 n) ∧
      (∀ i, i < n → Memory.read t.frm (8 + i) = Memory.read s.bmp i) ∧
      t.frmLen.toNat = 8 + n ∧ 9 ≤ t.frmLen.toNat ∧ t.frmLen.toNat ≤ 536797193

/-- Frame of `PKT`: it writes only `FRM`, `FRM_LEN`, `FRM_VALID` and `ERR`, and the model's count of free values, which
moves only where a byte of the bitmap is not written (log 1); every byte of `BMP` reads as before (R100). -/
def Obligations.PktFrame : Prop :=
  ∀ s t : State, s.seq = .idle → s.txReq = none → exec .pkt s = .next t →
    t = { s with frm := t.frm, frmLen := t.frmLen, frmValid := t.frmValid, err := t.err, draws := t.draws } ∧
    ((Memory.readRange s.bmp 0 (bmpLen s).toNat).isSome = true → t.draws = s.draws) ∧
    (∀ a, Memory.read t.bmp a = Memory.read s.bmp a) ∧
    (t.err ≠ .ok → t = { s with err := t.err } ∧ ∀ a, Memory.read t.frm a = Memory.read s.frm a)

/-- `PKT` is `HDR` and then `CAT`, and then the commit of what they hand on (R100). The hand-on field `work` is the
model's (log 10). -/
def Obligations.PktIsItsStagesInOrder : Prop :=
  ∀ s : State, Inv s → s.seq = .idle → s.bmpValid = true →
    ∃ t frame, execAll [.hdr s.bmpH (bmpLen s), .cat (bmpLen s)] s = .next t ∧
      t = { s with work := t.work } ∧ t.work.frame = some frame ∧
      exec .pkt s = .next { s with
        frm := Memory.ofBytes frame, frmLen := BitVec.ofNat 32 frame.length, frmValid := true, err := .ok }

/-- R101: `HDR`, and the format row `FRAME_HEADER`, hand on eight bytes: `42`, `4D`, the height and then the length,
each least significant byte first. Executing a format row, and the field `work` it writes, are the model's (log 11,
log 10). -/
def Obligations.HeaderLayout : Prop :=
  ∀ (height : Half) (n : Word) (s : State), ∃ h2 h3 n4 n5 n6 n7 : Byte,
    exec (.hdr height n) s =
      .next { s with work := { s.work with header := some [0x42#8, 0x4D#8, h2, h3, n4, n5, n6, n7] } } ∧
    exec (.frameHeader height n) s =
      .next { s with work := { s.work with header := some [0x42#8, 0x4D#8, h2, h3, n4, n5, n6, n7] } } ∧
    height.toNat = h2.toNat + 256 * h3.toNat ∧
    n.toNat = n4.toNat + 256 * n5.toNat + 65536 * n6.toNat + 16777216 * n7.toNat

/-- R102: `CAT` hands on the header followed by the first `n` bytes of `BMP` unchanged, for every `n`; where one of
those bytes is not written it is free (log 1), and the written ones stay in their places. The format row `FRAME` lays
out a header and a payload the same way; the length of a payload that 32 bits cannot say is free (log 25). Executing a
format row, and the field `work` it writes, are the model's (log 11, log 10). -/
def Obligations.CatPutsHeaderBeforePayload : Prop :=
  (∀ (n : Word) (hdr payload : List Byte) (s : State),
    s.work.header = some hdr → Memory.readRange s.bmp 0 n.toNat = some payload →
    exec (.cat n) s = .next { s with work := { s.work with frame := some (hdr ++ payload) } }) ∧
  (∀ (n : Word) (hdr : List Byte) (s : State), s.work.header = some hdr →
    ∃ (payload : List Byte) (k : Nat),
      exec (.cat n) s = .next { s with draws := k, work := { s.work with frame := some (hdr ++ payload) } } ∧
      payload.length = n.toNat ∧
      ∀ i, i < n.toNat → ∀ b, Memory.read s.bmp i = some b → payload[i]? = some b) ∧
  (∀ (height : Half) (payload : List Byte) (s : State),
    (payload.length < 4294967296 →
      exec (.frame height payload) s = .next { s with work := { s.work with
        frame := some (headerBytes height (BitVec.ofNat 32 payload.length) ++ payload) } }) ∧
    (4294967296 ≤ payload.length →
      ∃ n, exec (.frame height payload) s = .next { s with
        draws := s.draws + 1, work := { s.work with frame := some (headerBytes height n ++ payload) } }))

/-- R123: `PKT` with no bitmap and `SND` with no frame end with `SEQUENCE_ERROR` and change nothing else. Both can
happen only before the first `ENC`, or `PKT`, that ends `OK` after a reset: such a command sets the valid bit, and no
step but a reset clears it. -/
def Obligations.SequenceErrors : Prop :=
  (∀ (c : Half) (s : State), s.seq = .idle → s.txReq = none →
    (s.bmpValid = false → exec .pkt s = .next { s with err := .sequenceError }) ∧
    (s.frmValid = false → exec (.snd c) s = .next { s with err := .sequenceError })) ∧
  (∀ (d : Bool) (w : Half) (s t : State), s.seq = .idle → t.err = .ok →
    (exec (.enc d w) s = .next t → t.bmpValid = true) ∧ (exec .pkt s = .next t → t.frmValid = true)) ∧
  (∀ s t : State, step s = .next t → s.agenda.head? ≠ some .reset →
    (s.bmpValid = true → t.bmpValid = true) ∧ (s.frmValid = true → t.frmValid = true))

/-! ## SND -/

/-- R111: `SND 0` with a frame ends with `INVALID_INPUT`, no write issued, `CHUNK`, `TX_MODE`, `TX_OFF` unchanged;
without a frame `SEQUENCE_ERROR` comes first; with a frame and `c ≥ 1`, R112: `CHUNK`, the mode of `CAP_WNR`,
offset 0 and `SND_ISSUE`, nothing else. -/
def Obligations.SndAcceptance : Prop :=
  ∀ (c : Half) (s : State), s.seq = .idle →
    (s.frmValid = false → exec (.snd c) s = .next (raise .sequenceError s)) ∧
    (s.frmValid = true → c.toNat = 0 → exec (.snd c) s = .next (raise .invalidInput s)) ∧
    (s.frmValid = true → 1 ≤ c.toNat → exec (.snd c) s = .next { s with
      chunk := c, txMode := if s.capWnr then .unacknowledged else .acknowledged, txOff := 0#32, seq := .sndIssue })

/-- R112: `MSEL` writes `CHUNK`, `TX_MODE` from `CAP_WNR`, `TX_OFF` and `SEQ`, and nothing else. That it does so on its
own, with `c = 0`, which R111 refuses before it, and outside an accepted `SND`, is the model's (log 10). -/
def Obligations.MselLatchesTheMode : Prop :=
  ∀ (c : Half) (s : State), exec (.msel c) s = .next { s with
    chunk := c, txMode := if s.capWnr then .unacknowledged else .acknowledged, txOff := 0#32, seq := .sndIssue }

/-- R113: `CHK` hands on `o = TX_OFF` and `n = min(CHUNK, FRM_LEN - TX_OFF)`; `1 ≤ n ≤ CHUNK`, `o + n ≤ FRM_LEN`,
and a chunk shorter than `CHUNK` is the last. Where its precondition does not hold, it hands on `o = TX_OFF` with some
length (free value, log 24). The hand-on field `work` is the model's (log 10). -/
def Obligations.ChkCutsTheNextChunk : Prop :=
  (∀ s : State, s.txOff.toNat < s.frmLen.toNat → 1 ≤ s.chunk.toNat →
    ∃ n, exec .chk s = .next { s with work := { s.work with slice := some ⟨s.txOff.toNat, n⟩ } } ∧
      n = min s.chunk.toNat (s.frmLen.toNat - s.txOff.toNat) ∧
      1 ≤ n ∧ n ≤ s.chunk.toNat ∧ s.txOff.toNat + n ≤ s.frmLen.toNat ∧
      (n < s.chunk.toNat → s.txOff.toNat + n = s.frmLen.toNat)) ∧
  (∀ s : State, s.frmLen.toNat ≤ s.txOff.toNat ∨ s.chunk.toNat = 0 →
    ∃ n, exec .chk s = .next { s with
      draws := s.draws + 1, work := { s.work with slice := some ⟨s.txOff.toNat, n⟩ } })

/-- R114, R115: in `SND_ISSUE`, `WR` puts the chunk on the port in the latched mode, records a pending beat and
waits; nothing else changes. In every other state of `SND_ISSUE` with a free port, which no run reaches, it does so with
some bytes (free values, log 1, log 24). -/
def Obligations.WrIssuesTheChunk : Prop :=
  (∀ s : State, Inv s → s.seq = .sndIssue →
    ∃ bytes, Memory.readRange s.frm s.txOff.toNat (min s.chunk.toNat (s.frmLen.toNat - s.txOff.toNat)) = some bytes ∧
      exec .wr s = .next { s with
        txReq := some ⟨s.txMode, bytes⟩, txLog := s.txLog ++ [⟨s.txMode, bytes, .pending⟩], seq := .sndWait } ∧
      step { s with agenda := [] } = .next { s with
        txReq := some ⟨s.txMode, bytes⟩, txLog := s.txLog ++ [⟨s.txMode, bytes, .pending⟩], seq := .sndWait,
        agenda := [] }) ∧
  (∀ s : State, s.seq = .sndIssue → s.txReq = none →
    ∃ bytes k, exec .wr s = .next { s with
      txReq := some ⟨s.txMode, bytes⟩, txLog := s.txLog ++ [⟨s.txMode, bytes, .pending⟩], seq := .sndWait,
      draws := k })

/-- R116: the answer `TX_OK` moves `TX_OFF` past the chunk, never beyond `FRM_LEN`; at `FRM_LEN` the `SND` ends
`OK`, before it the next chunk is to be issued; the pending beat is recorded as answered. -/
def Obligations.AnswerOkAdvances : Prop :=
  ∀ (s : State) (rest : List Move), Inv s → s.seq = .sndWait → s.agenda = .respond .ok :: rest →
    ∃ r log off, s.txReq = some r ∧ s.txLog = log ++ [⟨r.mode, r.bytes, .pending⟩] ∧
      off = s.txOff.toNat + r.bytes.length ∧ off ≤ s.frmLen.toNat ∧
      (off = s.frmLen.toNat → step s = .next { s with
        agenda := rest, txReq := none, txOff := BitVec.ofNat 32 off, seq := .idle, err := .ok,
        txLog := log ++ [⟨r.mode, r.bytes, .answered .ok⟩] }) ∧
      (off < s.frmLen.toNat → step s = .next { s with
        agenda := rest, txReq := none, txOff := BitVec.ofNat 32 off, seq := .sndIssue,
        txLog := log ++ [⟨r.mode, r.bytes, .answered .ok⟩] })

/-- R117: the answer `TX_FAIL` ends the `SND` with `TRANSPORT_WRITE_FAILURE`; `TX_OFF` keeps the failed chunk's
offset, the frame stays, the record ends with the failed beat, and no write is on the port; a new `SND` is accepted
and starts at offset 0, with the same frame. -/
def Obligations.AnswerFailAbandons : Prop :=
  ∀ (s : State) (rest : List Move), Inv s → s.seq = .sndWait → s.agenda = .respond .fail :: rest →
    ∃ r log t, s.txReq = some r ∧ s.txLog = log ++ [⟨r.mode, r.bytes, .pending⟩] ∧
      t = { s with
        agenda := rest, txReq := none, seq := .idle, err := .transportWriteFailure,
        txLog := log ++ [⟨r.mode, r.bytes, .answered .fail⟩] } ∧
      step s = .next t ∧
      ∀ c : Half, 1 ≤ c.toNat → ∃ u, exec (.snd c) t = .next u ∧ u.seq = .sndIssue ∧ u.txOff = 0#32 ∧
        u.frm = s.frm ∧ u.frmLen = s.frmLen ∧ u.txLog = t.txLog

/-- R118: while the transport does not answer and nobody resets the core, it stays in `SND_WAIT` with `BUSY = 1` and
the same request for ever, whatever the host writes or reads and whatever the inputs do. -/
def Obligations.NoAnswerNoProgress : Prop :=
  ∀ (s t : State) (k : Nat), Inv s → s.seq = .sndWait →
    (∀ m ∈ s.agenda, m ≠ .reset ∧ ∀ a, m ≠ .respond a) → Host.Core.run Sys2Proof.core k s = .next t →
    t.seq = .sndWait ∧ (statusWord t).getLsbD 7 = true ∧ t.txReq = s.txReq ∧ t.txOff = s.txOff ∧
      t.txLog = s.txLog ∧ t.err = s.err

/-- Where the core has no step, an idle one with no word held or one that waits for an answer, the step that no other
agent makes changes nothing: the model's choice (log 6). -/
def Obligations.StepsWithNothingToDo : Prop :=
  ∀ s : State, s.agenda = [] → (s.seq = .idle ∧ s.held = [] ∨ s.seq = .sndWait ∧ s.txAnswer = none) →
    step s = .next s

/-- R119: a transmission whose every write is answered `TX_OK` ends `OK` after `ceil(L / c)` beats that carry the
chunks of the frame in order, all in the mode latched at acceptance, whatever host, rasterizer, capability input and
readers do in between (`Round`, `Quiet`); nothing changes but what these moves change: the inputs, what was read and the
count of free values, and the words the host wrote, which are held. The schedule of moves is the model's agenda (log 4);
a reset and a move that the model refuses are not in it. -/
def Obligations.TransmissionSendsTheFrame : Prop :=
  ∀ (s : State) (c : Half) (held : List Word) (rounds : List Round) (more : List Move) (frame : List Byte),
    Inv s → s.seq = .idle → s.frmValid = true → 1 ≤ c.toNat →
    Memory.readRange s.frm 0 s.frmLen.toNat = some frame → s.held = encodeSnd c :: held →
    rounds.length = chunkCount s.frmLen.toNat c.toNat → (∀ r ∈ rounds, r.Ok s) →
    s.agenda = .core :: (okMoves rounds ++ more) →
    ∃ t : State, Host.Core.run Sys2Proof.core (1 + (okMoves rounds).length) s = .next t ∧
      t = { s with
        held := held ++ commandWrites (okMoves rounds), agenda := more, chunk := c,
        txMode := modeOfCapability s.capWnr, txOff := s.frmLen, err := .ok,
        txLog := s.txLog ++ okBeats (modeOfCapability s.capWnr) frame c.toNat rounds.length,
        srcOk := t.srcOk, src := t.src, capWnr := t.capWnr, hostData := t.hostData, draws := t.draws }

/-- R119, last part, and R117: if write number `j` is the first answered `TX_FAIL`, there are exactly `j + 1` beats,
the first `j` as in a full transmission, `TX_OFF = j*c`, and the `SND` has ended with `TRANSPORT_WRITE_FAILURE`,
whatever host, rasterizer, capability input and readers do in between (`Round`, `Quiet`). The schedule of moves is the
model's agenda (log 4); a reset and a move that the model refuses are not in it. -/
def Obligations.FailedTransmissionStopsAtTheChunk : Prop :=
  ∀ (s : State) (c : Half) (held : List Word) (rounds : List Round) (failed : Round) (more : List Move)
    (frame : List Byte),
    Inv s → s.seq = .idle → s.frmValid = true → 1 ≤ c.toNat →
    Memory.readRange s.frm 0 s.frmLen.toNat = some frame → s.held = encodeSnd c :: held →
    rounds.length < chunkCount s.frmLen.toNat c.toNat → (∀ r ∈ rounds, r.Ok s) → failed.Ok s →
    s.agenda = .core :: (okMoves rounds ++ (failed.moves .fail ++ more)) →
    ∃ t : State, Host.Core.run Sys2Proof.core (1 + (okMoves rounds).length + (failed.moves .fail).length) s = .next t ∧
      t = { s with
        held := held ++ commandWrites (okMoves rounds ++ failed.moves .fail), agenda := more, chunk := c,
        txMode := modeOfCapability s.capWnr, txOff := BitVec.ofNat 32 (rounds.length * c.toNat),
        err := .transportWriteFailure,
        txLog := s.txLog ++ okBeats (modeOfCapability s.capWnr) frame c.toNat rounds.length ++
          [⟨modeOfCapability s.capWnr, chunkBytes frame c.toNat rounds.length, .answered .fail⟩],
        srcOk := t.srcOk, src := t.src, capWnr := t.capWnr, hostData := t.hostData, draws := t.draws }

/-- R119 (a), (b), (c), (e): the chunks of a frame of `L ≥ 1` bytes at size `c` are `ceil(L / c) ≥ 1` in number, all
but the last have exactly `c` bytes, the last has `L - c*(ceil(L/c) - 1)`, from 1 to `c`, and their concatenation is
the frame. -/
def Obligations.ChunksCoverTheFrame : Prop :=
  ∀ (frame : List Byte) (c : Nat), 1 ≤ frame.length → 1 ≤ c →
    ∀ n, n = chunkCount frame.length c →
      1 ≤ n ∧ ((List.range n).map (chunkBytes frame c)).flatten = frame ∧
      (∀ k, k + 1 < n → (chunkBytes frame c k).length = c) ∧
      (chunkBytes frame c (n - 1)).length = frame.length - c * (n - 1) ∧
      1 ≤ (chunkBytes frame c (n - 1)).length ∧ (chunkBytes frame c (n - 1)).length ≤ c

/-- R28, R112, R151: while an `SND` is in progress the latched mode keeps its value in every step but a reset, whatever
the capability input does. -/
def Obligations.ModeIsLatchedPerTransmission : Prop :=
  ∀ s t : State, s.seq ≠ .idle → step s = .next t → s.agenda.head? ≠ some .reset →
    t.txMode = s.txMode ∧ t.chunk = s.chunk

/-- Frame of `SND` and of every step of the core during it: bitmap, frame, their registers and valid bits stay as
they are, byte for byte (R110). The model's count of free values moves only in states that no run reaches (log 1, log
24). -/
def Obligations.SndFrame : Prop :=
  ∀ (s t : State), (∃ c, s.seq = .idle ∧ exec (.snd c) s = .next t) ∨ exec .wr s = .next t →
    t = { s with
      chunk := t.chunk, txMode := t.txMode, txOff := t.txOff, seq := t.seq, txReq := t.txReq, err := t.err,
      txLog := t.txLog, txAnswer := t.txAnswer, draws := t.draws } ∧
    (Inv s → t.draws = s.draws) ∧
    (∀ a, Memory.read t.bmp a = Memory.read s.bmp a) ∧ (∀ a, Memory.read t.frm a = Memory.read s.frm a)

/-- `SND` is `MSEL` after its checks, and the issue of a chunk is `CHK` and then a `TXWRITE` of the bytes it cut,
and the wait (R110, R114). The hand-on field `work` is the model's (log 10). -/
def Obligations.SndIsItsStagesInOrder : Prop :=
  ∀ (c : Half) (s : State),
    (s.seq = .idle → s.frmValid = true → 1 ≤ c.toNat → exec (.snd c) s = exec (.msel c) s) ∧
    (Inv s → s.seq = .sndIssue → ∃ slice bytes t u,
      exec .chk s = .next t ∧ t.work.slice = some slice ∧
      Memory.readRange s.frm slice.offset slice.length = some bytes ∧
      exec (.txwrite s.txMode bytes) s = .next u ∧ exec .wr s = .next { u with seq := .sndWait })

/-- The format row `TXWRITE` (R33, R115): with no request outstanding, a request stands on the port and is recorded as
pending, whatever its bytes; nothing else changes. With one outstanding it is a fault of the model (20_memory R53; log
19). Executing a format row is the model's (log 11). -/
def Obligations.TxwritePutsOneRequest : Prop :=
  ∀ (mode : WriteMode) (bytes : List Byte) (s : State),
    (s.txReq = none →
      exec (.txwrite mode bytes) s = .next { s with
        txReq := some ⟨mode, bytes⟩, txLog := s.txLog ++ [⟨mode, bytes, .pending⟩] }) ∧
    (s.txReq ≠ none → exec (.txwrite mode bytes) s = .fault .writeOutstanding)

/-- Where the stage operations stop, the model's choice (log 10, log 19): a stage without what an earlier stage hands
on, `WR` outside an `SND` or with an answer to no request, and a second request on the port. The commands run them in
order (30_encoding R62), so no step of a run stops so. -/
def Obligations.StagesStopOutsideTheirPlace : Prop :=
  ∀ s : State,
    (∀ (d : Bool) (xb y : Half), s.work.q = none → exec (.pack d xb y) s = .fault .stageOutOfOrder) ∧
    (∀ n : Word, s.work.header = none → exec (.cat n) s = .fault .stageOutOfOrder) ∧
    (s.seq = .idle → exec .wr s = .fault .stageOutOfOrder) ∧
    (s.seq = .sndWait → s.txReq = none → s.txAnswer ≠ none → exec .wr s = .fault .stageOutOfOrder) ∧
    (s.seq = .sndIssue → s.txReq ≠ none → exec .wr s = .fault .writeOutstanding)

/-! ## Status, registers, ports, reset -/

/-- R22, R120: the fields of `STATUS`, with the code of every way a command ends. -/
def Obligations.StatusLayout : Prop :=
  ∀ s : State,
    (s.err = .ok → (statusWord s).extractLsb' 0 4 = 0#4) ∧
    (s.err = .invalidInput → (statusWord s).extractLsb' 0 4 = 1#4) ∧
    (s.err = .decodeFailure → (statusWord s).extractLsb' 0 4 = 2#4) ∧
    (s.err = .transportWriteFailure → (statusWord s).extractLsb' 0 4 = 3#4) ∧
    (s.err = .illegalCommand → (statusWord s).extractLsb' 0 4 = 4#4) ∧
    (s.err = .sequenceError → (statusWord s).extractLsb' 0 4 = 5#4) ∧
    (statusWord s).getLsbD 4 = s.bmpValid ∧ (statusWord s).getLsbD 5 = s.frmValid ∧
    ((statusWord s).getLsbD 6 = true ↔ s.txMode = .unacknowledged) ∧
    ((statusWord s).getLsbD 7 = true ↔ s.seq ≠ .idle) ∧ (statusWord s).extractLsb' 8 24 = 0#24

/-- R26, R31: the host's reads of registers 1 to 6 are accepted at any time and return the current value, registers
2 to 4 while their valid bit is 1. A read of an unlisted register, or of `BMP_DIM`, `BMP_LEN`, `FRM_LEN` without
their valid bit, is accepted and returns some value, which nothing here constrains (free value, log 3). A read changes
nothing but what the host holds (log 13) and the count of free values. -/
def Obligations.RegisterReads : Prop :=
  ∀ (s : State) (n : Nat) (rest : List Move), s.agenda = .hostRead n :: rest →
    (∀ v : Word, (n = 1 ∧ v = statusWord s) ∨
      (n = 2 ∧ s.bmpValid = true ∧ v = s.bmpH ++ s.bmpW) ∨
      (n = 3 ∧ s.bmpValid = true ∧ v = BitVec.ofNat 32 (s.bmpW.toNat / 8 * s.bmpH.toNat)) ∨
      (n = 4 ∧ s.frmValid = true ∧ v = s.frmLen) ∨
      (n = 5 ∧ v = 0#16 ++ s.chunk) ∨
      (n = 6 ∧ v = s.txOff) →
      step s = .next { s with agenda := rest, hostData := some (.word v) }) ∧
    ((6 < n ∨ ((n = 2 ∨ n = 3) ∧ s.bmpValid = false) ∨ (n = 4 ∧ s.frmValid = false)) →
      ∃ v, step s = .next { s with agenda := rest, hostData := some (.word v), draws := s.draws + 1 })

/-- R35, R36: the read ports give the sizes and a byte exactly within the valid buffer, and refuse every other read;
no read changes anything but what the reader holds (R50; log 13). That the two sizes of the bitmap come in one read is
the model's (log 26). -/
def Obligations.BufferReads : Prop :=
  ∀ (s : State) (i : Nat) (rest : List Move), Inv s →
    (s.agenda = .readBitmapSize :: rest →
      (s.bmpValid = true → step s = .next { s with agenda := rest, hostData := some (.word (s.bmpH ++ s.bmpW)) }) ∧
      (s.bmpValid = false → step s = .refused .bitmapReadRefused)) ∧
    (s.agenda = .readBitmap i :: rest →
      (s.bmpValid = true → i < s.bmpW.toNat / 8 * s.bmpH.toNat →
        ∃ b, Memory.read s.bmp i = some b ∧
          step s = .next { s with agenda := rest, hostData := some (.byte b) }) ∧
      (s.bmpValid = false ∨ s.bmpW.toNat / 8 * s.bmpH.toNat ≤ i → step s = .refused .bitmapReadRefused)) ∧
    (s.agenda = .readFrameLength :: rest →
      (s.frmValid = true → step s = .next { s with agenda := rest, hostData := some (.word s.frmLen) }) ∧
      (s.frmValid = false → step s = .refused .frameReadRefused)) ∧
    (s.agenda = .readFrame i :: rest →
      (s.frmValid = true → i < s.frmLen.toNat →
        ∃ b, Memory.read s.frm i = some b ∧
          step s = .next { s with agenda := rest, hostData := some (.byte b) }) ∧
      (s.frmValid = false ∨ s.frmLen.toNat ≤ i → step s = .refused .frameReadRefused))

/-- R38: the values after reset that the spec states, and that the buffers' contents are refused to a reader. -/
def Obligations.ResetValues : Prop :=
  State.reset.seq = .idle ∧ State.reset.err = .ok ∧ State.reset.bmpValid = false ∧ State.reset.frmValid = false ∧
  State.reset.txMode = .acknowledged ∧ State.reset.chunk = 20#16 ∧ State.reset.txOff = 0#32 ∧
  State.reset.txReq = none ∧ State.reset.txLog = [] ∧ State.reset.work.q = none ∧ statusWord State.reset = 0#32 ∧
  (∀ i rest, step { State.reset with agenda := .readBitmap i :: rest } = .refused .bitmapReadRefused) ∧
  (∀ i rest, step { State.reset with agenda := .readFrame i :: rest } = .refused .frameReadRefused)

/-- R140, R141: a reset puts the core at the reset values whatever it was doing, an `SND` among it. The values of
`BMP_W`, `BMP_H` and `FRM_LEN`, which the spec does not give, stay open here (log 2); the buffers hold no value (log 1).
The inputs, the moves to come and what the host has read are not the core's and stay (log 15); that held command words
stay is the model's reading of R31 (log 5). -/
def Obligations.ResetFromAnywhere : Prop :=
  ∀ (s : State) (rest : List Move), s.agenda = .reset :: rest →
    ∃ t, step s = .next t ∧
      t = { State.reset with
        bmpW := t.bmpW, bmpH := t.bmpH, frmLen := t.frmLen,
        srcOk := s.srcOk, src := s.src, capWnr := s.capWnr, held := s.held, agenda := rest,
        hostData := s.hostData, draws := s.draws, params := s.params }

/-- R32, R34, R154: presenting a raster sets the raster port and driving the capability sets `CAP_WNR`, at any time and
whatever the core is doing, and neither changes anything else. That these are moves of an agenda is the model's (log
4). -/
def Obligations.InputMovesSetTheirInput : Prop :=
  ∀ (s : State) (rest : List Move),
    (∀ ok raster, s.agenda = .present ok raster :: rest →
      step s = .next { s with agenda := rest, srcOk := ok, src := raster }) ∧
    (∀ wnr, s.agenda = .capability wnr :: rest → step s = .next { s with agenda := rest, capWnr := wnr })

/-! ## Whole-machine rules -/

/-- The invariant holds after reset. -/
def Obligations.ResetMeetsInvariant : Prop := Inv State.reset

/-- Every step from a state that meets the invariant, whichever agent moves, answers a state that meets it. -/
def Obligations.StepKeepsInvariant : Prop :=
  ∀ s t : State, Inv s → step s = .next t → Inv t

/-- From a state that meets the invariant no step faults, and a step is refused only where the next move is a buffer
read that is not valid (R35, R36, 93 U8) or an answer with no write outstanding (93 U7), which the spec refuses, or a
read of register 0, which the spec makes write-only (R26) and which the model refuses by its own choice (log 13). -/
def Obligations.NoStepFaults : Prop :=
  ∀ s : State, Inv s →
    (∀ r, step s ≠ .fault r) ∧
    (∀ r, step s = .refused r →
      (s.agenda.head? = some (.hostRead 0) ∧ r = .commandRegisterIsWriteOnly) ∨
      (s.agenda.head? = some .readBitmapSize ∧ s.bmpValid = false ∧ r = .bitmapReadRefused) ∨
      (∃ i, s.agenda.head? = some (.readBitmap i) ∧
        (s.bmpValid = false ∨ s.bmpW.toNat / 8 * s.bmpH.toNat ≤ i) ∧ r = .bitmapReadRefused) ∨
      (s.agenda.head? = some .readFrameLength ∧ s.frmValid = false ∧ r = .frameReadRefused) ∨
      (∃ o, s.agenda.head? = some (.readFrame o) ∧
        (s.frmValid = false ∨ s.frmLen.toNat ≤ o) ∧ r = .frameReadRefused) ∨
      (∃ a, s.agenda.head? = some (.respond a) ∧ s.seq ≠ .sndWait ∧ r = .answerWithoutWrite))

/-- R39: the complete list of `SEQ` transitions, with the event of each. -/
def Obligations.SequencerTransitions : Prop :=
  ∀ s t : State, Inv s → step s = .next t → t.seq ≠ s.seq →
    (s.seq = .idle ∧ t.seq = .sndIssue ∧ ∃ c rest, s.held = encodeSnd c :: rest ∧ s.frmValid = true ∧ c.toNat ≠ 0) ∨
    (s.seq = .sndIssue ∧ t.seq = .sndWait ∧ t.txReq ≠ none) ∨
    (s.seq = .sndWait ∧ t.seq = .sndIssue ∧ s.agenda.head? = some (.respond .ok) ∧ t.txOff.toNat < t.frmLen.toNat) ∨
    (s.seq = .sndWait ∧ t.seq = .idle ∧ s.agenda.head? = some (.respond .ok) ∧ t.txOff = t.frmLen ∧ t.err = .ok) ∨
    (s.seq = .sndWait ∧ t.seq = .idle ∧ s.agenda.head? = some (.respond .fail) ∧ t.err = .transportWriteFailure) ∨
    (t.seq = .idle ∧ s.agenda.head? = some .reset)

/-- R53: a step never puts a second write on the port while one is outstanding: a beat is added to the record only
when no request was pending, and only one at a time. -/
def Obligations.OneWriteAtATime : Prop :=
  ∀ s t : State, Inv s → step s = .next t → t.txLog.length ≠ s.txLog.length → s.agenda.head? ≠ some .reset →
    s.txReq = none ∧ t.txLog.length = s.txLog.length + 1
end

