-- ==== Sys2Proof/Laws/Memory.lean ====
section
/-! SUPPORT. Laws of the byte buffers: reads after writes, the canonical form, and the buffer of a byte sequence. -/

namespace Sys2Proof.Machine

theorem Memory.read_write_same (m : Memory) (a : Nat) (v : Byte) :
    Memory.read (Memory.write m a v) a = some v := by
  induction m with
  | nil => simp [Memory.write, Memory.read]
  | cons c rest ih =>
    obtain ⟨k, b⟩ := c
    unfold Memory.write
    split_ifs with h1 h2
    · simp [Memory.read]
    · simp [Memory.read]
    · simp [Memory.read, h2, ih]

theorem Memory.read_write_other (m : Memory) (a x : Nat) (v : Byte) (h : x ≠ a) :
    Memory.read (Memory.write m a v) x = Memory.read m x := by
  induction m with
  | nil => simp [Memory.write, Memory.read, h]
  | cons c rest ih =>
    obtain ⟨k, b⟩ := c
    unfold Memory.write
    split_ifs with h1 h2
    · simp [Memory.read, h]
    · subst h2; simp [Memory.read, h]
    · simp only [Memory.read, ih]

/-- Reading any address after a write. -/
theorem Memory.read_write (m : Memory) (a x : Nat) (v : Byte) :
    Memory.read (Memory.write m a v) x = if x = a then some v else Memory.read m x := by
  split_ifs with h
  · subst h; exact Memory.read_write_same m x v
  · exact Memory.read_write_other m a x v h

theorem Memory.write_risesFrom (m : Memory) (lo a : Nat) (v : Byte) (h : Memory.risesFrom lo m = true) (ha : lo ≤ a) :
    Memory.risesFrom lo (Memory.write m a v) = true := by
  induction m generalizing lo with
  | nil => simp [Memory.write, Memory.risesFrom, ha]
  | cons c rest ih =>
    obtain ⟨k, b⟩ := c
    simp only [Memory.risesFrom, Bool.and_eq_true, decide_eq_true_eq] at h
    unfold Memory.write
    split_ifs with h1 h2
    · simp only [Memory.risesFrom, Bool.and_eq_true, decide_eq_true_eq]
      exact ⟨ha, by omega, h.2⟩
    · subst h2
      simp only [Memory.risesFrom, Bool.and_eq_true, decide_eq_true_eq]
      exact ⟨ha, h.2⟩
    · simp only [Memory.risesFrom, Bool.and_eq_true, decide_eq_true_eq]
      exact ⟨h.1, ih (k + 1) h.2 (by omega)⟩

/-- A write keeps the canonical form. -/
theorem Memory.write_wf (m : Memory) (a : Nat) (v : Byte) (h : Memory.wf m = true) :
    Memory.wf (Memory.write m a v) = true :=
  Memory.write_risesFrom m 0 a v h (Nat.zero_le a)

theorem Memory.ofBytesFrom_risesFrom (a lo : Nat) (bs : List Byte) (h : lo ≤ a) :
    Memory.risesFrom lo (Memory.ofBytesFrom a bs) = true := by
  induction bs generalizing a lo with
  | nil => rfl
  | cons b rest ih =>
    simp only [Memory.ofBytesFrom, Memory.risesFrom, Bool.and_eq_true, decide_eq_true_eq]
    exact ⟨h, ih (a + 1) (a + 1) le_rfl⟩

/-- The buffer of a byte sequence has the canonical form. -/
theorem Memory.ofBytes_wf (bs : List Byte) : Memory.wf (Memory.ofBytes bs) = true :=
  Memory.ofBytesFrom_risesFrom 0 0 bs le_rfl

/-- Several writes keep the canonical form. -/
theorem Memory.writeRange_wf (m : Memory) (a : Nat) (bs : List Byte) (h : Memory.wf m = true) :
    Memory.wf (Memory.writeRange m a bs) = true := by
  induction bs generalizing m a with
  | nil => exact h
  | cons b rest ih => exact ih _ _ (Memory.write_wf m a b h)

theorem Memory.read_ofBytesFrom (a i : Nat) (bs : List Byte) :
    Memory.read (Memory.ofBytesFrom a bs) i = if i < a then none else bs[i - a]? := by
  induction bs generalizing a with
  | nil => simp [Memory.ofBytesFrom, Memory.read, Memory.unlisted]
  | cons b rest ih =>
    simp only [Memory.ofBytesFrom, Memory.read, ih (a + 1)]
    by_cases h : i = a
    · simp [h]
    · by_cases h2 : i < a
      · rw [if_neg h, if_pos (by omega), if_pos h2]
      · have h3 : i - a = (i - (a + 1)) + 1 := by omega
        rw [if_neg h, if_neg (by omega), if_neg h2, h3, List.getElem?_cons_succ]

/-- Index `i` of the buffer of a byte sequence holds element `i` of it, and nothing beyond its end. -/
@[simp] theorem Memory.read_ofBytes (bs : List Byte) (i : Nat) :
    Memory.read (Memory.ofBytes bs) i = bs[i]? := by
  simp [Memory.ofBytes, Memory.read_ofBytesFrom]

/-- A range of the buffer of a byte sequence is the corresponding subsequence. -/
theorem Memory.readRange_ofBytes (bs : List Byte) (a n : Nat) (h : a + n ≤ bs.length) :
    Memory.readRange (Memory.ofBytes bs) a n = some ((bs.drop a).take n) := by
  induction n generalizing a with
  | zero => simp [Memory.readRange]
  | succ n ih =>
    have ha : a < bs.length := by omega
    rw [Memory.readRange, Memory.read_ofBytes, ih (a + 1) (by omega), List.getElem?_eq_getElem ha]
    rw [List.drop_eq_getElem_cons ha, List.take_succ_cons]

/-- The whole buffer of a byte sequence. -/
theorem Memory.readRange_ofBytes_all (bs : List Byte) :
    Memory.readRange (Memory.ofBytes bs) 0 bs.length = some bs := by
  rw [Memory.readRange_ofBytes bs 0 bs.length (by omega)]; simp

/-- A range that is read has the length asked for, and its elements are the bytes read. -/
theorem Memory.readRange_some {m : Memory} {a n : Nat} {bs : List Byte}
    (h : Memory.readRange m a n = some bs) :
    bs.length = n ∧ ∀ i, i < n → Memory.read m (a + i) = bs[i]? := by
  induction n generalizing a bs with
  | zero => simp [Memory.readRange] at h; subst h; simp
  | succ n ih =>
    rw [Memory.readRange] at h
    split at h
    case h_2 => cases h
    case h_1 b rest hb hr =>
      cases h
      obtain ⟨hl, hi⟩ := ih hr
      refine ⟨by simp [hl], fun i hlt => ?_⟩
      cases i with
      | zero => simpa using hb
      | succ i =>
        have := hi i (by omega)
        rw [List.getElem?_cons_succ, ← this]; congr 1; omega

theorem Memory.write_ofBytesFrom (a : Nat) (bs : List Byte) (b : Byte) :
    Memory.write (Memory.ofBytesFrom a bs) (a + bs.length) b = Memory.ofBytesFrom a (bs ++ [b]) := by
  induction bs generalizing a with
  | nil => simp [Memory.ofBytesFrom, Memory.write]
  | cons c rest ih =>
    have hi := ih (a + 1)
    simp only [List.length_cons, List.cons_append, Memory.ofBytesFrom, Memory.write]
    rw [if_neg (by omega), if_neg (by omega)]
    rw [show a + (rest.length + 1) = a + 1 + rest.length by omega, hi]

/-- Writing the next byte of a sequence extends its buffer. -/
theorem Memory.write_ofBytes (bs : List Byte) (b : Byte) :
    Memory.write (Memory.ofBytes bs) bs.length b = Memory.ofBytes (bs ++ [b]) := by
  have h := Memory.write_ofBytesFrom 0 bs b
  rwa [Nat.zero_add] at h

/-- Writing bytes one at a time from the end of a sequence on gives the buffer of the longer sequence
(20_memory R48: the packer writes each byte once). -/
theorem Memory.writeRange_ofBytes (bs cs : List Byte) :
    Memory.writeRange (Memory.ofBytes bs) bs.length cs = Memory.ofBytes (bs ++ cs) := by
  induction cs generalizing bs with
  | nil => simp [Memory.writeRange]
  | cons c rest ih =>
    rw [Memory.writeRange, Memory.write_ofBytes]
    have h := ih (bs ++ [c])
    simpa using h

/-- Two byte sequences with one buffer are equal. -/
theorem Memory.ofBytes_injective {bs cs : List Byte} (h : Memory.ofBytes bs = Memory.ofBytes cs) : bs = cs := by
  apply List.ext_getElem?
  intro i
  rw [← Memory.read_ofBytes, ← Memory.read_ofBytes, h]

end Sys2Proof.Machine
end

