-- ==== Sys2Proof/Laws/State.lean ====
section
/-! SUPPORT. One lemma per field per update of State, each true by `rfl`. -/

namespace Sys2Proof.Machine

/-! `raise` -/

@[simp] theorem raise_seq (k : ErrKind) (s : State) : (raise k s).seq = .idle := rfl
@[simp] theorem raise_err (k : ErrKind) (s : State) : (raise k s).err = k := rfl
@[simp] theorem raise_bmpValid (k : ErrKind) (s : State) : (raise k s).bmpValid = s.bmpValid := rfl
@[simp] theorem raise_frmValid (k : ErrKind) (s : State) : (raise k s).frmValid = s.frmValid := rfl
@[simp] theorem raise_txMode (k : ErrKind) (s : State) : (raise k s).txMode = s.txMode := rfl
@[simp] theorem raise_bmpW (k : ErrKind) (s : State) : (raise k s).bmpW = s.bmpW := rfl
@[simp] theorem raise_bmpH (k : ErrKind) (s : State) : (raise k s).bmpH = s.bmpH := rfl
@[simp] theorem raise_bmp (k : ErrKind) (s : State) : (raise k s).bmp = s.bmp := rfl
@[simp] theorem raise_frmLen (k : ErrKind) (s : State) : (raise k s).frmLen = s.frmLen := rfl
@[simp] theorem raise_frm (k : ErrKind) (s : State) : (raise k s).frm = s.frm := rfl
@[simp] theorem raise_chunk (k : ErrKind) (s : State) : (raise k s).chunk = s.chunk := rfl
@[simp] theorem raise_txOff (k : ErrKind) (s : State) : (raise k s).txOff = s.txOff := rfl
@[simp] theorem raise_txReq (k : ErrKind) (s : State) : (raise k s).txReq = none := rfl
@[simp] theorem raise_txLog (k : ErrKind) (s : State) : (raise k s).txLog = s.txLog := rfl
@[simp] theorem raise_work (k : ErrKind) (s : State) : (raise k s).work = s.work := rfl
@[simp] theorem raise_srcOk (k : ErrKind) (s : State) : (raise k s).srcOk = s.srcOk := rfl
@[simp] theorem raise_src (k : ErrKind) (s : State) : (raise k s).src = s.src := rfl
@[simp] theorem raise_capWnr (k : ErrKind) (s : State) : (raise k s).capWnr = s.capWnr := rfl
@[simp] theorem raise_txAnswer (k : ErrKind) (s : State) : (raise k s).txAnswer = s.txAnswer := rfl
@[simp] theorem raise_held (k : ErrKind) (s : State) : (raise k s).held = s.held := rfl
@[simp] theorem raise_agenda (k : ErrKind) (s : State) : (raise k s).agenda = s.agenda := rfl
@[simp] theorem raise_hostData (k : ErrKind) (s : State) : (raise k s).hostData = s.hostData := rfl
@[simp] theorem raise_draws (k : ErrKind) (s : State) : (raise k s).draws = s.draws := rfl
@[simp] theorem raise_params (k : ErrKind) (s : State) : (raise k s).params = s.params := rfl

/-! `complete` -/

@[simp] theorem complete_seq (s : State) : (complete s).seq = s.seq := rfl
@[simp] theorem complete_err (s : State) : (complete s).err = .ok := rfl
@[simp] theorem complete_bmpValid (s : State) : (complete s).bmpValid = s.bmpValid := rfl
@[simp] theorem complete_frmValid (s : State) : (complete s).frmValid = s.frmValid := rfl
@[simp] theorem complete_txMode (s : State) : (complete s).txMode = s.txMode := rfl
@[simp] theorem complete_bmpW (s : State) : (complete s).bmpW = s.bmpW := rfl
@[simp] theorem complete_bmpH (s : State) : (complete s).bmpH = s.bmpH := rfl
@[simp] theorem complete_bmp (s : State) : (complete s).bmp = s.bmp := rfl
@[simp] theorem complete_frmLen (s : State) : (complete s).frmLen = s.frmLen := rfl
@[simp] theorem complete_frm (s : State) : (complete s).frm = s.frm := rfl
@[simp] theorem complete_chunk (s : State) : (complete s).chunk = s.chunk := rfl
@[simp] theorem complete_txOff (s : State) : (complete s).txOff = s.txOff := rfl
@[simp] theorem complete_txReq (s : State) : (complete s).txReq = s.txReq := rfl
@[simp] theorem complete_txLog (s : State) : (complete s).txLog = s.txLog := rfl
@[simp] theorem complete_work (s : State) : (complete s).work = s.work := rfl
@[simp] theorem complete_srcOk (s : State) : (complete s).srcOk = s.srcOk := rfl
@[simp] theorem complete_src (s : State) : (complete s).src = s.src := rfl
@[simp] theorem complete_capWnr (s : State) : (complete s).capWnr = s.capWnr := rfl
@[simp] theorem complete_txAnswer (s : State) : (complete s).txAnswer = s.txAnswer := rfl
@[simp] theorem complete_held (s : State) : (complete s).held = s.held := rfl
@[simp] theorem complete_agenda (s : State) : (complete s).agenda = s.agenda := rfl
@[simp] theorem complete_hostData (s : State) : (complete s).hostData = s.hostData := rfl
@[simp] theorem complete_draws (s : State) : (complete s).draws = s.draws := rfl
@[simp] theorem complete_params (s : State) : (complete s).params = s.params := rfl

/-! `hold` -/

@[simp] theorem hold_seq (cw : Word) (s : State) : (hold cw s).seq = s.seq := rfl
@[simp] theorem hold_err (cw : Word) (s : State) : (hold cw s).err = s.err := rfl
@[simp] theorem hold_bmpValid (cw : Word) (s : State) : (hold cw s).bmpValid = s.bmpValid := rfl
@[simp] theorem hold_frmValid (cw : Word) (s : State) : (hold cw s).frmValid = s.frmValid := rfl
@[simp] theorem hold_txMode (cw : Word) (s : State) : (hold cw s).txMode = s.txMode := rfl
@[simp] theorem hold_bmpW (cw : Word) (s : State) : (hold cw s).bmpW = s.bmpW := rfl
@[simp] theorem hold_bmpH (cw : Word) (s : State) : (hold cw s).bmpH = s.bmpH := rfl
@[simp] theorem hold_bmp (cw : Word) (s : State) : (hold cw s).bmp = s.bmp := rfl
@[simp] theorem hold_frmLen (cw : Word) (s : State) : (hold cw s).frmLen = s.frmLen := rfl
@[simp] theorem hold_frm (cw : Word) (s : State) : (hold cw s).frm = s.frm := rfl
@[simp] theorem hold_chunk (cw : Word) (s : State) : (hold cw s).chunk = s.chunk := rfl
@[simp] theorem hold_txOff (cw : Word) (s : State) : (hold cw s).txOff = s.txOff := rfl
@[simp] theorem hold_txReq (cw : Word) (s : State) : (hold cw s).txReq = s.txReq := rfl
@[simp] theorem hold_txLog (cw : Word) (s : State) : (hold cw s).txLog = s.txLog := rfl
@[simp] theorem hold_work (cw : Word) (s : State) : (hold cw s).work = s.work := rfl
@[simp] theorem hold_srcOk (cw : Word) (s : State) : (hold cw s).srcOk = s.srcOk := rfl
@[simp] theorem hold_src (cw : Word) (s : State) : (hold cw s).src = s.src := rfl
@[simp] theorem hold_capWnr (cw : Word) (s : State) : (hold cw s).capWnr = s.capWnr := rfl
@[simp] theorem hold_txAnswer (cw : Word) (s : State) : (hold cw s).txAnswer = s.txAnswer := rfl
@[simp] theorem hold_held (cw : Word) (s : State) : (hold cw s).held = cw :: s.held := rfl
@[simp] theorem hold_agenda (cw : Word) (s : State) : (hold cw s).agenda = s.agenda := rfl
@[simp] theorem hold_hostData (cw : Word) (s : State) : (hold cw s).hostData = s.hostData := rfl
@[simp] theorem hold_draws (cw : Word) (s : State) : (hold cw s).draws = s.draws := rfl
@[simp] theorem hold_params (cw : Word) (s : State) : (hold cw s).params = s.params := rfl

/-! `commitBitmap` -/

@[simp] theorem commitBitmap_seq (w h : Half) (bs : List Byte) (s : State) : (commitBitmap w h bs s).seq = s.seq := rfl
@[simp] theorem commitBitmap_err (w h : Half) (bs : List Byte) (s : State) : (commitBitmap w h bs s).err = s.err := rfl
@[simp] theorem commitBitmap_bmpValid (w h : Half) (bs : List Byte) (s : State) : (commitBitmap w h bs s).bmpValid = true := rfl
@[simp] theorem commitBitmap_frmValid (w h : Half) (bs : List Byte) (s : State) : (commitBitmap w h bs s).frmValid = s.frmValid := rfl
@[simp] theorem commitBitmap_txMode (w h : Half) (bs : List Byte) (s : State) : (commitBitmap w h bs s).txMode = s.txMode := rfl
@[simp] theorem commitBitmap_bmpW (w h : Half) (bs : List Byte) (s : State) : (commitBitmap w h bs s).bmpW = w := rfl
@[simp] theorem commitBitmap_bmpH (w h : Half) (bs : List Byte) (s : State) : (commitBitmap w h bs s).bmpH = h := rfl
@[simp] theorem commitBitmap_bmp (w h : Half) (bs : List Byte) (s : State) : (commitBitmap w h bs s).bmp = Memory.ofBytes bs := rfl
@[simp] theorem commitBitmap_frmLen (w h : Half) (bs : List Byte) (s : State) : (commitBitmap w h bs s).frmLen = s.frmLen := rfl
@[simp] theorem commitBitmap_frm (w h : Half) (bs : List Byte) (s : State) : (commitBitmap w h bs s).frm = s.frm := rfl
@[simp] theorem commitBitmap_chunk (w h : Half) (bs : List Byte) (s : State) : (commitBitmap w h bs s).chunk = s.chunk := rfl
@[simp] theorem commitBitmap_txOff (w h : Half) (bs : List Byte) (s : State) : (commitBitmap w h bs s).txOff = s.txOff := rfl
@[simp] theorem commitBitmap_txReq (w h : Half) (bs : List Byte) (s : State) : (commitBitmap w h bs s).txReq = s.txReq := rfl
@[simp] theorem commitBitmap_txLog (w h : Half) (bs : List Byte) (s : State) : (commitBitmap w h bs s).txLog = s.txLog := rfl
@[simp] theorem commitBitmap_work (w h : Half) (bs : List Byte) (s : State) : (commitBitmap w h bs s).work = s.work := rfl
@[simp] theorem commitBitmap_srcOk (w h : Half) (bs : List Byte) (s : State) : (commitBitmap w h bs s).srcOk = s.srcOk := rfl
@[simp] theorem commitBitmap_src (w h : Half) (bs : List Byte) (s : State) : (commitBitmap w h bs s).src = s.src := rfl
@[simp] theorem commitBitmap_capWnr (w h : Half) (bs : List Byte) (s : State) : (commitBitmap w h bs s).capWnr = s.capWnr := rfl
@[simp] theorem commitBitmap_txAnswer (w h : Half) (bs : List Byte) (s : State) : (commitBitmap w h bs s).txAnswer = s.txAnswer := rfl
@[simp] theorem commitBitmap_held (w h : Half) (bs : List Byte) (s : State) : (commitBitmap w h bs s).held = s.held := rfl
@[simp] theorem commitBitmap_agenda (w h : Half) (bs : List Byte) (s : State) : (commitBitmap w h bs s).agenda = s.agenda := rfl
@[simp] theorem commitBitmap_hostData (w h : Half) (bs : List Byte) (s : State) : (commitBitmap w h bs s).hostData = s.hostData := rfl
@[simp] theorem commitBitmap_draws (w h : Half) (bs : List Byte) (s : State) : (commitBitmap w h bs s).draws = s.draws := rfl
@[simp] theorem commitBitmap_params (w h : Half) (bs : List Byte) (s : State) : (commitBitmap w h bs s).params = s.params := rfl

/-! `commitFrame` -/

@[simp] theorem commitFrame_seq (n : Word) (bs : List Byte) (s : State) : (commitFrame n bs s).seq = s.seq := rfl
@[simp] theorem commitFrame_err (n : Word) (bs : List Byte) (s : State) : (commitFrame n bs s).err = s.err := rfl
@[simp] theorem commitFrame_bmpValid (n : Word) (bs : List Byte) (s : State) : (commitFrame n bs s).bmpValid = s.bmpValid := rfl
@[simp] theorem commitFrame_frmValid (n : Word) (bs : List Byte) (s : State) : (commitFrame n bs s).frmValid = true := rfl
@[simp] theorem commitFrame_txMode (n : Word) (bs : List Byte) (s : State) : (commitFrame n bs s).txMode = s.txMode := rfl
@[simp] theorem commitFrame_bmpW (n : Word) (bs : List Byte) (s : State) : (commitFrame n bs s).bmpW = s.bmpW := rfl
@[simp] theorem commitFrame_bmpH (n : Word) (bs : List Byte) (s : State) : (commitFrame n bs s).bmpH = s.bmpH := rfl
@[simp] theorem commitFrame_bmp (n : Word) (bs : List Byte) (s : State) : (commitFrame n bs s).bmp = s.bmp := rfl
@[simp] theorem commitFrame_frmLen (n : Word) (bs : List Byte) (s : State) : (commitFrame n bs s).frmLen = n := rfl
@[simp] theorem commitFrame_frm (n : Word) (bs : List Byte) (s : State) : (commitFrame n bs s).frm = Memory.ofBytes bs := rfl
@[simp] theorem commitFrame_chunk (n : Word) (bs : List Byte) (s : State) : (commitFrame n bs s).chunk = s.chunk := rfl
@[simp] theorem commitFrame_txOff (n : Word) (bs : List Byte) (s : State) : (commitFrame n bs s).txOff = s.txOff := rfl
@[simp] theorem commitFrame_txReq (n : Word) (bs : List Byte) (s : State) : (commitFrame n bs s).txReq = s.txReq := rfl
@[simp] theorem commitFrame_txLog (n : Word) (bs : List Byte) (s : State) : (commitFrame n bs s).txLog = s.txLog := rfl
@[simp] theorem commitFrame_work (n : Word) (bs : List Byte) (s : State) : (commitFrame n bs s).work = s.work := rfl
@[simp] theorem commitFrame_srcOk (n : Word) (bs : List Byte) (s : State) : (commitFrame n bs s).srcOk = s.srcOk := rfl
@[simp] theorem commitFrame_src (n : Word) (bs : List Byte) (s : State) : (commitFrame n bs s).src = s.src := rfl
@[simp] theorem commitFrame_capWnr (n : Word) (bs : List Byte) (s : State) : (commitFrame n bs s).capWnr = s.capWnr := rfl
@[simp] theorem commitFrame_txAnswer (n : Word) (bs : List Byte) (s : State) : (commitFrame n bs s).txAnswer = s.txAnswer := rfl
@[simp] theorem commitFrame_held (n : Word) (bs : List Byte) (s : State) : (commitFrame n bs s).held = s.held := rfl
@[simp] theorem commitFrame_agenda (n : Word) (bs : List Byte) (s : State) : (commitFrame n bs s).agenda = s.agenda := rfl
@[simp] theorem commitFrame_hostData (n : Word) (bs : List Byte) (s : State) : (commitFrame n bs s).hostData = s.hostData := rfl
@[simp] theorem commitFrame_draws (n : Word) (bs : List Byte) (s : State) : (commitFrame n bs s).draws = s.draws := rfl
@[simp] theorem commitFrame_params (n : Word) (bs : List Byte) (s : State) : (commitFrame n bs s).params = s.params := rfl

/-! `selectMode` -/

@[simp] theorem selectMode_seq (c : Half) (s : State) : (selectMode c s).seq = .sndIssue := rfl
@[simp] theorem selectMode_err (c : Half) (s : State) : (selectMode c s).err = s.err := rfl
@[simp] theorem selectMode_bmpValid (c : Half) (s : State) : (selectMode c s).bmpValid = s.bmpValid := rfl
@[simp] theorem selectMode_frmValid (c : Half) (s : State) : (selectMode c s).frmValid = s.frmValid := rfl
@[simp] theorem selectMode_txMode (c : Half) (s : State) : (selectMode c s).txMode = modeOfCapability s.capWnr := rfl
@[simp] theorem selectMode_bmpW (c : Half) (s : State) : (selectMode c s).bmpW = s.bmpW := rfl
@[simp] theorem selectMode_bmpH (c : Half) (s : State) : (selectMode c s).bmpH = s.bmpH := rfl
@[simp] theorem selectMode_bmp (c : Half) (s : State) : (selectMode c s).bmp = s.bmp := rfl
@[simp] theorem selectMode_frmLen (c : Half) (s : State) : (selectMode c s).frmLen = s.frmLen := rfl
@[simp] theorem selectMode_frm (c : Half) (s : State) : (selectMode c s).frm = s.frm := rfl
@[simp] theorem selectMode_chunk (c : Half) (s : State) : (selectMode c s).chunk = c := rfl
@[simp] theorem selectMode_txOff (c : Half) (s : State) : (selectMode c s).txOff = 0#32 := rfl
@[simp] theorem selectMode_txReq (c : Half) (s : State) : (selectMode c s).txReq = s.txReq := rfl
@[simp] theorem selectMode_txLog (c : Half) (s : State) : (selectMode c s).txLog = s.txLog := rfl
@[simp] theorem selectMode_work (c : Half) (s : State) : (selectMode c s).work = s.work := rfl
@[simp] theorem selectMode_srcOk (c : Half) (s : State) : (selectMode c s).srcOk = s.srcOk := rfl
@[simp] theorem selectMode_src (c : Half) (s : State) : (selectMode c s).src = s.src := rfl
@[simp] theorem selectMode_capWnr (c : Half) (s : State) : (selectMode c s).capWnr = s.capWnr := rfl
@[simp] theorem selectMode_txAnswer (c : Half) (s : State) : (selectMode c s).txAnswer = s.txAnswer := rfl
@[simp] theorem selectMode_held (c : Half) (s : State) : (selectMode c s).held = s.held := rfl
@[simp] theorem selectMode_agenda (c : Half) (s : State) : (selectMode c s).agenda = s.agenda := rfl
@[simp] theorem selectMode_hostData (c : Half) (s : State) : (selectMode c s).hostData = s.hostData := rfl
@[simp] theorem selectMode_draws (c : Half) (s : State) : (selectMode c s).draws = s.draws := rfl
@[simp] theorem selectMode_params (c : Half) (s : State) : (selectMode c s).params = s.params := rfl

/-! `txWrite` -/

@[simp] theorem txWrite_seq (m : WriteMode) (bs : List Byte) (s : State) : (txWrite m bs s).seq = s.seq := rfl
@[simp] theorem txWrite_err (m : WriteMode) (bs : List Byte) (s : State) : (txWrite m bs s).err = s.err := rfl
@[simp] theorem txWrite_bmpValid (m : WriteMode) (bs : List Byte) (s : State) : (txWrite m bs s).bmpValid = s.bmpValid := rfl
@[simp] theorem txWrite_frmValid (m : WriteMode) (bs : List Byte) (s : State) : (txWrite m bs s).frmValid = s.frmValid := rfl
@[simp] theorem txWrite_txMode (m : WriteMode) (bs : List Byte) (s : State) : (txWrite m bs s).txMode = s.txMode := rfl
@[simp] theorem txWrite_bmpW (m : WriteMode) (bs : List Byte) (s : State) : (txWrite m bs s).bmpW = s.bmpW := rfl
@[simp] theorem txWrite_bmpH (m : WriteMode) (bs : List Byte) (s : State) : (txWrite m bs s).bmpH = s.bmpH := rfl
@[simp] theorem txWrite_bmp (m : WriteMode) (bs : List Byte) (s : State) : (txWrite m bs s).bmp = s.bmp := rfl
@[simp] theorem txWrite_frmLen (m : WriteMode) (bs : List Byte) (s : State) : (txWrite m bs s).frmLen = s.frmLen := rfl
@[simp] theorem txWrite_frm (m : WriteMode) (bs : List Byte) (s : State) : (txWrite m bs s).frm = s.frm := rfl
@[simp] theorem txWrite_chunk (m : WriteMode) (bs : List Byte) (s : State) : (txWrite m bs s).chunk = s.chunk := rfl
@[simp] theorem txWrite_txOff (m : WriteMode) (bs : List Byte) (s : State) : (txWrite m bs s).txOff = s.txOff := rfl
@[simp] theorem txWrite_txReq (m : WriteMode) (bs : List Byte) (s : State) : (txWrite m bs s).txReq = some ⟨m, bs⟩ := rfl
@[simp] theorem txWrite_txLog (m : WriteMode) (bs : List Byte) (s : State) : (txWrite m bs s).txLog = s.txLog ++ [⟨m, bs, .pending⟩] := rfl
@[simp] theorem txWrite_work (m : WriteMode) (bs : List Byte) (s : State) : (txWrite m bs s).work = s.work := rfl
@[simp] theorem txWrite_srcOk (m : WriteMode) (bs : List Byte) (s : State) : (txWrite m bs s).srcOk = s.srcOk := rfl
@[simp] theorem txWrite_src (m : WriteMode) (bs : List Byte) (s : State) : (txWrite m bs s).src = s.src := rfl
@[simp] theorem txWrite_capWnr (m : WriteMode) (bs : List Byte) (s : State) : (txWrite m bs s).capWnr = s.capWnr := rfl
@[simp] theorem txWrite_txAnswer (m : WriteMode) (bs : List Byte) (s : State) : (txWrite m bs s).txAnswer = s.txAnswer := rfl
@[simp] theorem txWrite_held (m : WriteMode) (bs : List Byte) (s : State) : (txWrite m bs s).held = s.held := rfl
@[simp] theorem txWrite_agenda (m : WriteMode) (bs : List Byte) (s : State) : (txWrite m bs s).agenda = s.agenda := rfl
@[simp] theorem txWrite_hostData (m : WriteMode) (bs : List Byte) (s : State) : (txWrite m bs s).hostData = s.hostData := rfl
@[simp] theorem txWrite_draws (m : WriteMode) (bs : List Byte) (s : State) : (txWrite m bs s).draws = s.draws := rfl
@[simp] theorem txWrite_params (m : WriteMode) (bs : List Byte) (s : State) : (txWrite m bs s).params = s.params := rfl

/-! `answerFail` -/

@[simp] theorem answerFail_seq (s : State) : (answerFail s).seq = .idle := rfl
@[simp] theorem answerFail_err (s : State) : (answerFail s).err = .transportWriteFailure := rfl
@[simp] theorem answerFail_bmpValid (s : State) : (answerFail s).bmpValid = s.bmpValid := rfl
@[simp] theorem answerFail_frmValid (s : State) : (answerFail s).frmValid = s.frmValid := rfl
@[simp] theorem answerFail_txMode (s : State) : (answerFail s).txMode = s.txMode := rfl
@[simp] theorem answerFail_bmpW (s : State) : (answerFail s).bmpW = s.bmpW := rfl
@[simp] theorem answerFail_bmpH (s : State) : (answerFail s).bmpH = s.bmpH := rfl
@[simp] theorem answerFail_bmp (s : State) : (answerFail s).bmp = s.bmp := rfl
@[simp] theorem answerFail_frmLen (s : State) : (answerFail s).frmLen = s.frmLen := rfl
@[simp] theorem answerFail_frm (s : State) : (answerFail s).frm = s.frm := rfl
@[simp] theorem answerFail_chunk (s : State) : (answerFail s).chunk = s.chunk := rfl
@[simp] theorem answerFail_txOff (s : State) : (answerFail s).txOff = s.txOff := rfl
@[simp] theorem answerFail_txReq (s : State) : (answerFail s).txReq = none := rfl
@[simp] theorem answerFail_txLog (s : State) : (answerFail s).txLog = settleLast .fail s.txLog := rfl
@[simp] theorem answerFail_work (s : State) : (answerFail s).work = s.work := rfl
@[simp] theorem answerFail_srcOk (s : State) : (answerFail s).srcOk = s.srcOk := rfl
@[simp] theorem answerFail_src (s : State) : (answerFail s).src = s.src := rfl
@[simp] theorem answerFail_capWnr (s : State) : (answerFail s).capWnr = s.capWnr := rfl
@[simp] theorem answerFail_txAnswer (s : State) : (answerFail s).txAnswer = none := rfl
@[simp] theorem answerFail_held (s : State) : (answerFail s).held = s.held := rfl
@[simp] theorem answerFail_agenda (s : State) : (answerFail s).agenda = s.agenda := rfl
@[simp] theorem answerFail_hostData (s : State) : (answerFail s).hostData = s.hostData := rfl
@[simp] theorem answerFail_draws (s : State) : (answerFail s).draws = s.draws := rfl
@[simp] theorem answerFail_params (s : State) : (answerFail s).params = s.params := rfl

/-! `answerRead` -/

@[simp] theorem answerRead_seq (v : HostData) (s : State) : (answerRead v s).seq = s.seq := rfl
@[simp] theorem answerRead_err (v : HostData) (s : State) : (answerRead v s).err = s.err := rfl
@[simp] theorem answerRead_bmpValid (v : HostData) (s : State) : (answerRead v s).bmpValid = s.bmpValid := rfl
@[simp] theorem answerRead_frmValid (v : HostData) (s : State) : (answerRead v s).frmValid = s.frmValid := rfl
@[simp] theorem answerRead_txMode (v : HostData) (s : State) : (answerRead v s).txMode = s.txMode := rfl
@[simp] theorem answerRead_bmpW (v : HostData) (s : State) : (answerRead v s).bmpW = s.bmpW := rfl
@[simp] theorem answerRead_bmpH (v : HostData) (s : State) : (answerRead v s).bmpH = s.bmpH := rfl
@[simp] theorem answerRead_bmp (v : HostData) (s : State) : (answerRead v s).bmp = s.bmp := rfl
@[simp] theorem answerRead_frmLen (v : HostData) (s : State) : (answerRead v s).frmLen = s.frmLen := rfl
@[simp] theorem answerRead_frm (v : HostData) (s : State) : (answerRead v s).frm = s.frm := rfl
@[simp] theorem answerRead_chunk (v : HostData) (s : State) : (answerRead v s).chunk = s.chunk := rfl
@[simp] theorem answerRead_txOff (v : HostData) (s : State) : (answerRead v s).txOff = s.txOff := rfl
@[simp] theorem answerRead_txReq (v : HostData) (s : State) : (answerRead v s).txReq = s.txReq := rfl
@[simp] theorem answerRead_txLog (v : HostData) (s : State) : (answerRead v s).txLog = s.txLog := rfl
@[simp] theorem answerRead_work (v : HostData) (s : State) : (answerRead v s).work = s.work := rfl
@[simp] theorem answerRead_srcOk (v : HostData) (s : State) : (answerRead v s).srcOk = s.srcOk := rfl
@[simp] theorem answerRead_src (v : HostData) (s : State) : (answerRead v s).src = s.src := rfl
@[simp] theorem answerRead_capWnr (v : HostData) (s : State) : (answerRead v s).capWnr = s.capWnr := rfl
@[simp] theorem answerRead_txAnswer (v : HostData) (s : State) : (answerRead v s).txAnswer = s.txAnswer := rfl
@[simp] theorem answerRead_held (v : HostData) (s : State) : (answerRead v s).held = s.held := rfl
@[simp] theorem answerRead_agenda (v : HostData) (s : State) : (answerRead v s).agenda = s.agenda := rfl
@[simp] theorem answerRead_hostData (v : HostData) (s : State) : (answerRead v s).hostData = some v := rfl
@[simp] theorem answerRead_draws (v : HostData) (s : State) : (answerRead v s).draws = s.draws := rfl
@[simp] theorem answerRead_params (v : HostData) (s : State) : (answerRead v s).params = s.params := rfl

/-! `answerFreeRead` -/

@[simp] theorem answerFreeRead_seq (n : Nat) (s : State) : (answerFreeRead n s).seq = s.seq := rfl
@[simp] theorem answerFreeRead_err (n : Nat) (s : State) : (answerFreeRead n s).err = s.err := rfl
@[simp] theorem answerFreeRead_bmpValid (n : Nat) (s : State) : (answerFreeRead n s).bmpValid = s.bmpValid := rfl
@[simp] theorem answerFreeRead_frmValid (n : Nat) (s : State) : (answerFreeRead n s).frmValid = s.frmValid := rfl
@[simp] theorem answerFreeRead_txMode (n : Nat) (s : State) : (answerFreeRead n s).txMode = s.txMode := rfl
@[simp] theorem answerFreeRead_bmpW (n : Nat) (s : State) : (answerFreeRead n s).bmpW = s.bmpW := rfl
@[simp] theorem answerFreeRead_bmpH (n : Nat) (s : State) : (answerFreeRead n s).bmpH = s.bmpH := rfl
@[simp] theorem answerFreeRead_bmp (n : Nat) (s : State) : (answerFreeRead n s).bmp = s.bmp := rfl
@[simp] theorem answerFreeRead_frmLen (n : Nat) (s : State) : (answerFreeRead n s).frmLen = s.frmLen := rfl
@[simp] theorem answerFreeRead_frm (n : Nat) (s : State) : (answerFreeRead n s).frm = s.frm := rfl
@[simp] theorem answerFreeRead_chunk (n : Nat) (s : State) : (answerFreeRead n s).chunk = s.chunk := rfl
@[simp] theorem answerFreeRead_txOff (n : Nat) (s : State) : (answerFreeRead n s).txOff = s.txOff := rfl
@[simp] theorem answerFreeRead_txReq (n : Nat) (s : State) : (answerFreeRead n s).txReq = s.txReq := rfl
@[simp] theorem answerFreeRead_txLog (n : Nat) (s : State) : (answerFreeRead n s).txLog = s.txLog := rfl
@[simp] theorem answerFreeRead_work (n : Nat) (s : State) : (answerFreeRead n s).work = s.work := rfl
@[simp] theorem answerFreeRead_srcOk (n : Nat) (s : State) : (answerFreeRead n s).srcOk = s.srcOk := rfl
@[simp] theorem answerFreeRead_src (n : Nat) (s : State) : (answerFreeRead n s).src = s.src := rfl
@[simp] theorem answerFreeRead_capWnr (n : Nat) (s : State) : (answerFreeRead n s).capWnr = s.capWnr := rfl
@[simp] theorem answerFreeRead_txAnswer (n : Nat) (s : State) : (answerFreeRead n s).txAnswer = s.txAnswer := rfl
@[simp] theorem answerFreeRead_held (n : Nat) (s : State) : (answerFreeRead n s).held = s.held := rfl
@[simp] theorem answerFreeRead_agenda (n : Nat) (s : State) : (answerFreeRead n s).agenda = s.agenda := rfl
@[simp] theorem answerFreeRead_hostData (n : Nat) (s : State) : (answerFreeRead n s).hostData = some (.word (Config.freeRegister s.draws n)) := rfl
@[simp] theorem answerFreeRead_draws (n : Nat) (s : State) : (answerFreeRead n s).draws = s.draws + 1 := rfl
@[simp] theorem answerFreeRead_params (n : Nat) (s : State) : (answerFreeRead n s).params = s.params := rfl

/-! `presentMove` -/

@[simp] theorem presentMove_seq (ok : Bool) (r : Raster) (s : State) : (presentMove ok r s).seq = s.seq := rfl
@[simp] theorem presentMove_err (ok : Bool) (r : Raster) (s : State) : (presentMove ok r s).err = s.err := rfl
@[simp] theorem presentMove_bmpValid (ok : Bool) (r : Raster) (s : State) : (presentMove ok r s).bmpValid = s.bmpValid := rfl
@[simp] theorem presentMove_frmValid (ok : Bool) (r : Raster) (s : State) : (presentMove ok r s).frmValid = s.frmValid := rfl
@[simp] theorem presentMove_txMode (ok : Bool) (r : Raster) (s : State) : (presentMove ok r s).txMode = s.txMode := rfl
@[simp] theorem presentMove_bmpW (ok : Bool) (r : Raster) (s : State) : (presentMove ok r s).bmpW = s.bmpW := rfl
@[simp] theorem presentMove_bmpH (ok : Bool) (r : Raster) (s : State) : (presentMove ok r s).bmpH = s.bmpH := rfl
@[simp] theorem presentMove_bmp (ok : Bool) (r : Raster) (s : State) : (presentMove ok r s).bmp = s.bmp := rfl
@[simp] theorem presentMove_frmLen (ok : Bool) (r : Raster) (s : State) : (presentMove ok r s).frmLen = s.frmLen := rfl
@[simp] theorem presentMove_frm (ok : Bool) (r : Raster) (s : State) : (presentMove ok r s).frm = s.frm := rfl
@[simp] theorem presentMove_chunk (ok : Bool) (r : Raster) (s : State) : (presentMove ok r s).chunk = s.chunk := rfl
@[simp] theorem presentMove_txOff (ok : Bool) (r : Raster) (s : State) : (presentMove ok r s).txOff = s.txOff := rfl
@[simp] theorem presentMove_txReq (ok : Bool) (r : Raster) (s : State) : (presentMove ok r s).txReq = s.txReq := rfl
@[simp] theorem presentMove_txLog (ok : Bool) (r : Raster) (s : State) : (presentMove ok r s).txLog = s.txLog := rfl
@[simp] theorem presentMove_work (ok : Bool) (r : Raster) (s : State) : (presentMove ok r s).work = s.work := rfl
@[simp] theorem presentMove_srcOk (ok : Bool) (r : Raster) (s : State) : (presentMove ok r s).srcOk = ok := rfl
@[simp] theorem presentMove_src (ok : Bool) (r : Raster) (s : State) : (presentMove ok r s).src = r := rfl
@[simp] theorem presentMove_capWnr (ok : Bool) (r : Raster) (s : State) : (presentMove ok r s).capWnr = s.capWnr := rfl
@[simp] theorem presentMove_txAnswer (ok : Bool) (r : Raster) (s : State) : (presentMove ok r s).txAnswer = s.txAnswer := rfl
@[simp] theorem presentMove_held (ok : Bool) (r : Raster) (s : State) : (presentMove ok r s).held = s.held := rfl
@[simp] theorem presentMove_agenda (ok : Bool) (r : Raster) (s : State) : (presentMove ok r s).agenda = s.agenda := rfl
@[simp] theorem presentMove_hostData (ok : Bool) (r : Raster) (s : State) : (presentMove ok r s).hostData = s.hostData := rfl
@[simp] theorem presentMove_draws (ok : Bool) (r : Raster) (s : State) : (presentMove ok r s).draws = s.draws := rfl
@[simp] theorem presentMove_params (ok : Bool) (r : Raster) (s : State) : (presentMove ok r s).params = s.params := rfl

/-! `capabilityMove` -/

@[simp] theorem capabilityMove_seq (b : Bool) (s : State) : (capabilityMove b s).seq = s.seq := rfl
@[simp] theorem capabilityMove_err (b : Bool) (s : State) : (capabilityMove b s).err = s.err := rfl
@[simp] theorem capabilityMove_bmpValid (b : Bool) (s : State) : (capabilityMove b s).bmpValid = s.bmpValid := rfl
@[simp] theorem capabilityMove_frmValid (b : Bool) (s : State) : (capabilityMove b s).frmValid = s.frmValid := rfl
@[simp] theorem capabilityMove_txMode (b : Bool) (s : State) : (capabilityMove b s).txMode = s.txMode := rfl
@[simp] theorem capabilityMove_bmpW (b : Bool) (s : State) : (capabilityMove b s).bmpW = s.bmpW := rfl
@[simp] theorem capabilityMove_bmpH (b : Bool) (s : State) : (capabilityMove b s).bmpH = s.bmpH := rfl
@[simp] theorem capabilityMove_bmp (b : Bool) (s : State) : (capabilityMove b s).bmp = s.bmp := rfl
@[simp] theorem capabilityMove_frmLen (b : Bool) (s : State) : (capabilityMove b s).frmLen = s.frmLen := rfl
@[simp] theorem capabilityMove_frm (b : Bool) (s : State) : (capabilityMove b s).frm = s.frm := rfl
@[simp] theorem capabilityMove_chunk (b : Bool) (s : State) : (capabilityMove b s).chunk = s.chunk := rfl
@[simp] theorem capabilityMove_txOff (b : Bool) (s : State) : (capabilityMove b s).txOff = s.txOff := rfl
@[simp] theorem capabilityMove_txReq (b : Bool) (s : State) : (capabilityMove b s).txReq = s.txReq := rfl
@[simp] theorem capabilityMove_txLog (b : Bool) (s : State) : (capabilityMove b s).txLog = s.txLog := rfl
@[simp] theorem capabilityMove_work (b : Bool) (s : State) : (capabilityMove b s).work = s.work := rfl
@[simp] theorem capabilityMove_srcOk (b : Bool) (s : State) : (capabilityMove b s).srcOk = s.srcOk := rfl
@[simp] theorem capabilityMove_src (b : Bool) (s : State) : (capabilityMove b s).src = s.src := rfl
@[simp] theorem capabilityMove_capWnr (b : Bool) (s : State) : (capabilityMove b s).capWnr = b := rfl
@[simp] theorem capabilityMove_txAnswer (b : Bool) (s : State) : (capabilityMove b s).txAnswer = s.txAnswer := rfl
@[simp] theorem capabilityMove_held (b : Bool) (s : State) : (capabilityMove b s).held = s.held := rfl
@[simp] theorem capabilityMove_agenda (b : Bool) (s : State) : (capabilityMove b s).agenda = s.agenda := rfl
@[simp] theorem capabilityMove_hostData (b : Bool) (s : State) : (capabilityMove b s).hostData = s.hostData := rfl
@[simp] theorem capabilityMove_draws (b : Bool) (s : State) : (capabilityMove b s).draws = s.draws := rfl
@[simp] theorem capabilityMove_params (b : Bool) (s : State) : (capabilityMove b s).params = s.params := rfl

/-! `resetCore` -/

@[simp] theorem resetCore_seq (s : State) : (resetCore s).seq = .idle := rfl
@[simp] theorem resetCore_err (s : State) : (resetCore s).err = .ok := rfl
@[simp] theorem resetCore_bmpValid (s : State) : (resetCore s).bmpValid = false := rfl
@[simp] theorem resetCore_frmValid (s : State) : (resetCore s).frmValid = false := rfl
@[simp] theorem resetCore_txMode (s : State) : (resetCore s).txMode = .acknowledged := rfl
@[simp] theorem resetCore_bmpW (s : State) : (resetCore s).bmpW = 0#16 := rfl
@[simp] theorem resetCore_bmpH (s : State) : (resetCore s).bmpH = 0#16 := rfl
@[simp] theorem resetCore_bmp (s : State) : (resetCore s).bmp = [] := rfl
@[simp] theorem resetCore_frmLen (s : State) : (resetCore s).frmLen = 0#32 := rfl
@[simp] theorem resetCore_frm (s : State) : (resetCore s).frm = [] := rfl
@[simp] theorem resetCore_chunk (s : State) : (resetCore s).chunk = Config.chunkDefault := rfl
@[simp] theorem resetCore_txOff (s : State) : (resetCore s).txOff = 0#32 := rfl
@[simp] theorem resetCore_txReq (s : State) : (resetCore s).txReq = none := rfl
@[simp] theorem resetCore_txLog (s : State) : (resetCore s).txLog = [] := rfl
@[simp] theorem resetCore_work (s : State) : (resetCore s).work = Work.empty := rfl
@[simp] theorem resetCore_srcOk (s : State) : (resetCore s).srcOk = s.srcOk := rfl
@[simp] theorem resetCore_src (s : State) : (resetCore s).src = s.src := rfl
@[simp] theorem resetCore_capWnr (s : State) : (resetCore s).capWnr = s.capWnr := rfl
@[simp] theorem resetCore_txAnswer (s : State) : (resetCore s).txAnswer = none := rfl
@[simp] theorem resetCore_held (s : State) : (resetCore s).held = s.held := rfl
@[simp] theorem resetCore_agenda (s : State) : (resetCore s).agenda = s.agenda := rfl
@[simp] theorem resetCore_hostData (s : State) : (resetCore s).hostData = s.hostData := rfl
@[simp] theorem resetCore_draws (s : State) : (resetCore s).draws = s.draws := rfl
@[simp] theorem resetCore_params (s : State) : (resetCore s).params = s.params := rfl

/-! `answerOk` -/

@[simp] theorem answerOk_bmpValid (r : TxRequest) (s : State) : (answerOk r s).bmpValid = s.bmpValid := by
  unfold answerOk; dsimp only; split <;> rfl
@[simp] theorem answerOk_frmValid (r : TxRequest) (s : State) : (answerOk r s).frmValid = s.frmValid := by
  unfold answerOk; dsimp only; split <;> rfl
@[simp] theorem answerOk_txMode (r : TxRequest) (s : State) : (answerOk r s).txMode = s.txMode := by
  unfold answerOk; dsimp only; split <;> rfl
@[simp] theorem answerOk_bmpW (r : TxRequest) (s : State) : (answerOk r s).bmpW = s.bmpW := by
  unfold answerOk; dsimp only; split <;> rfl
@[simp] theorem answerOk_bmpH (r : TxRequest) (s : State) : (answerOk r s).bmpH = s.bmpH := by
  unfold answerOk; dsimp only; split <;> rfl
@[simp] theorem answerOk_bmp (r : TxRequest) (s : State) : (answerOk r s).bmp = s.bmp := by
  unfold answerOk; dsimp only; split <;> rfl
@[simp] theorem answerOk_frmLen (r : TxRequest) (s : State) : (answerOk r s).frmLen = s.frmLen := by
  unfold answerOk; dsimp only; split <;> rfl
@[simp] theorem answerOk_frm (r : TxRequest) (s : State) : (answerOk r s).frm = s.frm := by
  unfold answerOk; dsimp only; split <;> rfl
@[simp] theorem answerOk_chunk (r : TxRequest) (s : State) : (answerOk r s).chunk = s.chunk := by
  unfold answerOk; dsimp only; split <;> rfl
@[simp] theorem answerOk_work (r : TxRequest) (s : State) : (answerOk r s).work = s.work := by
  unfold answerOk; dsimp only; split <;> rfl
@[simp] theorem answerOk_srcOk (r : TxRequest) (s : State) : (answerOk r s).srcOk = s.srcOk := by
  unfold answerOk; dsimp only; split <;> rfl
@[simp] theorem answerOk_src (r : TxRequest) (s : State) : (answerOk r s).src = s.src := by
  unfold answerOk; dsimp only; split <;> rfl
@[simp] theorem answerOk_capWnr (r : TxRequest) (s : State) : (answerOk r s).capWnr = s.capWnr := by
  unfold answerOk; dsimp only; split <;> rfl
@[simp] theorem answerOk_held (r : TxRequest) (s : State) : (answerOk r s).held = s.held := by
  unfold answerOk; dsimp only; split <;> rfl
@[simp] theorem answerOk_agenda (r : TxRequest) (s : State) : (answerOk r s).agenda = s.agenda := by
  unfold answerOk; dsimp only; split <;> rfl
@[simp] theorem answerOk_hostData (r : TxRequest) (s : State) : (answerOk r s).hostData = s.hostData := by
  unfold answerOk; dsimp only; split <;> rfl
@[simp] theorem answerOk_draws (r : TxRequest) (s : State) : (answerOk r s).draws = s.draws := by
  unfold answerOk; dsimp only; split <;> rfl
@[simp] theorem answerOk_params (r : TxRequest) (s : State) : (answerOk r s).params = s.params := by
  unfold answerOk; dsimp only; split <;> rfl
@[simp] theorem answerOk_txReq (r : TxRequest) (s : State) : (answerOk r s).txReq = none := by
  unfold answerOk; dsimp only; split <;> rfl
@[simp] theorem answerOk_txAnswer (r : TxRequest) (s : State) : (answerOk r s).txAnswer = none := by
  unfold answerOk; dsimp only; split <;> rfl
@[simp] theorem answerOk_txOff (r : TxRequest) (s : State) : (answerOk r s).txOff = s.txOff + BitVec.ofNat 32 r.bytes.length := by
  unfold answerOk; dsimp only; split <;> rfl
@[simp] theorem answerOk_txLog (r : TxRequest) (s : State) : (answerOk r s).txLog = settleLast .ok s.txLog := by
  unfold answerOk; dsimp only; split <;> rfl
theorem answerOk_seq (r : TxRequest) (s : State) :
    (answerOk r s).seq = if s.txOff + BitVec.ofNat 32 r.bytes.length = s.frmLen then .idle else .sndIssue := by
  unfold answerOk; dsimp only; split <;> rfl
theorem answerOk_err (r : TxRequest) (s : State) :
    (answerOk r s).err = if s.txOff + BitVec.ofNat 32 r.bytes.length = s.frmLen then .ok else s.err := by
  unfold answerOk; dsimp only; split <;> rfl

/-! `drawn` -/

@[simp] theorem drawn_seq (s : State) : (drawn s).seq = s.seq := rfl
@[simp] theorem drawn_err (s : State) : (drawn s).err = s.err := rfl
@[simp] theorem drawn_bmpValid (s : State) : (drawn s).bmpValid = s.bmpValid := rfl
@[simp] theorem drawn_frmValid (s : State) : (drawn s).frmValid = s.frmValid := rfl
@[simp] theorem drawn_txMode (s : State) : (drawn s).txMode = s.txMode := rfl
@[simp] theorem drawn_bmpW (s : State) : (drawn s).bmpW = s.bmpW := rfl
@[simp] theorem drawn_bmpH (s : State) : (drawn s).bmpH = s.bmpH := rfl
@[simp] theorem drawn_bmp (s : State) : (drawn s).bmp = s.bmp := rfl
@[simp] theorem drawn_frmLen (s : State) : (drawn s).frmLen = s.frmLen := rfl
@[simp] theorem drawn_frm (s : State) : (drawn s).frm = s.frm := rfl
@[simp] theorem drawn_chunk (s : State) : (drawn s).chunk = s.chunk := rfl
@[simp] theorem drawn_txOff (s : State) : (drawn s).txOff = s.txOff := rfl
@[simp] theorem drawn_txReq (s : State) : (drawn s).txReq = s.txReq := rfl
@[simp] theorem drawn_txLog (s : State) : (drawn s).txLog = s.txLog := rfl
@[simp] theorem drawn_work (s : State) : (drawn s).work = s.work := rfl
@[simp] theorem drawn_srcOk (s : State) : (drawn s).srcOk = s.srcOk := rfl
@[simp] theorem drawn_src (s : State) : (drawn s).src = s.src := rfl
@[simp] theorem drawn_capWnr (s : State) : (drawn s).capWnr = s.capWnr := rfl
@[simp] theorem drawn_txAnswer (s : State) : (drawn s).txAnswer = s.txAnswer := rfl
@[simp] theorem drawn_held (s : State) : (drawn s).held = s.held := rfl
@[simp] theorem drawn_agenda (s : State) : (drawn s).agenda = s.agenda := rfl
@[simp] theorem drawn_hostData (s : State) : (drawn s).hostData = s.hostData := rfl
@[simp] theorem drawn_draws (s : State) : (drawn s).draws = s.draws + 1 := rfl
@[simp] theorem drawn_params (s : State) : (drawn s).params = s.params := rfl

end Sys2Proof.Machine
end

