-- ==== Sys2Proof/Laws/Fetch.lean ====
section
/-! SUPPORT. What the operations that may draw a free value can do: where everything they read is there they draw none,
and they change nothing but the count of free values (log 1, log 22 to 25). -/

namespace Sys2Proof.Machine

/-- A byte that has been written is read as it is. -/
theorem fetchByte_of_read {m : Memory} {a : Nat} {b : Byte} (s : State) (h : Memory.read m a = some b) :
    fetchByte m a s = (b, s) := by simp only [fetchByte, h]

/-- Reading a byte changes at most the count of free values. -/
theorem fetchByte_cases (m : Memory) (a : Nat) (s : State) :
    ∃ b k, fetchByte m a s = (b, { s with draws := k }) ∧ ∀ c, Memory.read m a = some c → b = c := by
  unfold fetchByte
  split
  · rename_i b hb; exact ⟨b, s.draws, rfl, fun c hc => Option.some.inj (hb.symm.trans hc)⟩
  · rename_i hb; exact ⟨_, s.draws + 1, rfl, fun c hc => by rw [hb] at hc; cases hc⟩

/-- Bytes that have all been written are read as they are. -/
theorem fetchBytes_of_readRange {m : Memory} {a n : Nat} {bs : List Byte} (s : State)
    (h : Memory.readRange m a n = some bs) : fetchBytes m a n s = (bs, s) := by
  induction n generalizing a bs with
  | zero => cases h; rfl
  | succ n ih =>
    rw [Memory.readRange] at h
    split at h
    case h_2 => cases h
    case h_1 b rest hb hr =>
      cases h
      simp only [fetchBytes, fetchByte_of_read s hb, ih hr]

/-- Reading bytes gives as many as asked for, those that have been written among them as they are, and changes at most
the count of free values. -/
theorem fetchBytes_cases (m : Memory) (a n : Nat) (s : State) :
    ∃ bs k, fetchBytes m a n s = (bs, { s with draws := k }) ∧ bs.length = n ∧
      ∀ i, i < n → ∀ c, Memory.read m (a + i) = some c → bs[i]? = some c := by
  induction n generalizing a s with
  | zero => exact ⟨[], s.draws, rfl, rfl, fun i hi => absurd hi (Nat.not_lt_zero i)⟩
  | succ n ih =>
    obtain ⟨b, k, hb, hbc⟩ := fetchByte_cases m a s
    obtain ⟨bs, k', hbs, hl, hc⟩ := ih (a + 1) { s with draws := k }
    refine ⟨b :: bs, k', ?_, by simp [hl], fun i hi c hr => ?_⟩
    · simp only [fetchBytes, hb, hbs]
    · cases i with
      | zero => rw [hbc c hr]; rfl
      | succ i =>
        rw [List.getElem?_cons_succ]
        exact hc i (by omega) c (by rw [← hr]; congr 1; omega)

/-- Where its precondition holds, `CHK` cuts the chunk at `TX_OFF` (44_chunk R113). -/
theorem nextSlice_eq (s : State) (h : s.txOff.toNat < s.frmLen.toNat) (hc : 1 ≤ s.chunk.toNat) :
    nextSlice s = (⟨s.txOff.toNat, min s.chunk.toNat (s.frmLen.toNat - s.txOff.toNat)⟩, s) := by
  simp only [nextSlice, h, hc, and_self, if_true]

/-- `CHK` cuts a chunk at `TX_OFF`, and changes at most the count of free values. -/
theorem nextSlice_cases (s : State) : ∃ n k, nextSlice s = (⟨s.txOff.toNat, n⟩, { s with draws := k }) := by
  unfold nextSlice
  split
  · exact ⟨_, s.draws, rfl⟩
  · exact ⟨_, s.draws + 1, rfl⟩

/-- Where the chunk is there, it is what `WR` issues (44_chunk R114). -/
theorem nextChunk_eq {s : State} {bytes : List Byte} (h : s.txOff.toNat < s.frmLen.toNat) (hc : 1 ≤ s.chunk.toNat)
    (hr : Memory.readRange s.frm s.txOff.toNat (min s.chunk.toNat (s.frmLen.toNat - s.txOff.toNat)) = some bytes) :
    nextChunk s = (bytes, s) := by
  simp only [nextChunk, nextSlice_eq s h hc]
  exact fetchBytes_of_readRange s hr

/-- Reading the next chunk changes at most the count of free values. -/
theorem nextChunk_cases (s : State) : ∃ bytes k, nextChunk s = (bytes, { s with draws := k }) := by
  obtain ⟨n, k, h⟩ := nextSlice_cases s
  obtain ⟨bs, k', h', _⟩ := fetchBytes_cases s.frm s.txOff.toNat n { s with draws := k }
  exact ⟨bs, k', by simp only [nextChunk, h, h']⟩

/-- For the operands of R72 the height is the rounded quotient (40_resample R72). -/
theorem heightOf_eq {sw w : Half} (sh : Half) (s : State) (h1 : 1 ≤ sw.toNat) (h2 : 8 ≤ w.toNat) :
    heightOf sw sh w s = (roundedHeight sw.toNat sh.toNat w.toNat, s) := by
  simp only [heightOf, h1, h2, and_self, if_true]

/-- Outside them it is some number that is at least 1 (log 22). -/
theorem heightOf_free {sw w : Half} (sh : Half) (s : State) (h : sw.toNat = 0 ∨ w.toNat < 8) :
    ∃ n, 1 ≤ n ∧ heightOf sw sh w s = (n, drawn s) := by
  refine ⟨_, Nat.le_max_left 1 (Config.freeQuotient s.draws), ?_⟩
  unfold heightOf
  rw [if_neg (by omega)]

/-- A payload whose length fits 32 bits is announced with that length (43_header R101). -/
theorem payloadLength_eq {payload : List Byte} (s : State) (h : payload.length < 4294967296) :
    payloadLength payload s = (BitVec.ofNat 32 payload.length, s) := by simp only [payloadLength, h, if_true]

/-- A longer one with some length (log 25). -/
theorem payloadLength_free {payload : List Byte} (s : State) (h : 4294967296 ≤ payload.length) :
    ∃ n, payloadLength payload s = (n, drawn s) :=
  ⟨_, by unfold payloadLength; rw [if_neg (by omega)]⟩

end Sys2Proof.Machine
end

