-- ==== Sys2Proof/Laws/Chunk.lean ====
section
/-! SUPPORT. Laws of the chunker and of the record of writes (44_chunk R113 to R119). -/

namespace Sys2Proof.Machine

/-- The response replaces `pending` in the last beat and nowhere else (R115). -/
theorem settleLast_append (a : TxAnswer) (log : List Beat) (b : Beat) :
    settleLast a (log ++ [b]) = log ++ [{ b with response := .answered a }] := by
  induction log with
  | nil => rfl
  | cons c rest ih =>
    cases rest with
    | nil => rfl
    | cons c' rest' =>
      simp only [List.cons_append, settleLast] at ih ⊢
      rw [ih]

/-- A record with one more answered beat is settled. -/
theorem Settled.snoc {log : List Beat} (h : Settled log) (m : WriteMode) (bs : List Byte) (a : TxAnswer) :
    Settled (log ++ [⟨m, bs, .answered a⟩]) := by
  intro b hb
  rcases List.mem_append.mp hb with h1 | h1
  · exact h b h1
  · simp only [List.mem_singleton] at h1; subst h1; simp

/-- The chunks at consecutive multiples of the chunk size, put together, are a prefix of the sequence (R119 (e)). -/
theorem flatten_chunks (bytes : List Byte) (c n : Nat) :
    ((List.range n).map (chunkBytes bytes c)).flatten = bytes.take (n * c) := by
  induction n with
  | zero => simp
  | succ n ih =>
    rw [List.range_succ, List.map_append, List.flatten_append, ih]
    simp only [List.map_cons, List.map_nil, List.flatten_cons, List.flatten_nil, List.append_nil, chunkBytes]
    rw [Nat.succ_mul, List.take_add]

/-- The length of chunk number `k` (R119 (b), (c)). -/
theorem chunkBytes_length (bytes : List Byte) (c k : Nat) :
    (chunkBytes bytes c k).length = min c (bytes.length - k * c) := by
  simp [chunkBytes]

/-- `ceil(L / c)`: the last chunk begins below `L`, and one more would not (R119 (a)). -/
theorem chunkCount_spec (len c k : Nat) (hc : 1 ≤ c) : k < chunkCount len c ↔ k * c < len := by
  unfold chunkCount
  rw [Nat.lt_div_iff_mul_lt (by omega)]
  have : c * k = k * c := Nat.mul_comm _ _
  omega

end Sys2Proof.Machine
end

