-- ==== Sys2Proof/Laws/Dither.lean ====
section
/-! SUPPORT. Laws of the ditherer's operations: the luminance as a number, the thresholds over the rationals and the
ink decision against them (41_dither R80 to R84). -/

namespace Sys2Proof.Machine

/-- `S` fits 18 bits (R80). -/
theorem luminance_toNat (r g b : Byte) :
    (luminance r g b).toNat = 299 * r.toNat + 587 * g.toNat + 114 * b.toNat := by
  have := r.isLt; have := g.isLt; have := b.isLt
  simp only [luminance, BitVec.toNat_ofNat]
  omega

/-- `S` is at most 255 000 (R80). -/
theorem luminance_le (r g b : Byte) : (luminance r g b).toNat ≤ 255000 := by
  have := r.isLt; have := g.isLt; have := b.isLt
  rw [luminance_toNat]; omega

/-- `S = 1000 * gray` (R80). -/
theorem luminance_eq_gray (p : Pixel) : ((luminance p.r p.g p.b).toNat : ℚ) = 1000 * grayOf p := by
  rw [luminance_toNat, grayOf]; push_cast; ring

/-- The threshold's numerator over 32 is the rational threshold (R81). -/
theorem thresholdTimes32_eq (d : Bool) (x y : Nat) :
    (thresholdTimes32 (thresholdAt d x y) : ℚ) / 32 = thresholdOf d x y := by
  have hx : BitVec.ofNat 2 (x % 4) = BitVec.ofNat 2 x := by apply BitVec.eq_of_toNat_eq; simp
  have hy : BitVec.ofNat 2 (y % 4) = BitVec.ofNat 2 y := by apply BitVec.eq_of_toNat_eq; simp
  cases d
  · simp [thresholdAt, thresholdTimes32, thresholdOf]; norm_num
  · simp [thresholdAt, thresholdTimes32, thresholdOf, hx, hy]; ring

/-- The integer forms of `INK` decide `S/1000 < t` (R83, R84). -/
theorem inkDecision_iff (lum : BitVec 18) (t : Threshold) :
    inkDecision lum t = true ↔ (lum.toNat : ℚ) / 1000 < (thresholdTimes32 t : ℚ) / 32 := by
  rw [div_lt_div_iff₀ (by norm_num) (by norm_num)]
  cases t with
  | flat =>
    simp only [inkDecision, thresholdTimes32, decide_eq_true_eq]
    constructor
    · intro h; have : (lum.toNat : ℚ) < 128000 := by exact_mod_cast h
      push_cast; linarith
    · intro h; push_cast at h; have : (lum.toNat : ℚ) < 128000 := by linarith
      exact_mod_cast this
  | bayer m =>
    simp only [inkDecision, thresholdTimes32, decide_eq_true_eq]
    constructor
    · intro h
      have : (4 * lum.toNat : ℚ) < 31875 * (2 * m.toNat + 1) := by exact_mod_cast h
      push_cast; linarith
    · intro h; push_cast at h
      have : (4 * lum.toNat : ℚ) < 31875 * (2 * m.toNat + 1) := by linarith
      exact_mod_cast this

/-- The ink bit of a pixel against the rational formulas (R80, R81, R83). -/
theorem inkAt_iff (d : Bool) (q : Raster) (x y : Nat) :
    inkAt d q x y = true ↔ grayOf (q.pixel x y) < thresholdOf d x y := by
  unfold inkAt
  dsimp only
  rw [inkDecision_iff, thresholdTimes32_eq, luminance_eq_gray]
  rw [mul_div_cancel_left₀ _ (by norm_num : (1000 : ℚ) ≠ 0)]

end Sys2Proof.Machine
end

