-- ==== Sys2Proof/Laws/Encoding.lean ====
section
/-! SUPPORT. The decoder and the encoder against the formats of 30_encoding R60 to R63. -/

namespace Sys2Proof

/-- A word is of row `ENC` when bits 31:17 are `0x01`, then seven zeros. -/
theorem hits_enc_iff (cw : Word) : CommandRow.enc.hits cw = true ↔ cw.extractLsb' 17 15 = 0x80#15 := by
  simp only [CommandRow.hits, CommandRow.enc, beq_iff_eq]
  constructor
  · intro h
    ext i hi
    have := congrArg (·.getLsbD (17 + i)) h
    interval_cases i <;> simpa using this
  · intro h
    ext i hi
    by_cases h17 : 17 ≤ i
    · have := congrArg (·.getLsbD (i - 17)) h
      interval_cases i <;> simpa using this
    · interval_cases i <;> simp

/-- A word is of row `PKT` when it is `0x02000000`. -/
theorem hits_pkt_iff (cw : Word) : CommandRow.pkt.hits cw = true ↔ cw = 0x02000000#32 := by
  have : cw &&& 0xFFFFFFFF#32 = cw := by
    rw [show (0xFFFFFFFF#32) = BitVec.allOnes 32 from rfl, BitVec.and_allOnes]
  simp [CommandRow.hits, CommandRow.pkt, this]

/-- A word is of row `SND` when bits 31:16 are `0x0300`. -/
theorem hits_snd_iff (cw : Word) : CommandRow.snd.hits cw = true ↔ cw.extractLsb' 16 16 = 0x300#16 := by
  simp only [CommandRow.hits, CommandRow.snd, beq_iff_eq]
  constructor
  · intro h
    ext i hi
    have := congrArg (·.getLsbD (16 + i)) h
    interval_cases i <;> simpa using this
  · intro h
    ext i hi
    by_cases h16 : 16 ≤ i
    · have := congrArg (·.getLsbD (i - 16)) h
      interval_cases i <;> simpa using this
    · interval_cases i <;> simp

theorem isCommandWord_eq (cw : Word) :
    isCommandWord cw = (CommandRow.enc.hits cw || CommandRow.pkt.hits cw || CommandRow.snd.hits cw) := by
  simp [isCommandWord, CommandRow.all, Bool.or_assoc]

/-- A bit of two 16-bit halves side by side. -/
theorem getLsbD_halves (a w : BitVec 16) (i : Nat) :
    (a ++ w : BitVec 32).getLsbD i = if i < 16 then w.getLsbD i else a.getLsbD (i - 16) := by
  rw [show (a ++ w : BitVec 32) = (a ++ w : BitVec (16 + 16)) from rfl, BitVec.getLsbD_append]

/-- Format E as two halves. -/
theorem encodeEnc_halves (d : Bool) (w : Half) :
    encodeEnc d w = ((if d then 0x101#16 else 0x100#16) ++ w : BitVec 32) := by cases d <;> rfl

/-- Format S as two halves. -/
theorem encodeSnd_halves (c : Half) : encodeSnd c = (0x300#16 ++ c : BitVec 32) := rfl

theorem encodeEnc_hits (d : Bool) (w : Half) : CommandRow.enc.hits (encodeEnc d w) = true := by
  rw [hits_enc_iff, encodeEnc_halves]
  apply BitVec.eq_of_getLsbD_eq
  intro i hi
  rw [BitVec.getLsbD_extractLsb', getLsbD_halves]
  cases d <;> interval_cases i <;> rfl

theorem encodeSnd_hits (c : Half) : CommandRow.snd.hits (encodeSnd c) = true := by
  rw [hits_snd_iff, encodeSnd_halves]
  apply BitVec.eq_of_getLsbD_eq
  intro i hi
  rw [BitVec.getLsbD_extractLsb', getLsbD_halves]
  interval_cases i <;> rfl

theorem immField_encodeEnc (d : Bool) (w : Half) : immField (encodeEnc d w) = w := by
  simp only [immField, encodeEnc]
  exact BitVec.extractLsb'_append_eq_right

theorem ditherField_encodeEnc (d : Bool) (w : Half) : ditherField (encodeEnc d w) = d := by
  rw [ditherField, encodeEnc_halves, getLsbD_halves]
  cases d <;> rfl

theorem immField_encodeSnd (c : Half) : immField (encodeSnd c) = c := by
  simp only [immField, encodeSnd]
  exact BitVec.extractLsb'_append_eq_right

/-- No word is of two rows: the rows are disjoint (30_encoding R62). -/
theorem hits_disjoint (cw : Word) :
    ¬ (CommandRow.enc.hits cw = true ∧ CommandRow.pkt.hits cw = true) ∧
    ¬ (CommandRow.enc.hits cw = true ∧ CommandRow.snd.hits cw = true) ∧
    ¬ (CommandRow.pkt.hits cw = true ∧ CommandRow.snd.hits cw = true) := by
  simp only [hits_enc_iff, hits_pkt_iff, hits_snd_iff]
  refine ⟨?_, ?_, ?_⟩
  · rintro ⟨h, rfl⟩; revert h; decide
  · rintro ⟨h, h'⟩
    have a := congrArg (·.getLsbD 7) h
    have b := congrArg (·.getLsbD 9) h'
    have c := congrArg (·.getLsbD 8) h
    have d := congrArg (·.getLsbD 8) h'
    simp at a b c d
    simp_all
  · rintro ⟨rfl, h⟩; revert h; decide

theorem decode_encodeEnc (d : Bool) (w : Half) : decode (encodeEnc d w) = .enc d w := by
  simp [decode, encodeEnc_hits, immField_encodeEnc, ditherField_encodeEnc]

theorem decode_encodePkt : decode encodePkt = .pkt := by decide

theorem decode_encodeSnd (c : Half) : decode (encodeSnd c) = .snd c := by
  have h := hits_disjoint (encodeSnd c)
  have hs := encodeSnd_hits c
  have h1 : CommandRow.enc.hits (encodeSnd c) = false := by
    simpa using fun he => h.2.1 ⟨he, hs⟩
  have h2 : CommandRow.pkt.hits (encodeSnd c) = false := by
    simpa using fun he => h.2.2 ⟨he, hs⟩
  simp [decode, h1, h2, hs, immField_encodeSnd]

theorem decode_illegal (cw : Word) (h : isCommandWord cw = false) : decode cw = .illegal cw := by
  rw [isCommandWord_eq] at h
  simp only [Bool.or_eq_false_iff] at h
  simp [decode, h.1.1, h.1.2, h.2]

end Sys2Proof
end

