-- ==== Sys2Proof/Laws/Header.lean ====
section
/-! SUPPORT. Laws of the header composer: its length and its little-endian fields (43_header R101, 20_memory R41,
R43). -/

namespace Sys2Proof.Machine

@[simp] theorem headerBytes_length (height : Half) (n : Word) : (headerBytes height n).length = 8 := rfl

@[simp] theorem frameBytes_length (hdr payload : List Byte) :
    (frameBytes hdr payload).length = hdr.length + payload.length := List.length_append

/-- The two bytes of `le16` read back little-endian (R41, R43). -/
theorem fromLe16_le16 (v : Half) : fromLe16 (le16 v) = some v := by
  simp only [fromLe16, le16]
  congr 1
  apply BitVec.eq_of_toNat_eq
  have := v.isLt
  simp only [BitVec.toNat_append, BitVec.extractLsb'_toNat, Nat.shiftRight_zero]
  rw [← Nat.shiftLeft_add_eq_or_of_lt (by omega), Nat.shiftLeft_eq, Nat.shiftRight_eq_div_pow]
  omega

/-- The value of two bytes, least significant first (R41). -/
theorem le16_toNat (v : Half) :
    v.toNat = (v.extractLsb' 0 8).toNat + 256 * (v.extractLsb' 8 8).toNat := by
  have := v.isLt
  simp only [BitVec.extractLsb'_toNat, Nat.shiftRight_eq_div_pow]
  omega

/-- The value of four bytes, least significant first (R41). -/
theorem le32_toNat (v : Word) :
    v.toNat = (v.extractLsb' 0 8).toNat + 256 * (v.extractLsb' 8 8).toNat
      + 65536 * (v.extractLsb' 16 8).toNat + 16777216 * (v.extractLsb' 24 8).toNat := by
  have := v.isLt
  simp only [BitVec.extractLsb'_toNat, Nat.shiftRight_eq_div_pow]
  omega

/-- The four bytes of `le32` read back little-endian (R41, R43). -/
theorem fromLe32_le32 (v : Word) : fromLe32 (le32 v) = some v := by
  simp only [fromLe32, le32]
  congr 1
  apply BitVec.eq_of_toNat_eq
  have := le32_toNat v
  have h0 := (v.extractLsb' 0 8).isLt
  have h1 := (v.extractLsb' 8 8).isLt
  have h2 := (v.extractLsb' 16 8).isLt
  simp only [BitVec.toNat_append]
  rw [← Nat.shiftLeft_add_eq_or_of_lt (by omega), ← Nat.shiftLeft_add_eq_or_of_lt (by omega),
    ← Nat.shiftLeft_add_eq_or_of_lt (by omega)]
  simp only [Nat.shiftLeft_eq]
  omega

end Sys2Proof.Machine
end

