-- ==== Sys2Proof/Laws/Resample.lean ====
section
/-! SUPPORT. Laws of the resampler: rasters made by a function, the rounded height, the sample positions and weights
of `RESAMPLE_REF` (40_resample R72 to R76). -/

namespace Sys2Proof.Machine

@[simp] theorem Raster.tabulate_width (w h : Half) (f : Nat → Nat → Pixel) : (Raster.tabulate w h f).width = w := rfl
@[simp] theorem Raster.tabulate_height (w h : Half) (f : Nat → Nat → Pixel) : (Raster.tabulate w h f).height = h := rfl

/-- Rows of equal length one after another: the length of the whole. -/
theorem length_rows {α : Type} (f : Nat → Nat → α) (h w : Nat) :
    ((List.range h).flatMap fun y => (List.range w).map fun x => f x y).length = h * w := by
  induction h with
  | zero => simp
  | succ h ih => rw [List.range_succ, List.flatMap_append, List.length_append, ih]; simp [Nat.succ_mul]

/-- Rows of equal length one after another: element `y * w + x` is element `x` of row `y`. -/
theorem getElem?_rows {α : Type} (f : Nat → Nat → α) (h w x y : Nat) (hx : x < w) (hy : y < h) :
    ((List.range h).flatMap fun y => (List.range w).map fun x => f x y)[y * w + x]? = some (f x y) := by
  induction h with
  | zero => omega
  | succ h ih =>
    rw [List.range_succ, List.flatMap_append]
    by_cases hyh : y < h
    · have : y * w + x < h * w := by
        have : (y + 1) * w ≤ h * w := Nat.mul_le_mul_right w hyh
        rw [Nat.succ_mul] at this; omega
      rw [List.getElem?_append_left (by rw [length_rows]; exact this), ih hyh]
    · have hy' : y = h := by omega
      subst hy'
      rw [List.getElem?_append_right (by rw [length_rows]; omega), length_rows, Nat.add_sub_cancel_left]
      simp [hx]

/-- Two rasters row by row are the same list when they agree in range. -/
theorem rows_congr {α : Type} (f g : Nat → Nat → α) (h w : Nat) (H : ∀ x y, x < w → y < h → f x y = g x y) :
    ((List.range h).flatMap fun y => (List.range w).map fun x => f x y) =
    ((List.range h).flatMap fun y => (List.range w).map fun x => g x y) := by
  apply List.flatMap_congr
  intro y hy
  apply List.map_congr_left
  intro x hx
  exact H x y (List.mem_range.mp hx) (List.mem_range.mp hy)

theorem Raster.tabulate_length (w h : Half) (f : Nat → Nat → Pixel) :
    (Raster.tabulate w h f).pixels.length = h.toNat * w.toNat := length_rows f h.toNat w.toNat

/-- A pixel of a raster made by a function, in range. -/
theorem Raster.tabulate_pixel (w h : Half) (f : Nat → Nat → Pixel) (x y : Nat) (hx : x < w.toNat) (hy : y < h.toNat) :
    (Raster.tabulate w h f).pixel x y = f x y := by
  have : (Raster.tabulate w h f).pixels[y * w.toNat + x]? = some (f x y) := getElem?_rows f h.toNat w.toNat x y hx hy
  simp only [Raster.pixel, Raster.tabulate_width, Raster.tabulate_height, hx, hy, and_self, if_true, this]

/-- A pixel of `Q` (R73). -/
theorem resample_pixel (f : Filter) (src : Raster) (w h : Half) (x y : Nat) (hx : x < w.toNat) (hy : y < h.toNat) :
    (resample f src w h).pixel x y = filterPixel f src w.toNat h.toNat x y :=
  Raster.tabulate_pixel w h _ x y hx hy

/-- The pixels in range of two rasters that agree there. -/
theorem Raster.inRange_congr (a b : Raster) (hw : a.width = b.width) (hh : a.height = b.height)
    (H : ∀ x y, x < a.width.toNat → y < a.height.toNat → a.pixel x y = b.pixel x y) : a.inRange = b.inRange := by
  unfold Raster.inRange
  rw [← hw, ← hh]
  exact rows_congr a.pixel b.pixel _ _ H

theorem mem_rows {α : Type} (f : Nat → Nat → α) (h w : Nat) (a : α)
    (ha : a ∈ (List.range h).flatMap fun y => (List.range w).map fun x => f x y) : ∃ x y, x < w ∧ y < h ∧ a = f x y := by
  simp only [List.mem_flatMap, List.mem_range, List.mem_map] at ha
  obtain ⟨y, hy, x, hx, rfl⟩ := ha
  exact ⟨x, y, hx, hy, rfl⟩

/-- A source of one colour has that constant pixel (R75, P4). -/
theorem constantPixel_of_constant (src : Raster) (p : Pixel) (hw : 1 ≤ src.width.toNat) (hh : 1 ≤ src.height.toNat)
    (H : ∀ x y, x < src.width.toNat → y < src.height.toNat → src.pixel x y = p) : constantPixel src = some p := by
  have hall : ∀ a ∈ src.inRange, a = p := by
    intro a ha
    obtain ⟨x, y, hx, hy, rfl⟩ := mem_rows src.pixel _ _ a ha
    exact H x y hx hy
  have hlen : src.inRange.length = src.height.toNat * src.width.toNat := length_rows src.pixel _ _
  unfold constantPixel
  cases hr : src.inRange with
  | nil =>
    rw [hr] at hlen
    have : 0 < src.height.toNat * src.width.toNat := Nat.mul_pos hh hw
    simp only [List.length_nil] at hlen
    omega
  | cons a rest =>
    rw [hr] at hall
    have ha : a = p := hall a (by simp)
    have hrest : rest.all (· == a) = true := by
      rw [List.all_eq_true]; intro b hb
      simp [hall b (by simp [hb]), ha]
    show (if rest.all (· == a) = true then some a else none) = some p
    rw [if_pos hrest, ha]

/-- The reference filter on a source that has pixels (R76). -/
theorem filterPixel_reference {src : Raster} (w h x y : Nat) (hw : 1 ≤ src.width.toNat) (hh : 1 ≤ src.height.toNat) :
    filterPixel .reference src w h x y = referencePixel src w h x y := by
  unfold filterPixel
  dsimp only
  rw [if_neg (by omega)]

/-- The height before the range checks, at least 1 (R72). -/
theorem roundedHeight_pos (sw sh w : Nat) : 1 ≤ roundedHeight sw sh w := by
  unfold roundedHeight; dsimp only; split_ifs with h
  · exact le_rfl
  · exact Nat.one_le_iff_ne_zero.mpr h

/-- The height is the rounded quotient over the rationals (R72). -/
theorem roundedHeight_eq_floor (sw sh w : Nat) (hsw : 1 ≤ sw) :
    roundedHeight sw sh w = max 1 ⌊((sh : ℚ) * w / sw + 1 / 2)⌋₊ := by
  have hq : (0 : ℚ) < sw := by exact_mod_cast hsw
  have h : ⌊((sh : ℚ) * w / sw + 1 / 2)⌋₊ = (2 * sh * w + sw) / (2 * sw) := by
    rw [← Nat.floor_div_eq_div (K := ℚ)]
    congr 1
    push_cast
    field_simp
  rw [h]
  unfold roundedHeight
  dsimp only
  generalize (2 * sh * w + sw) / (2 * sw) = k
  split_ifs <;> omega

/-- `DIM`, case by case (R72). -/
theorem bitmapHeight_eq_some {cap : Nat} {sw sh w h : Half} (H : bitmapHeight cap sw sh w = some h) :
    h.toNat = roundedHeight sw.toNat sh.toNat w.toNat ∧ 1 ≤ h.toNat ∧ bitmapSize w.toNat h.toNat ≤ cap := by
  unfold bitmapHeight checkedHeight at H
  split_ifs at H with h1 h2
  cases H
  have hr : (BitVec.ofNat 16 (roundedHeight sw.toNat sh.toNat w.toNat)).toNat =
      roundedHeight sw.toNat sh.toNat w.toNat := by
    rw [BitVec.toNat_ofNat]; exact Nat.mod_eq_of_lt (by omega)
  rw [hr]
  exact ⟨rfl, roundedHeight_pos _ _ _, by omega⟩

/-- The sample numerator is clamped to the last source sample (R76). -/
theorem axisNumerator_le (n out i : Nat) : axisNumerator n out i ≤ 2 * out * (n - 1) := Nat.min_le_right _ _

theorem axisLow_lt (n out i : Nat) (hn : 1 ≤ n) : axisLow n out i < n := by
  unfold axisLow
  have h := axisNumerator_le n out i
  have : axisNumerator n out i / (2 * out) ≤ n - 1 := by
    rcases Nat.eq_zero_or_pos out with h0 | h0
    · subst h0; simp
    · exact Nat.div_le_of_le_mul h
  omega

theorem axisHigh_lt (n out i : Nat) (hn : 1 ≤ n) : axisHigh n out i < n := by unfold axisHigh; omega

theorem axisFraction_lt (n out i : Nat) (ho : 1 ≤ out) : axisFraction n out i < 2 * out :=
  Nat.mod_lt _ (by omega)

/-- The numerator over `2*out` is the clamped source coordinate over the rationals (R76). -/
theorem axisNumerator_div_eq (n out i : Nat) (hn : 1 ≤ n) (ho : 1 ≤ out) :
    (axisNumerator n out i : ℚ) / (2 * out) = sampleCoordinate n out i := by
  have h0 : (0 : ℚ) < 2 * out := by positivity
  have hc : ((i : ℚ) + 1 / 2) * n / out - 1 / 2 = ((2 * i + 1) * n - out) / (2 * out) := by field_simp
  have hm : ((n : ℚ) - 1) = 2 * out * ((n - 1 : ℕ) : ℚ) / (2 * out) := by
    rw [mul_div_cancel_left₀ _ h0.ne']; push_cast [hn]; ring
  unfold sampleCoordinate axisNumerator
  rw [hc, hm]
  split_ifs with h
  · have h' : ((2 * i + 1) * n - out : ℚ) ≤ 0 := by
      have : ((2 * i + 1) * n : ℚ) < out := by exact_mod_cast h
      linarith
    rw [Nat.zero_min, max_eq_left ((min_le_left _ _).trans (div_nonpos_of_nonpos_of_nonneg h' h0.le))]
    simp
  · have h' : (out : ℚ) ≤ (2 * i + 1) * n := by exact_mod_cast not_lt.mp h
    rw [max_eq_right (le_min (div_nonneg (by linarith) h0.le) (by positivity)), min_div_div_right h0.le]
    push_cast [not_lt.mp h]
    rfl

/-- `x0` is the coordinate rounded down (R76). -/
theorem axisLow_eq_floor (n out i : Nat) (hn : 1 ≤ n) (ho : 1 ≤ out) :
    axisLow n out i = ⌊sampleCoordinate n out i⌋₊ := by
  rw [← axisNumerator_div_eq n out i hn ho, axisLow, ← Nat.floor_div_eq_div (K := ℚ)]
  push_cast
  rfl

/-- `fx` over `2*out` is how far the coordinate is past `x0` (R76). -/
theorem axisFraction_div_eq (n out i : Nat) (hn : 1 ≤ n) (ho : 1 ≤ out) :
    (axisFraction n out i : ℚ) / (2 * out) = sampleCoordinate n out i - axisLow n out i := by
  have h0 : (0 : ℚ) < 2 * out := by positivity
  rw [← axisNumerator_div_eq n out i hn ho, div_eq_iff h0.ne', sub_mul, div_mul_cancel₀ _ h0.ne']
  have h : (2 * out * axisLow n out i + axisFraction n out i : ℚ) = axisNumerator n out i := by
    exact_mod_cast Nat.div_add_mod (axisNumerator n out i) (2 * out)
  linarith

/-- At equal size output index `i` is source index `i`, with no fraction (R76). -/
theorem axis_identity (n i : Nat) (hi : i < n) : axisLow n n i = i ∧ axisFraction n n i = 0 := by
  have h : axisNumerator n n i = 2 * n * i := by
    unfold axisNumerator
    have h1 : ¬ (2 * i + 1) * n < n := by
      have : n * 1 ≤ (2 * i + 1) * n := by rw [Nat.mul_comm]; exact Nat.mul_le_mul_right n (by omega)
      omega
    rw [if_neg h1]
    have h2 : (2 * i + 1) * n - n = 2 * n * i := by
      rw [Nat.add_mul]; have : 2 * i * n = 2 * n * i := by ring
      omega
    rw [h2]
    apply Nat.min_eq_left
    exact Nat.mul_le_mul_left _ (by omega)
  unfold axisLow axisFraction
  rw [h]
  exact ⟨Nat.mul_div_cancel_left i (by omega), Nat.mul_mod_right _ _⟩

/-- A blend of four equal samples is that sample: the weights sum to `4*w*h` (R76). -/
theorem blend_const (w h fx fy : Nat) (v : Byte) (hw : 1 ≤ w) (hh : 1 ≤ h) (hfx : fx < 2 * w) (hfy : fy < 2 * h) :
    blend w h fx fy v.toNat v.toNat v.toNat v.toNat = v := by
  unfold blend
  dsimp only
  obtain ⟨gx, hgx⟩ : ∃ gx, 2 * w - fx = gx := ⟨_, rfl⟩
  obtain ⟨gy, hgy⟩ : ∃ gy, 2 * h - fy = gy := ⟨_, rfl⟩
  rw [hgx, hgy]
  have e : gx * gy * v.toNat + fx * gy * v.toNat + gx * fy * v.toNat + fx * fy * v.toNat = 4 * w * h * v.toNat := by
    have e1 : gx + fx = 2 * w := by omega
    have e2 : gy + fy = 2 * h := by omega
    calc _ = (gx + fx) * (gy + fy) * v.toNat := by ring
      _ = _ := by rw [e1, e2]; ring
  rw [e]
  have hpos : 0 < 4 * w * h := by positivity
  have : (4 * w * h * v.toNat + 2 * w * h) / (4 * w * h) = v.toNat := by
    rw [Nat.mul_add_div hpos]
    have : 2 * w * h / (4 * w * h) = 0 := by
      apply Nat.div_eq_of_lt
      have : 1 ≤ w * h := Nat.mul_pos hw hh
      have e3 : 2 * w * h = 2 * (w * h) := by ring
      have e4 : 4 * w * h = 4 * (w * h) := by ring
      omega
    omega
  rw [this]
  simp

/-- With no fraction on either axis the blend is the first sample (R76). -/
theorem blend_first (w h : Nat) (v a b c : Byte) (hw : 1 ≤ w) (hh : 1 ≤ h) :
    blend w h 0 0 v.toNat a.toNat b.toNat c.toNat = v := by
  have := blend_const w h 0 0 v hw hh (by omega) (by omega)
  unfold blend at *
  simpa using this

/-- A blend is the weighted mean over the rationals of its four samples, rounded half up (R76). -/
theorem blend_eq_floor (w h fx fy : Nat) (a b c d : Byte) (hw : 1 ≤ w) (hh : 1 ≤ h) (hfx : fx < 2 * w)
    (hfy : fy < 2 * h) :
    (blend w h fx fy a.toNat b.toNat c.toNat d.toNat).toNat =
      ⌊(1 - (fx : ℚ) / (2 * w)) * (1 - (fy : ℚ) / (2 * h)) * (a.toNat : ℚ)
        + (fx : ℚ) / (2 * w) * (1 - (fy : ℚ) / (2 * h)) * (b.toNat : ℚ)
        + (1 - (fx : ℚ) / (2 * w)) * ((fy : ℚ) / (2 * h)) * (c.toNat : ℚ)
        + (fx : ℚ) / (2 * w) * ((fy : ℚ) / (2 * h)) * (d.toNat : ℚ) + 1 / 2⌋₊ := by
  have hw' : (0 : ℚ) < w := by exact_mod_cast hw
  have hh' : (0 : ℚ) < h := by exact_mod_cast hh
  obtain ⟨gx, hgx⟩ : ∃ gx, 2 * w = fx + gx := ⟨2 * w - fx, by omega⟩
  obtain ⟨gy, hgy⟩ : ∃ gy, 2 * h = fy + gy := ⟨2 * h - fy, by omega⟩
  have ex : (1 - (fx : ℚ) / (2 * w)) = gx / (2 * w) := by
    have : (2 * w : ℚ) = fx + gx := by exact_mod_cast hgx
    field_simp; linarith
  have ey : (1 - (fy : ℚ) / (2 * h)) = gy / (2 * h) := by
    have : (2 * h : ℚ) = fy + gy := by exact_mod_cast hgy
    field_simp; linarith
  obtain ⟨num, hnum⟩ : ∃ num, num = gx * gy * a.toNat + fx * gy * b.toNat + gx * fy * c.toNat + fx * fy * d.toNat :=
    ⟨_, rfl⟩
  have hle : num ≤ 4 * w * h * 255 := by
    have e : 4 * w * h = gx * gy + fx * gy + gx * fy + fx * fy := by
      calc 4 * w * h = (2 * w) * (2 * h) := by ring
        _ = _ := by rw [hgx, hgy]; ring
    rw [hnum, e, Nat.add_mul, Nat.add_mul, Nat.add_mul]
    gcongr <;> omega
  have hq : ⌊((num + 2 * w * h : ℕ) : ℚ) / ((4 * w * h : ℕ) : ℚ)⌋₊ = (num + 2 * w * h) / (4 * w * h) :=
    Nat.floor_div_eq_div _ _
  have hlt : (num + 2 * w * h) / (4 * w * h) < 256 := by
    rw [Nat.div_lt_iff_lt_mul (by positivity)]
    nlinarith [Nat.mul_pos hw hh]
  unfold blend
  dsimp only
  rw [show 2 * w - fx = gx by omega, show 2 * h - fy = gy by omega, ← hnum, BitVec.toNat_ofNat, Nat.mod_eq_of_lt hlt,
    ← hq, ex, ey, hnum]
  congr 1
  push_cast
  field_simp
  ring

end Sys2Proof.Machine
end

