-- ==== Sys2Proof/Laws/Pack.lean ====
section
/-! SUPPORT. Laws of the packer: the bits of a bitmap byte, the length and the bytes of the bitmap (42_pack R90,
R91, R93). -/

namespace Sys2Proof.Machine

/-- The eight ink bits in the order of their columns (20_memory R42). -/
theorem layoutInk_bits (b : InkBits) :
    (layoutInk b).getLsbD 7 = b.a ∧ (layoutInk b).getLsbD 6 = b.b ∧ (layoutInk b).getLsbD 5 = b.c ∧
    (layoutInk b).getLsbD 4 = b.d ∧ (layoutInk b).getLsbD 3 = b.e ∧ (layoutInk b).getLsbD 2 = b.f ∧
    (layoutInk b).getLsbD 1 = b.g ∧ (layoutInk b).getLsbD 0 = b.h := by
  obtain ⟨a, b, c, d, e, f, g, h⟩ := b
  revert a b c d e f g h
  decide

/-- Column `8*xb + k` is bit `7 - k` of the packed byte (R90). -/
theorem packByte_bit (d : Bool) (q : Raster) (xb y k : Nat) (hk : k < 8) :
    (packByte d q xb y).getLsbD (7 - k) = inkAt d q (xb * 8 + k) y := by
  obtain ⟨h7, h6, h5, h4, h3, h2, h1, h0⟩ := layoutInk_bits
    ⟨inkAt d q (xb * 8) y, inkAt d q (xb * 8 + 1) y, inkAt d q (xb * 8 + 2) y, inkAt d q (xb * 8 + 3) y,
      inkAt d q (xb * 8 + 4) y, inkAt d q (xb * 8 + 5) y, inkAt d q (xb * 8 + 6) y, inkAt d q (xb * 8 + 7) y⟩
  unfold packByte
  interval_cases k <;> assumption

/-- The bitmap has `(w >> 3) * h` bytes (R91). -/
theorem bitmapBytes_length (d : Bool) (q : Raster) :
    (bitmapBytes d q).length = bitmapSize q.width.toNat q.height.toNat := by
  unfold bitmapBytes bitmapSize
  rw [length_rows (fun xb y => packByte d q xb y), Nat.mul_comm]

/-- The byte at index `y * (w >> 3) + xb` (R91, 20_memory R44). -/
theorem bitmapBytes_getElem? (d : Bool) (q : Raster) (xb y : Nat) (hx : xb < q.width.toNat / 8)
    (hy : y < q.height.toNat) :
    (bitmapBytes d q)[bitmapIndex q.width.toNat xb y]? = some (packByte d q xb y) :=
  getElem?_rows (fun xb y => packByte d q xb y) _ _ xb y hx hy

/-- Rendering the bitmap of a raster gives back each ink bit: the render contract is the inverse of packing (R93). -/
theorem renderBit_bitmapBytes (s : State) (d : Bool) (q : Raster) (x y : Nat)
    (hb : s.bmp = Memory.ofBytes (bitmapBytes d q)) (hw : s.bmpW = q.width) (h8 : q.width.toNat % 8 = 0)
    (hx : x < q.width.toNat) (hy : y < q.height.toNat) : renderBit s x y = some (inkAt d q x y) := by
  have hxb : x / 8 < q.width.toNat / 8 := by omega
  unfold renderBit
  rw [hb, hw, Memory.read_ofBytes, bitmapBytes_getElem? d q (x / 8) y hxb hy, Option.map_some,
    packByte_bit d q (x / 8) y (x % 8) (by omega)]
  congr 2
  omega

/-- Bitmaps of rasters of one size that agree pixel by pixel in their ink bits are equal. -/
theorem bitmapBytes_congr (d : Bool) (q q' : Raster) (hw : q.width = q'.width) (hh : q.height = q'.height)
    (H : ∀ x y, x < q.width.toNat → y < q.height.toNat → inkAt d q x y = inkAt d q' x y) :
    bitmapBytes d q = bitmapBytes d q' := by
  unfold bitmapBytes
  rw [← hw, ← hh]
  apply rows_congr
  intro xb y hxb hy
  unfold packByte
  simp only [H _ y (show xb * 8 < q.width.toNat by omega) hy, H _ y (show xb * 8 + 1 < q.width.toNat by omega) hy,
    H _ y (show xb * 8 + 2 < q.width.toNat by omega) hy, H _ y (show xb * 8 + 3 < q.width.toNat by omega) hy,
    H _ y (show xb * 8 + 4 < q.width.toNat by omega) hy, H _ y (show xb * 8 + 5 < q.width.toNat by omega) hy,
    H _ y (show xb * 8 + 6 < q.width.toNat by omega) hy, H _ y (show xb * 8 + 7 < q.width.toNat by omega) hy]

/-- `BMP_LEN` as a number: nothing wraps in 32 bits (10_state R23, 42_pack R91). -/
theorem bmpLen_toNat (s : State) : (bmpLen s).toNat = bitmapSize s.bmpW.toNat s.bmpH.toNat := by
  have hw := s.bmpW.isLt
  have hh := s.bmpH.isLt
  unfold bmpLen bitmapSize
  rw [BitVec.toNat_mul, BitVec.toNat_setWidth, BitVec.toNat_setWidth, BitVec.toNat_ushiftRight,
    Nat.shiftRight_eq_div_pow]
  have h1 : s.bmpW.toNat / 2 ^ 3 % 2 ^ 32 = s.bmpW.toNat / 8 := by omega
  have h2 : s.bmpH.toNat % 2 ^ 32 = s.bmpH.toNat := by omega
  rw [h1, h2]
  apply Nat.mod_eq_of_lt
  calc s.bmpW.toNat / 8 * s.bmpH.toNat ≤ 8191 * 65535 := Nat.mul_le_mul (by omega) (by omega)
    _ < 2 ^ 32 := by norm_num

end Sys2Proof.Machine
end

