-- ==== Sys2Proof/Laws/Step.lean ====
section
/-! SUPPORT. What the commands, the core's own step and the moves of the other agents can do, said once each. -/

namespace Sys2Proof.Machine

/-- An idle core accepts (10_state R31). -/
theorem whenAccepted_idle (cw : Word) (s : State) (r : Result) (h : s.seq = .idle) : whenAccepted cw s r = r := by
  simp [whenAccepted, h]

/-- A busy core holds the command (10_state R31). -/
theorem whenAccepted_busy (cw : Word) (s : State) (r : Result) (h : s.seq ≠ .idle) :
    whenAccepted cw s r = .next (hold cw s) := by
  unfold whenAccepted
  cases hs : s.seq with
  | idle => exact absurd hs h
  | sndIssue => rfl
  | sndWait => rfl

theorem exec_enc_idle (d : Bool) (w : Half) (s : State) (h : s.seq = .idle) :
    exec (.enc d w) s = .next (encodeBitmap d w s) := whenAccepted_idle _ _ _ h
theorem exec_pkt_idle (s : State) (h : s.seq = .idle) : exec .pkt s = .next (packetize s) :=
  whenAccepted_idle _ _ _ h
theorem exec_snd_idle (c : Half) (s : State) (h : s.seq = .idle) :
    exec (.snd c) s = .next (startSend c s) := whenAccepted_idle _ _ _ h
theorem exec_illegal_idle (cw : Word) (s : State) (h : s.seq = .idle) :
    exec (.illegal cw) s = .next (raise .illegalCommand s) := whenAccepted_idle _ _ _ h

/-- With no write outstanding, an error changes `ERR` and `SEQ` alone (60_exceptions R121). -/
theorem raise_idle (k : ErrKind) (s : State) (h : s.seq = .idle) (hr : s.txReq = none) :
    raise k s = { s with err := k } := by
  cases s; simp only at h hr; subst h hr; rfl

/-- An accepted `ENC` either raises an error or commits a bitmap that has the stated shape (40_resample R70). -/
theorem encodeBitmap_cases (d : Bool) (w : Half) (s : State) :
    (∃ k, (k = .decodeFailure ∨ k = .invalidInput) ∧ encodeBitmap d w s = raise k s) ∨
    (∃ h, validationError w s = none ∧ bitmapHeight s.params.bmpCap s.src.width s.src.height w = some h ∧
      encodeBitmap d w s = complete (commitBitmap w h (bitmapBytes d (resample s.params.filter s.src w h)) s)) := by
  unfold encodeBitmap
  split
  · rename_i k hk
    refine .inl ⟨k, ?_, rfl⟩
    unfold validationError at hk
    split_ifs at hk <;> cases hk <;> simp
  · rename_i hv
    split
    · exact .inl ⟨_, .inr rfl, rfl⟩
    · rename_i h hh
      exact .inr ⟨h, hv, hh, rfl⟩

/-- What `VAL` lets pass (40_resample R71). -/
theorem validationError_none {w : Half} {s : State} (h : validationError w s = none) :
    s.srcOk = true ∧ 8 ≤ w.toNat ∧ w.toNat % 8 = 0 ∧ 1 ≤ s.src.width.toNat ∧ 1 ≤ s.src.height.toNat := by
  unfold validationError at h
  split_ifs at h with h1 h2 h3 h4
  refine ⟨by simpa using h1, ?_, ?_, ?_, ?_⟩ <;> omega

/-- `VAL` passes a legal `ENC`. -/
theorem validationError_of_legal {w : Half} {s : State} (h : EncLegal w s) : validationError w s = none := by
  have h3 : ¬ w.toNat % 8 ≠ 0 := not_not.mpr h.multiple
  have h4 : ¬ (s.src.width.toNat = 0 ∨ s.src.height.toNat = 0) := not_or.mpr ⟨h.srcW, h.srcH⟩
  unfold validationError
  rw [if_neg (by simp [h.source]), if_neg h.positive, if_neg h3, if_neg h4]

/-- `DIM` gives a legal `ENC` its height. -/
theorem bitmapHeight_of_legal {w : Half} {s : State} (h : EncLegal w s) :
    bitmapHeight s.params.bmpCap s.src.width s.src.height w = some (encHeight w s) := by
  unfold bitmapHeight checkedHeight encHeight
  have h1 := h.height
  have h2 := h.fits
  rw [if_neg (by omega), if_neg (by omega)]

theorem encHeight_toNat {w : Half} {s : State} (h : EncLegal w s) :
    (encHeight w s).toNat = roundedHeight s.src.width.toNat s.src.height.toNat w.toNat := by
  have := h.height
  unfold encHeight
  rw [BitVec.toNat_ofNat]
  exact Nat.mod_eq_of_lt (by omega)

/-- A legal `ENC` commits its bitmap (40_resample R70). -/
theorem encodeBitmap_of_legal {d : Bool} {w : Half} {s : State} (h : EncLegal w s) :
    encodeBitmap d w s = complete (commitBitmap w (encHeight w s) (bitmapBytes d (encRaster w s)) s) := by
  unfold encodeBitmap
  rw [validationError_of_legal h]
  simp only [bitmapHeight_of_legal h]
  rfl

/-- An accepted `PKT` raises `SEQUENCE_ERROR` or commits a frame of the bitmap's length, whose payload is the bitmap's
bytes where they are all written; else it draws free values (43_header R100; log 1). -/
theorem packetize_cases (s : State) :
    (s.bmpValid = false ∧ packetize s = raise .sequenceError s) ∨
    (s.bmpValid = true ∧ ∃ payload k, payload.length = (bmpLen s).toNat ∧
      packetize s = complete (commitFrame (8#32 + bmpLen s) (frameBytes (headerBytes s.bmpH (bmpLen s)) payload)
        { s with draws := k }) ∧
      ∀ bs, Memory.readRange s.bmp 0 (bmpLen s).toNat = some bs → payload = bs ∧ k = s.draws) := by
  unfold packetize
  split
  · rename_i h; exact .inl ⟨h, rfl⟩
  · rename_i h
    refine .inr ⟨by simpa using h, ?_⟩
    obtain ⟨payload, k, hf, hl, _⟩ := fetchBytes_cases s.bmp 0 (bmpLen s).toNat s
    refine ⟨payload, k, hl, by simp only [hf], fun bs hr => ?_⟩
    rw [fetchBytes_of_readRange s hr] at hf
    exact ⟨(congrArg Prod.fst hf).symm, (congrArg (fun p => p.2.draws) hf).symm⟩

/-- An accepted `SND` raises an error or starts (44_chunk R111, R112). -/
theorem startSend_cases (c : Half) (s : State) :
    (s.frmValid = false ∧ startSend c s = raise .sequenceError s) ∨
    (s.frmValid = true ∧ c.toNat = 0 ∧ startSend c s = raise .invalidInput s) ∨
    (s.frmValid = true ∧ 1 ≤ c.toNat ∧ startSend c s = selectMode c s) := by
  unfold startSend
  split_ifs with h1 h2
  · exact .inl ⟨h1, rfl⟩
  · exact .inr (.inl ⟨by simpa using h1, h2, rfl⟩)
  · exact .inr (.inr ⟨by simpa using h1, by omega, rfl⟩)

/-- The issue step (44_chunk R114): a request on a free port, or a fault where one is outstanding already. -/
theorem issueWrite_cases (s : State) :
    (∃ bytes k, s.txReq = none ∧ nextChunk s = (bytes, { s with draws := k }) ∧
      issueWrite s = .next { txWrite s.txMode bytes { s with draws := k } with seq := .sndWait }) ∨
    (s.txReq ≠ none ∧ issueWrite s = .fault .writeOutstanding) := by
  obtain ⟨bytes, k, h⟩ := nextChunk_cases s
  unfold issueWrite
  rw [h]
  split
  · rename_i hr; exact .inr ⟨Option.isSome_iff_ne_none.mp hr, rfl⟩
  · rename_i hr; exact .inl ⟨bytes, k, by simpa using hr, rfl, rfl⟩

/-- The response step (44_chunk R116 to R118). -/
theorem takeAnswer_cases (s : State) :
    (s.txAnswer = none ∧ takeAnswer s = .next s) ∨
    (∃ r, s.txAnswer = some .ok ∧ s.txReq = some r ∧ takeAnswer s = .next (answerOk r s)) ∨
    (∃ r, s.txAnswer = some .fail ∧ s.txReq = some r ∧ takeAnswer s = .next (answerFail s)) ∨
    (∃ r, s.txReq = none ∧ takeAnswer s = .fault r) := by
  unfold takeAnswer
  split
  · rename_i h; exact .inl ⟨h, rfl⟩
  · rename_i a ha
    split
    · rename_i hr; exact .inr (.inr (.inr ⟨_, hr, rfl⟩))
    · rename_i r hr
      cases a
      · exact .inr (.inl ⟨r, ha, hr, rfl⟩)
      · exact .inr (.inr (.inl ⟨r, ha, hr, rfl⟩))

/-- What a word decodes to: one of the four command rows, never a stage or a format (30_encoding R62). -/
theorem decode_cases (cw : Word) :
    (∃ d w, decode cw = .enc d w) ∨ decode cw = .pkt ∨ (∃ c, decode cw = .snd c) ∨
    (decode cw = .illegal cw) := by
  unfold decode
  split_ifs
  · exact .inl ⟨_, _, rfl⟩
  · exact .inr (.inl rfl)
  · exact .inr (.inr (.inl ⟨_, rfl⟩))
  · exact .inr (.inr (.inr rfl))

/-- What the core's own step can do, when it answers a next state (10_state R39). -/
theorem coreStep_cases {s t : State} (h : coreStep s = .next t) :
    (s.seq = .idle ∧ s.held = [] ∧ t = s) ∨
    (∃ cw rest d w, s.seq = .idle ∧ s.held = cw :: rest ∧ decode cw = .enc d w ∧
      t = encodeBitmap d w { s with held := rest }) ∨
    (∃ cw rest, s.seq = .idle ∧ s.held = cw :: rest ∧ decode cw = .pkt ∧
      t = packetize { s with held := rest }) ∨
    (∃ cw rest c, s.seq = .idle ∧ s.held = cw :: rest ∧ decode cw = .snd c ∧
      t = startSend c { s with held := rest }) ∨
    (∃ cw rest, s.seq = .idle ∧ s.held = cw :: rest ∧ decode cw = .illegal cw ∧
      t = raise .illegalCommand { s with held := rest }) ∨
    (s.seq = .sndIssue ∧ issueWrite s = .next t) ∨
    (s.seq = .sndWait ∧ takeAnswer s = .next t) := by
  unfold coreStep at h
  split at h
  · rename_i hs
    split at h
    · rename_i hh; cases h; exact .inl ⟨hs, hh, rfl⟩
    · rename_i cw rest hh
      have hs' : ({ s with held := rest } : State).seq = .idle := hs
      rcases decode_cases cw with ⟨d, w, e⟩ | e | ⟨c, e⟩ | e <;> rw [e] at h
      · rw [exec_enc_idle d w _ hs'] at h; cases h
        exact .inr (.inl ⟨cw, rest, d, w, hs, hh, e, rfl⟩)
      · rw [exec_pkt_idle _ hs'] at h; cases h
        exact .inr (.inr (.inl ⟨cw, rest, hs, hh, e, rfl⟩))
      · rw [exec_snd_idle c _ hs'] at h; cases h
        exact .inr (.inr (.inr (.inl ⟨cw, rest, c, hs, hh, e, rfl⟩)))
      · rw [exec_illegal_idle cw _ hs'] at h; cases h
        exact .inr (.inr (.inr (.inr (.inl ⟨cw, rest, hs, hh, e, rfl⟩))))
  · rename_i hs
    refine .inr (.inr (.inr (.inr (.inr (.inl ⟨hs, ?_⟩)))))
    simpa [exec, execWr, hs] using h
  · rename_i hs
    refine .inr (.inr (.inr (.inr (.inr (.inr ⟨hs, ?_⟩)))))
    simpa [exec, execWr, hs] using h

/-- A write is outstanding when the core waits with a request on the port (10_state R28). -/
theorem writeOutstanding_iff (s : State) :
    writeOutstanding s = true ↔ s.seq = .sndWait ∧ ∃ r, s.txReq = some r := by
  simp [writeOutstanding, Option.isSome_iff_exists]

/-- What a step can do, when it answers a next state: the core's own step, a host write, a read, a reset, a change of
an input, or the transport's answer to the outstanding write (70 R154). -/
theorem step_cases {s t : State} (h : step s = .next t) :
    (∃ s0, (s.agenda = [] ∧ s0 = s ∨ ∃ rest, s.agenda = .core :: rest ∧ s0 = { s with agenda := rest }) ∧
      coreStep s0 = .next t) ∨
    (∃ n v rest, s.agenda = .hostWrite n v :: rest ∧
      t = { s with agenda := rest, held := if n = 0 then s.held ++ [v] else s.held }) ∨
    (∃ m rest d k, s.agenda = m :: rest ∧
      ((∃ n, m = .hostRead n) ∨ m = .readBitmapSize ∨ (∃ i, m = .readBitmap i) ∨ m = .readFrameLength ∨
        (∃ o, m = .readFrame o)) ∧ t = { s with agenda := rest, hostData := some d, draws := k }) ∨
    (∃ rest, s.agenda = .reset :: rest ∧ t = resetCore { s with agenda := rest }) ∨
    (∃ ok r rest, s.agenda = .present ok r :: rest ∧ t = { s with agenda := rest, srcOk := ok, src := r }) ∨
    (∃ b rest, s.agenda = .capability b :: rest ∧ t = { s with agenda := rest, capWnr := b }) ∨
    (∃ a rest r, s.agenda = .respond a :: rest ∧ s.seq = .sndWait ∧ s.txReq = some r ∧
      t = (match a with
        | .ok => answerOk r { s with agenda := rest, txAnswer := some .ok }
        | .fail => answerFail { s with agenda := rest, txAnswer := some .fail })) := by
  unfold step stepAgenda at h
  split at h
  · rename_i ha; exact .inl ⟨s, .inl ⟨ha, rfl⟩, h⟩
  · rename_i m rest ha
    cases m with
    | core => exact .inl ⟨_, .inr ⟨rest, ha, rfl⟩, h⟩
    | hostWrite n v =>
      refine .inr (.inl ⟨n, v, rest, ha, ?_⟩)
      simp only [moveStep, hostWriteMove] at h
      split at h <;> rename_i hn <;> cases h <;> simp [hn]
    | hostRead n =>
      simp only [moveStep, hostReadMove] at h
      split at h
      · cases h
      · split at h <;> cases h
        · exact .inr (.inr (.inl ⟨_, rest, _, s.draws, ha, .inl ⟨n, rfl⟩, rfl⟩))
        · exact .inr (.inr (.inl ⟨_, rest, _, s.draws + 1, ha, .inl ⟨n, rfl⟩, rfl⟩))
    | readBitmapSize =>
      simp only [moveStep, readBitmapSizeMove] at h
      split at h <;> cases h
      exact .inr (.inr (.inl ⟨_, rest, _, s.draws, ha, .inr (.inl rfl), rfl⟩))
    | readBitmap i =>
      obtain ⟨b, k, hb, _⟩ := fetchByte_cases s.bmp i { s with agenda := rest }
      simp only [moveStep, readBitmapMove, hb] at h
      split at h <;> cases h
      exact .inr (.inr (.inl ⟨_, rest, _, k, ha, .inr (.inr (.inl ⟨i, rfl⟩)), rfl⟩))
    | readFrameLength =>
      simp only [moveStep, readFrameLengthMove] at h
      split at h <;> cases h
      exact .inr (.inr (.inl ⟨_, rest, _, s.draws, ha, .inr (.inr (.inr (.inl rfl))), rfl⟩))
    | readFrame o =>
      obtain ⟨b, k, hb, _⟩ := fetchByte_cases s.frm o { s with agenda := rest }
      simp only [moveStep, readFrameMove, hb] at h
      split at h <;> cases h
      exact .inr (.inr (.inl ⟨_, rest, _, k, ha, .inr (.inr (.inr (.inr ⟨o, rfl⟩))), rfl⟩))
    | reset => cases h; exact .inr (.inr (.inr (.inl ⟨rest, ha, rfl⟩)))
    | present ok r => cases h; exact .inr (.inr (.inr (.inr (.inl ⟨ok, r, rest, ha, rfl⟩))))
    | capability b => cases h; exact .inr (.inr (.inr (.inr (.inr (.inl ⟨b, rest, ha, rfl⟩)))))
    | respond a =>
      simp only [moveStep, answerMove] at h
      by_cases hw : writeOutstanding { s with agenda := rest } = true
      · rw [if_pos hw] at h
        obtain ⟨hs, r, hr⟩ := (writeOutstanding_iff _).mp hw
        simp only at hs hr
        refine .inr (.inr (.inr (.inr (.inr (.inr ⟨a, rest, r, ha, hs, hr, ?_⟩)))))
        simp only [exec, execWr, hs, takeAnswer, hr] at h
        cases a <;> cases h <;> rfl
      · rw [if_neg hw] at h; cases h

end Sys2Proof.Machine
end

