-- ==== Sys2Proof/Laws/Run.lean ====
section
/-! SUPPORT. What the invariant gives each step of a transmission, and how a run unfolds into steps. -/

namespace Sys2Proof.Machine

/-- The invariant speaks of the core's own state and the parameters alone: inputs, held words, moves to come, read
results and the count of free values are free. -/
theorem Inv.ports {s : State} (hi : Inv s) (srcOk : Bool) (src : Raster) (capWnr : Bool) (held : List Word)
    (agenda : List Move) (hostData : Option HostData) (draws : Nat) :
    Inv { s with
      srcOk := srcOk, src := src, capWnr := capWnr, held := held, agenda := agenda,
      hostData := hostData, draws := draws } :=
  ⟨hi.cap, hi.bmpWf, hi.frmWf,
    fun h => ⟨(hi.bitmap h).width, (hi.bitmap h).height, (hi.bitmap h).fits, (hi.bitmap h).bytes⟩, hi.frame, hi.chunk,
    fun h => ⟨(hi.sending h).frame, (hi.sending h).offset, (hi.sending h).aligned⟩, hi.waiting, hi.quiet, hi.work,
    hi.answer⟩

/-- `BMP_LEN` as the word of the byte count. -/
theorem bmpLen_eq_ofNat (s : State) (n : Nat) (h : n = s.bmpW.toNat / 8 * s.bmpH.toNat) :
    bmpLen s = BitVec.ofNat 32 n := by
  subst h
  apply BitVec.eq_of_toNat_eq
  have := (bmpLen s).isLt
  rw [bmpLen_toNat] at this
  rw [bmpLen_toNat, BitVec.toNat_ofNat]
  exact (Nat.mod_eq_of_lt this).symm

/-- `PKT` with a bitmap commits the header and the bitmap's bytes (43_header R100). -/
theorem packetize_of_bitmap (s : State) (payload : List Byte) (hv : s.bmpValid = true)
    (hl : payload.length = s.bmpW.toNat / 8 * s.bmpH.toNat) (hb : s.bmp = Memory.ofBytes payload) :
    packetize s = complete (commitFrame (8#32 + bmpLen s) (frameBytes (headerBytes s.bmpH (bmpLen s)) payload) s) := by
  have hr : Memory.readRange s.bmp 0 (bmpLen s).toNat = some payload := by
    have h : bitmapSize s.bmpW.toNat s.bmpH.toNat = payload.length := hl.symm
    rw [bmpLen_toNat, hb, h, Memory.readRange_ofBytes_all]
  rcases packetize_cases s with ⟨h, _⟩ | ⟨_, p, k, _, h2, h3⟩
  · rw [hv] at h; cases h
  · obtain ⟨rfl, rfl⟩ := h3 payload hr
    exact h2

/-- A valid frame is a list of at least nine bytes in `FRM` (43_header R105). -/
theorem Inv.frame_bytes {s : State} (hi : Inv s) (hv : s.frmValid = true) :
    ∃ frame : List Byte, s.frm = Memory.ofBytes frame ∧ frame.length = s.frmLen.toNat ∧ 9 ≤ frame.length := by
  obtain ⟨h, p, h1, h2, h3, h4⟩ := hi.frame hv
  exact ⟨_, h4, by simp [h3], by simp; omega⟩

/-- In `SND_ISSUE` the chunk is there to be written (44_chunk R114). -/
theorem Inv.issueWrite {s : State} (hi : Inv s) (hs : s.seq = .sndIssue) :
    ∃ bytes,
      Memory.readRange s.frm s.txOff.toNat (min s.chunk.toNat (s.frmLen.toNat - s.txOff.toNat)) = some bytes ∧
      issueWrite s = .next { s with
        txReq := some ⟨s.txMode, bytes⟩, txLog := s.txLog ++ [⟨s.txMode, bytes, .pending⟩], seq := .sndWait } := by
  have hss := hi.sending (by simp [hs])
  obtain ⟨frame, hF, hl, _⟩ := hi.frame_bytes hss.frame
  have ho := hss.offset
  have hr := Memory.readRange_ofBytes frame s.txOff.toNat
    (min s.chunk.toNat (s.frmLen.toNat - s.txOff.toNat)) (by omega)
  rw [← hF] at hr
  refine ⟨_, hr, ?_⟩
  unfold Machine.issueWrite
  simp only [(hi.quiet (by simp [hs])).1, nextChunk_eq hss.offset hi.chunk hr]
  rfl

/-- In `SND_WAIT` the request on the port is the chunk at `TX_OFF`, and the last beat records it (44_chunk R115). -/
theorem Inv.waiting_facts {s : State} (hi : Inv s) (hs : s.seq = .sndWait) :
    ∃ bytes log, s.txReq = some ⟨s.txMode, bytes⟩ ∧ s.txLog = log ++ [⟨s.txMode, bytes, .pending⟩] ∧ Settled log ∧
      bytes.length = min s.chunk.toNat (s.frmLen.toNat - s.txOff.toNat) := by
  obtain ⟨bytes, log, h1, h2, h3, h4⟩ := hi.waiting hs
  exact ⟨bytes, log, h2, h3, h4, (Memory.readRange_some h1).1⟩

/-- With no other move to make, the core moves. -/
theorem step_nil (s : State) (h : s.agenda = []) : step s = coreStep s := by
  simp only [step, stepAgenda, h]

/-- Otherwise the first move of the agenda is made. -/
theorem step_cons (s : State) (m : Move) (rest : List Move) (h : s.agenda = m :: rest) :
    step s = moveStep m { s with agenda := rest } := by
  simp only [step, stepAgenda, h]

/-- The transport's answer to the outstanding write (44_chunk R116, R117). -/
theorem step_respond (s : State) (a : TxAnswer) (rest : List Move) (r : TxRequest)
    (h : s.agenda = .respond a :: rest) (hs : s.seq = .sndWait) (hr : s.txReq = some r) :
    step s = .next (match a with
      | .ok => answerOk r { s with agenda := rest, txAnswer := some .ok }
      | .fail => answerFail { s with agenda := rest, txAnswer := some .fail }) := by
  have hw : writeOutstanding { s with agenda := rest } = true := (writeOutstanding_iff _).mpr ⟨hs, r, hr⟩
  rw [step_cons s _ _ h]
  unfold moveStep answerMove
  dsimp only
  rw [if_pos hw]
  unfold exec execWr
  dsimp only
  rw [hs]
  unfold takeAnswer
  dsimp only
  rw [hr]
  cases a <;> rfl

/-- A run of `k + 1` steps whose first step answers `t` is a run of `k` steps from `t`. -/
theorem run_succ {k : Nat} {s t : State} (h : step s = .next t) :
    Host.Core.run Sys2Proof.core (k + 1) s = Host.Core.run Sys2Proof.core k t := by
  have h' : Host.Core.step Sys2Proof.core s = .next t := h
  simp only [Host.Core.run, h']

/-- Whether a move is quiet depends on the buffers' valid bits and sizes alone. -/
theorem Quiet.of_eq {s t : State} {m : Move} (h : Quiet s m) (h1 : t.bmpValid = s.bmpValid) (h2 : t.bmpW = s.bmpW)
    (h3 : t.bmpH = s.bmpH) (h4 : t.frmValid = s.frmValid) (h5 : t.frmLen = s.frmLen) : Quiet t m := by
  cases m <;> simp only [Quiet, h1, h2, h3, h4, h5] at h ⊢ <;> exact h

/-- A quiet move, and a move of a core that waits for an answer, changes at most the inputs, the held words, what was
read and the count of free values (70 R154; 44_chunk R118). -/
theorem step_quiet {s : State} {m : Move} {rest : List Move} (ha : s.agenda = m :: rest)
    (hq : Quiet s m ∨ m = .core ∧ s.seq = .sndWait ∧ s.txAnswer = none) :
    ∃ t, step s = .next t ∧ t = { s with
      agenda := rest, held := s.held ++ commandWrites [m],
      srcOk := t.srcOk, src := t.src, capWnr := t.capWnr, hostData := t.hostData, draws := t.draws } := by
  rw [step_cons s m rest ha]
  rcases hq with hq | ⟨rfl, hs, hn⟩
  · cases m with
    | core => exact hq.elim
    | reset => exact hq.elim
    | respond a => exact hq.elim
    | hostWrite n v =>
      cases n with
      | zero => exact ⟨_, rfl, rfl⟩
      | succ n => exact ⟨{ s with agenda := rest }, rfl, by simp [commandWrites]⟩
    | hostRead n =>
      have hq : n ≠ 0 := hq
      simp only [moveStep, hostReadMove, if_neg hq]
      split <;> exact ⟨_, rfl, by simp [answerRead, answerFreeRead, commandWrites]⟩
    | readBitmapSize =>
      have hq : s.bmpValid = true := hq
      refine ⟨answerRead (.word (bmpDimWord { s with agenda := rest })) { s with agenda := rest }, ?_, ?_⟩
      · simp only [moveStep, readBitmapSizeMove]; rw [if_pos hq]
      · simp [answerRead, commandWrites]
    | readBitmap i =>
      have hq : s.bmpValid = true ∧ i < (bmpLen s).toNat := ⟨hq.1, by rw [bmpLen_toNat]; exact hq.2⟩
      have hq' : s.bmpValid = true ∧ i < (bmpLen { s with agenda := rest }).toNat := hq
      obtain ⟨b, k, hb, _⟩ := fetchByte_cases s.bmp i { s with agenda := rest }
      refine ⟨answerRead (.byte b) { s with agenda := rest, draws := k }, ?_, ?_⟩
      · simp only [moveStep, readBitmapMove, hb]
        rw [if_pos hq']
      · simp [answerRead, commandWrites]
    | readFrameLength =>
      have hq : s.frmValid = true := hq
      refine ⟨answerRead (.word s.frmLen) { s with agenda := rest }, ?_, ?_⟩
      · simp only [moveStep, readFrameLengthMove]; rw [if_pos hq]
      · simp [answerRead, commandWrites]
    | readFrame o =>
      have hq : s.frmValid = true ∧ o < s.frmLen.toNat := hq
      obtain ⟨b, k, hb, _⟩ := fetchByte_cases s.frm o { s with agenda := rest }
      refine ⟨answerRead (.byte b) { s with agenda := rest, draws := k }, ?_, ?_⟩
      · simp only [moveStep, readFrameMove, hb]
        rw [if_pos hq]
      · simp [answerRead, commandWrites]
    | present ok r => exact ⟨_, rfl, by simp [presentMove, commandWrites]⟩
    | capability b => exact ⟨_, rfl, by simp [capabilityMove, commandWrites]⟩
  · refine ⟨{ s with agenda := rest }, ?_, by simp [commandWrites]⟩
    simp only [moveStep, coreStep, hs, exec, execWr, takeAnswer, hn]

theorem commandWrites_append (a b : List Move) : commandWrites (a ++ b) = commandWrites a ++ commandWrites b :=
  List.filterMap_append

/-- Any number of such moves, one after another. -/
theorem run_quiet (ms : List Move) : ∀ {s : State} {rest : List Move}, s.agenda = ms ++ rest →
    (∀ m ∈ ms, Quiet s m ∨ m = .core ∧ s.seq = .sndWait ∧ s.txAnswer = none) →
    ∃ t : State, Host.Core.run Sys2Proof.core ms.length s = .next t ∧ t = { s with
      agenda := rest, held := s.held ++ commandWrites ms,
      srcOk := t.srcOk, src := t.src, capWnr := t.capWnr, hostData := t.hostData, draws := t.draws } := by
  induction ms with
  | nil =>
    intro s rest ha _
    refine ⟨s, rfl, ?_⟩
    rw [← show s.agenda = rest from ha, show commandWrites [] = [] from rfl, List.append_nil]
  | cons m ms ih =>
    intro s rest ha hq
    obtain ⟨u, h1, h2⟩ := step_quiet ha (hq m (by simp))
    have hu : ∀ m ∈ ms, Quiet u m ∨ m = .core ∧ u.seq = .sndWait ∧ u.txAnswer = none := by
      intro m' hm'
      rw [h2]
      rcases hq m' (by simp [hm']) with h | h
      · exact .inl (h.of_eq rfl rfl rfl rfl rfl)
      · exact .inr h
    obtain ⟨t, h3, h4⟩ := ih (show u.agenda = ms ++ rest by rw [h2]; rfl) hu
    refine ⟨t, ?_, ?_⟩
    · rw [List.length_cons, run_succ h1, h3]
    · rw [h4, show commandWrites (m :: ms) = commandWrites [m] ++ commandWrites ms from commandWrites_append [m] ms,
        ← List.append_assoc, h2]

end Sys2Proof.Machine
end

