-- ==== Sys2Proof/Laws/Invariant.lean ====
section
/-! SUPPORT. Each shared operation keeps the invariant, under the conditions in which a meaning calls it. -/

namespace Sys2Proof.Machine

/-- The bitmap part of the invariant speaks of the bitmap's own fields alone. -/
theorem BitmapOk.of_eq {s t : State} (h : BitmapOk s) (hw : t.bmpW = s.bmpW) (hh : t.bmpH = s.bmpH)
    (hb : t.bmp = s.bmp) (hp : t.params = s.params) : BitmapOk t := by
  constructor
  · rw [hw]; exact h.width
  · rw [hh]; exact h.height
  · rw [hw, hh, hp]; exact h.fits
  · rw [hw, hh, hb]; exact h.bytes

/-- An error of an idle core keeps the invariant (60_exceptions R121). -/
theorem Inv.raise {s : State} (hi : Inv s) (hs : s.seq = .idle) (k : ErrKind) : Inv (Machine.raise k s) where
  cap := hi.cap
  bmpWf := hi.bmpWf
  frmWf := hi.frmWf
  bitmap := fun h => (hi.bitmap h).of_eq rfl rfl rfl rfl
  frame := hi.frame
  chunk := hi.chunk
  sending := fun h => absurd rfl h
  waiting := by intro h; cases h
  quiet := fun _ => ⟨rfl, (hi.quiet (by simp [hs])).2⟩
  work := hi.work
  answer := hi.answer

/-- The commit of `ENC` keeps the invariant (42_pack R92). -/
theorem Inv.commitBitmap {s : State} (hi : Inv s) (hs : s.seq = .idle) (w h : Half) (bs : List Byte)
    (hw : 8 ≤ w.toNat ∧ w.toNat % 8 = 0) (hh : 1 ≤ h.toNat) (hf : bitmapSize w.toNat h.toNat ≤ s.params.bmpCap)
    (hl : bs.length = bitmapSize w.toNat h.toNat) : Inv (complete (Machine.commitBitmap w h bs s)) where
  cap := hi.cap
  bmpWf := Memory.ofBytes_wf bs
  frmWf := hi.frmWf
  bitmap := fun _ => ⟨hw, hh, hf, bs, hl, rfl⟩
  frame := hi.frame
  chunk := hi.chunk
  sending := fun h => absurd hs h
  waiting := fun h => by simp [hs] at h
  quiet := hi.quiet
  work := hi.work
  answer := hi.answer

/-- The commit of `PKT` keeps the invariant (43_header R103). -/
theorem Inv.commitFrame {s : State} (hi : Inv s) (hs : s.seq = .idle) (h : Half) (p : List Byte) (len : Word)
    (h1 : 1 ≤ p.length) (h2 : p.length ≤ s.params.bmpCap) (h3 : len.toNat = 8 + p.length) :
    Inv (complete (Machine.commitFrame len (frameBytes (headerBytes h (BitVec.ofNat 32 p.length)) p) s)) where
  cap := hi.cap
  bmpWf := hi.bmpWf
  frmWf := Memory.ofBytes_wf _
  bitmap := fun h => (hi.bitmap h).of_eq rfl rfl rfl rfl
  frame := fun _ => ⟨h, p, h1, h2, h3, rfl⟩
  chunk := hi.chunk
  sending := fun h => absurd hs h
  waiting := fun h => by simp [hs] at h
  quiet := hi.quiet
  work := hi.work
  answer := hi.answer

/-- The start of a transmission keeps the invariant (44_chunk R112). -/
theorem Inv.selectMode {s : State} (hi : Inv s) (hs : s.seq = .idle) (hv : s.frmValid = true) (c : Half)
    (hc : 1 ≤ c.toNat) : Inv (Machine.selectMode c s) where
  cap := hi.cap
  bmpWf := hi.bmpWf
  frmWf := hi.frmWf
  bitmap := fun h => (hi.bitmap h).of_eq rfl rfl rfl rfl
  frame := hi.frame
  chunk := hc
  sending := fun _ => by
    obtain ⟨frame, _, h1, h2⟩ := hi.frame_bytes hv
    exact ⟨hv, by show 0 < s.frmLen.toNat; omega, ⟨0, rfl⟩⟩
  waiting := by intro h; cases h
  quiet := fun _ => hi.quiet (by simp [hs])
  work := hi.work
  answer := hi.answer

/-- A core that was reset meets the invariant, whatever the parameters are within their bound (70 R140). -/
theorem Inv.resetCore (s : State) (h : 1 ≤ s.params.bmpCap ∧ s.params.bmpCap ≤ Config.bmpCapMax) :
    Machine.Inv (Machine.resetCore s) where
  cap := h
  bmpWf := rfl
  frmWf := rfl
  bitmap := by intro h; cases h
  frame := by intro h; cases h
  chunk := by show 1 ≤ (20#16).toNat; decide
  sending := fun h => absurd rfl h
  waiting := by intro h; cases h
  quiet := fun _ => ⟨rfl, fun b hb => by cases hb⟩
  work := rfl
  answer := rfl

/-- A run of `a + b` steps whose first `a` answer `t` is a run of `b` steps from `t`. -/
theorem run_add {a b : Nat} {s t : State} (h : Host.Core.run Sys2Proof.core a s = .next t) :
    Host.Core.run Sys2Proof.core (a + b) s = Host.Core.run Sys2Proof.core b t := by
  induction a generalizing s with
  | zero => simp only [Host.Core.run] at h; cases h; simp
  | succ a ih =>
    rw [show a + 1 + b = (a + b) + 1 by omega]
    cases hst : step s with
    | next u => rw [run_succ hst] at h ⊢; exact ih h
    | fault r =>
      have hst' : Host.Core.step Sys2Proof.core s = .fault r := hst
      simp only [Host.Core.run, hst'] at h; cases h
    | refused r =>
      have hst' : Host.Core.step Sys2Proof.core s = .refused r := hst
      simp only [Host.Core.run, hst'] at h; cases h

end Sys2Proof.Machine
end

