-- ==== Sys2Proof/Laws/PerInstr.lean ====
section
/-! SUPPORT. Families of statements made per constructor of `Instr`. -/

namespace Sys2Proof.Laws

/-- A well-formed operation that has a command word is what its word decodes to. -/
def RoundTrip.Statement (i : Instr) : Prop :=
  i.wellFormed = true → ∀ w, encode i = some w → decode w = i

theorem RoundTrip.enc (d : Bool) (w : Half) : RoundTrip.Statement (.enc d w) := by
  intro _ x hx; cases hx; exact decode_encodeEnc d w
theorem RoundTrip.pkt : RoundTrip.Statement .pkt := by
  intro _ x hx; cases hx; exact decode_encodePkt
theorem RoundTrip.snd (c : Half) : RoundTrip.Statement (.snd c) := by
  intro _ x hx; cases hx; exact decode_encodeSnd c
theorem RoundTrip.illegal (cw : Word) : RoundTrip.Statement (.illegal cw) := by
  intro hwf x hx; cases hx; exact decode_illegal cw (by simpa [Instr.wellFormed] using hwf)
theorem RoundTrip.val (w : Half) : RoundTrip.Statement (.val w) := by intro _ x hx; cases hx
theorem RoundTrip.dim (sw sh w : Half) : RoundTrip.Statement (.dim sw sh w) := by intro _ x hx; cases hx
theorem RoundTrip.rsmp (w h : Half) : RoundTrip.Statement (.rsmp w h) := by intro _ x hx; cases hx
theorem RoundTrip.luma (r g b : Byte) : RoundTrip.Statement (.luma r g b) := by intro _ x hx; cases hx
theorem RoundTrip.thr (d : Bool) (x y : Half) : RoundTrip.Statement (.thr d x y) := by intro _ x hx; cases hx
theorem RoundTrip.ink (s : BitVec 18) (t : Threshold) : RoundTrip.Statement (.ink s t) := by intro _ x hx; cases hx
theorem RoundTrip.pack (d : Bool) (xb y : Half) : RoundTrip.Statement (.pack d xb y) := by intro _ x hx; cases hx
theorem RoundTrip.hdr (height : Half) (n : Word) : RoundTrip.Statement (.hdr height n) := by intro _ x hx; cases hx
theorem RoundTrip.cat (n : Word) : RoundTrip.Statement (.cat n) := by intro _ x hx; cases hx
theorem RoundTrip.msel (c : Half) : RoundTrip.Statement (.msel c) := by intro _ x hx; cases hx
theorem RoundTrip.chk : RoundTrip.Statement .chk := by intro _ x hx; cases hx
theorem RoundTrip.wr : RoundTrip.Statement .wr := by intro _ x hx; cases hx
theorem RoundTrip.frameHeader (height : Half) (n : Word) : RoundTrip.Statement (.frameHeader height n) := by
  intro _ x hx; cases hx
theorem RoundTrip.frame (height : Half) (payload : List Byte) : RoundTrip.Statement (.frame height payload) := by
  intro _ x hx; cases hx
theorem RoundTrip.bitmapByte (bits : InkBits) : RoundTrip.Statement (.bitmapByte bits) := by intro _ x hx; cases hx
theorem RoundTrip.bayerM (row col : BitVec 2) : RoundTrip.Statement (.bayerM row col) := by intro _ x hx; cases hx
theorem RoundTrip.txwrite (mode : WriteMode) (bytes : List Byte) : RoundTrip.Statement (.txwrite mode bytes) := by
  intro _ x hx; cases hx

end Sys2Proof.Laws
end

