-- ==== Sys2Proof/Tests/Slice0.lean ====
section
/-! SUPPORT. Tests of the model on values worked out in the spec (95_test_vectors, and the examples of the rules), and
for every obligation with hypotheses a concrete case that meets them. -/

namespace Sys2Proof.Tests

open Sys2Proof.Machine

/-! ## Small states -/

/-- The state a meaning or a step answers, if it answers one. -/
def after (r : Result) : Option State :=
  match r with
  | .next s => some s
  | .fault _ => none
  | .refused _ => none

/-- The fault a meaning answers. -/
def faultOf (r : Result) : Option Fault :=
  match r with
  | .next _ => none
  | .fault f => some f
  | .refused _ => none

/-- The refusal a step answers. -/
def refusalOf (r : Result) : Option Refusal :=
  match r with
  | .next _ => none
  | .fault _ => none
  | .refused f => some f

/-- An opaque gray pixel. -/
def gray (v : Byte) : Pixel := ⟨v, v, v, 255#8⟩

/-- The source of 95 V12: black, then white. -/
def stepRaster : Raster := ⟨2#16, 1#16, [gray 0#8, gray 255#8]⟩

/-- The eight grays of 95 V9, as a resampled raster of `h` equal rows. -/
def v9Raster (h : Half) : Raster :=
  Raster.tabulate 8#16 h fun x _ =>
    gray (([0#8, 0#8, 32#8, 96#8, 159#8, 223#8, 255#8, 255#8] : List Byte).getD x 0#8)

/-- After reset, with a raster of the given size presented. -/
def withSource (r : Raster) : State := { State.reset with srcOk := true, src := r }

/-- The bitmap of 95 V15: 8 by 4, `55 AA 55 AA`. -/
def bitmapState : State :=
  { State.reset with
    bmp := Memory.ofBytes [0x55#8, 0xAA#8, 0x55#8, 0xAA#8], bmpW := 8#16, bmpH := 4#16, bmpValid := true }

/-- The frame of 95 V15 and V18. -/
def v15Frame : List Byte :=
  [0x42#8, 0x4D#8, 4#8, 0#8, 4#8, 0#8, 0#8, 0#8, 0x55#8, 0xAA#8, 0x55#8, 0xAA#8]

/-- Idle, with the bitmap and the frame of 95 V15. -/
def frameState : State := { bitmapState with frm := Memory.ofBytes v15Frame, frmLen := 12#32, frmValid := true }

/-- In `SND 5` of that frame, before the write of the chunk at `off`. -/
def issueState (off : Word) : State := { frameState with seq := .sndIssue, chunk := 5#16, txOff := off }

/-- The bytes of the chunk at `off`. -/
def chunkAt (off : Word) : List Byte := (v15Frame.drop off.toNat).take 5

/-- In `SND 5` of that frame, the chunk at `off` written and not answered. -/
def waitState (off : Word) : State :=
  { issueState off with
    seq := .sndWait, txReq := some ⟨.acknowledged, chunkAt off⟩, txLog := [⟨.acknowledged, chunkAt off, .pending⟩] }

/-! ## Those states meet the invariant -/

theorem frame_ok : FrameOk frameState :=
  ⟨4#16, [0x55#8, 0xAA#8, 0x55#8, 0xAA#8], by decide, by decide, by decide, by decide⟩

theorem bitmap_ok : BitmapOk bitmapState :=
  ⟨by decide, by decide, by decide, [0x55#8, 0xAA#8, 0x55#8, 0xAA#8], by decide, rfl⟩

theorem inv_bitmapState : Inv bitmapState where
  cap := by decide
  bmpWf := by decide
  frmWf := by decide
  bitmap := fun _ => bitmap_ok
  frame := by intro h; cases h
  chunk := by decide
  sending := fun h => absurd rfl h
  waiting := by intro h; cases h
  quiet := fun _ => ⟨rfl, fun b hb => by cases hb⟩
  work := rfl
  answer := rfl

theorem inv_frameState : Inv frameState where
  cap := by decide
  bmpWf := by decide
  frmWf := by decide
  bitmap := fun _ => ⟨by decide, by decide, by decide, [0x55#8, 0xAA#8, 0x55#8, 0xAA#8], by decide, rfl⟩
  frame := fun _ => frame_ok
  chunk := by decide
  sending := fun h => absurd rfl h
  waiting := by intro h; cases h
  quiet := fun _ => ⟨rfl, fun b hb => by cases hb⟩
  work := rfl
  answer := rfl

theorem inv_issueState (off : Word) (h1 : off.toNat < 12) (h2 : 5 ∣ off.toNat) : Inv (issueState off) where
  cap := by show 1 ≤ Config.bmpCapMax ∧ Config.bmpCapMax ≤ Config.bmpCapMax; decide
  bmpWf := inv_frameState.bmpWf
  frmWf := inv_frameState.frmWf
  bitmap := fun _ => ⟨bitmap_ok.width, bitmap_ok.height, bitmap_ok.fits, bitmap_ok.bytes⟩
  frame := fun _ => frame_ok
  chunk := by show 1 ≤ (5#16).toNat; decide
  sending := fun _ => ⟨rfl, h1, h2⟩
  waiting := by intro h; cases h
  quiet := fun _ => ⟨rfl, fun b hb => by cases hb⟩
  work := rfl
  answer := rfl

theorem inv_waitState (off : Word) (h1 : off.toNat < 12) (h2 : 5 ∣ off.toNat)
    (h3 : Memory.readRange (Memory.ofBytes v15Frame) off.toNat (min 5 (12 - off.toNat)) = some (chunkAt off)) :
    Inv (waitState off) where
  cap := by show 1 ≤ Config.bmpCapMax ∧ Config.bmpCapMax ≤ Config.bmpCapMax; decide
  bmpWf := inv_frameState.bmpWf
  frmWf := inv_frameState.frmWf
  bitmap := fun _ => ⟨bitmap_ok.width, bitmap_ok.height, bitmap_ok.fits, bitmap_ok.bytes⟩
  frame := fun _ => frame_ok
  chunk := by show 1 ≤ (5#16).toNat; decide
  sending := fun _ => ⟨rfl, h1, h2⟩
  waiting := fun _ => ⟨chunkAt off, [], h3, rfl, rfl, fun b hb => by cases hb⟩
  quiet := fun h => absurd rfl h
  work := rfl
  answer := rfl

/-- The first chunk, a middle one and the last. -/
theorem inv_waitStates : Inv (waitState 0#32) ∧ Inv (waitState 5#32) ∧ Inv (waitState 10#32) :=
  ⟨inv_waitState _ (by decide) (by decide) (by decide), inv_waitState _ (by decide) (by decide) (by decide),
    inv_waitState _ (by decide) (by decide) (by decide)⟩

/-! ## Well-formedness: each check refuses an ill-formed term -/

theorem test_wellFormed_illegal : (Instr.illegal 0x02000000#32).wellFormed = false := by decide
theorem test_wellFormed_dim : (Instr.dim 0#16 1#16 8#16).wellFormed = false := by decide
theorem test_wellFormed_dim_width : (Instr.dim 1#16 1#16 7#16).wellFormed = false := by decide
theorem test_wellFormed_rsmp : (Instr.rsmp 8#16 0#16).wellFormed = false := by decide
theorem test_wellFormed_ink : (Instr.ink 255001#18 .flat).wellFormed = false := by decide
theorem test_wellFormed_pack : (Instr.pack true 8192#16 0#16).wellFormed = false := by decide
theorem test_wellFormed_cat : (Instr.cat 536797186#32).wellFormed = false := by decide
theorem test_wellFormed_msel : (Instr.msel 0#16).wellFormed = false := by decide
theorem test_wellFormed_frame : (Instr.frame 1#16 []).wellFormed = false := by decide
theorem test_wellFormed_txwrite : (Instr.txwrite .acknowledged []).wellFormed = false := by decide

/-! ## Decoding: words written out from the formats of 30_encoding R60 -/

/-- Format E: `00000001 0000000 1 0000000110000000`, `ENC 1, 384`. -/
theorem test_decode_enc : decode 0b00000001000000010000000110000000#32 = .enc true 384#16 := by decide
/-- Format N: `00000010`, zeros. -/
theorem test_decode_pkt : decode 0b00000010000000000000000000000000#32 = .pkt := by decide
/-- Format S: `00000011 00000000 0000000000010100`, `SND 20`. -/
theorem test_decode_snd : decode 0b00000011000000000000000000010100#32 = .snd 20#16 := by decide
/-- `OP = 0x01` with bit 17 set (R63). -/
theorem test_decode_illegal : decode 0b00000001000000100000000000001000#32 = .illegal 0x01020008#32 := by decide
theorem test_encode : encode (.enc true 384#16) = some 0x01010180#32 ∧ encode .pkt = some 0x02000000#32 ∧
    encode (.snd 3#16) = some 0x03000003#32 := by decide
theorem test_decodeTableWord : decodeTableWord 32 0x01000008 = some (.enc false 8#16) ∧
    decodeTableWord 64 0x01000008 = none := by decide
/-- `PKT` placed after reset runs as the next step: `ERR = 5` (95 V19). -/
theorem test_withFetchWord : (after (step (State.reset.withFetchWord 32 0x02000000))).map statusWord = some 5#32 := by
  decide
/-- The same where another agent was next to move and the core was busy. -/
theorem test_withFetchWord_busy :
    (after (step ({ waitState 5#32 with agenda := [.reset] }.withFetchWord 32 0x00000000))).map (·.err) =
      some .illegalCommand := by decide

/-! ## Commands and stages: values of 95_test_vectors and of the rules' examples -/

/-- 95 V12, P6: `BMP = F0 F8 D0 E8`. -/
theorem test_enc_dithered : (after (exec (.enc true 8#16) (withSource stepRaster))).map (fun t => (t.bmp, t.bmpH)) =
    some (Memory.ofBytes [0xF0#8, 0xF8#8, 0xD0#8, 0xE8#8], 4#16) := by decide +kernel
/-- 40 R71: 12 is not a multiple of 8, `ERR = 1`. -/
theorem test_enc_width : (after (exec (.enc false 12#16) (withSource stepRaster))).map statusWord = some 1#32 := by
  decide
/-- 95 P4: with `SRC_OK = 0` the decode failure comes before the width. -/
theorem test_val_order : (after (exec (.val 0#16) State.reset)).map (·.err) = some .decodeFailure := by decide
/-- 40 R72: a tie rounds up. -/
theorem test_dim_tie : (after (exec (.dim 16#16 3#16 8#16) State.reset)).map (·.work.height) = some (some 2#16) := by
  decide
/-- 40 R72: 65664 rows are too many. -/
theorem test_dim_tall : (after (exec (.dim 1#16 171#16 384#16) State.reset)).map (·.err) = some .invalidInput := by
  decide
/-- 40 R71, corner cases: `max(1, …)` gives a source of height 0 a height. -/
theorem test_dim_flat : (after (exec (.dim 16#16 0#16 8#16) State.reset)).map (fun t => (t.work.height, t.draws)) =
    some (some 1#16, 0) := by decide
/-- 95 V12: pixels 2 and 4 of each row. -/
theorem test_rsmp : ((after (exec (.rsmp 8#16 4#16) (withSource stepRaster))).bind (·.work.q)).map
    (fun q => (q.pixel 2 0, q.pixel 4 3)) = some (gray 32#8, gray 159#8) := by decide +kernel
/-- 41 R80: `(200, 100, 50)` gives 124 200. -/
theorem test_luma : (after (exec (.luma 200#8 100#8 50#8) State.reset)).map (·.work.luma) =
    some (some 124200#18) := by decide
/-- 41 R81: `THR(1, 5, 2)` uses `M[2][1] = 11`. -/
theorem test_thr : (after (exec (.thr true 5#16 2#16) State.reset)).map (·.work.threshold) =
    some (some (.bayer 11#4)) := by decide
/-- 41 R83: 124.2 is ink at 128, and the tie is not. -/
theorem test_ink_flat : (after (exec (.ink 124200#18 .flat) State.reset)).map (·.work.ink) = some (some true) ∧
    (after (exec (.ink 128000#18 .flat) State.reset)).map (·.work.ink) = some (some false) := by decide
/-- 95 V7: at `m = 8`, 135 468 is ink and 135 469 is not. -/
theorem test_ink_bayer : (after (exec (.ink 135468#18 (.bayer 8#4)) State.reset)).map (·.work.ink) = some (some true) ∧
    (after (exec (.ink 135469#18 (.bayer 8#4)) State.reset)).map (·.work.ink) = some (some false) := by decide
/-- 95 V9: rows 2 and 3 of the eight grays, dithered. -/
theorem test_pack : (after (exec (.pack true 0#16 2#16)
      { State.reset with work := { Work.empty with q := some (v9Raster 4#16) } })).map (·.work.packed) =
        some (some 0xD0#8) ∧
    (after (exec (.pack true 0#16 3#16)
      { State.reset with work := { Work.empty with q := some (v9Raster 4#16) } })).map (·.work.bitmap) =
        some [(3, 0xE8#8)] := by decide +kernel
/-- 95 V15: the frame of the 8 by 4 bitmap. -/
theorem test_pkt : (after (exec .pkt bitmapState)).map (fun t => (t.frm, t.frmLen, statusWord t)) =
    some (Memory.ofBytes v15Frame, 12#32, 0x30#32) := by decide
/-- 95 V15: `PKT` with no bitmap. -/
theorem test_pkt_empty : (after (exec .pkt State.reset)).map (fun t => (t.err, t.frmValid)) =
    some (.sequenceError, false) := by decide
/-- 95 V14: height 300, 14 400 bytes. -/
theorem test_hdr : (after (exec (.hdr 300#16 14400#32) State.reset)).map (·.work.header) =
    some (some [0x42#8, 0x4D#8, 0x2C#8, 1#8, 0x40#8, 0x38#8, 0#8, 0#8]) := by decide
/-- 95 V14: the largest header, by the format row. -/
theorem test_frameHeader : (after (exec (.frameHeader 65535#16 536797185#32) State.reset)).map (·.work.header) =
    some (some [0x42#8, 0x4D#8, 0xFF#8, 0xFF#8, 1#8, 0xE0#8, 0xFE#8, 0x1F#8]) := by decide
/-- 95 V15: header, then the bitmap's bytes. -/
theorem test_cat : (after (exec (.cat 4#32) { bitmapState with
      work := { Work.empty with header := some (headerBytes 4#16 4#32) } })).map (·.work.frame) =
    some (some v15Frame) := by decide
/-- 43 R102 at an `n` beyond the bitmap: a frame of `8 + n` bytes, for the two bytes nothing has written a free value
each. -/
theorem test_cat_beyond : (after (exec (.cat 6#32) { bitmapState with
      work := { Work.empty with header := some (headerBytes 4#16 6#32) } })).map
    (fun t => (t.work.frame.map (fun f => (f.length, f.take 12 == headerBytes 4#16 6#32 ++ v15Frame.drop 8)), t.draws)) =
      some (some (14, true), 2) := by decide
/-- 95 V15: a payload that looks like the magic is copied as it is. -/
theorem test_frame : (after (exec (.frame 1#16 [0x42#8, 0x4D#8]) State.reset)).map (·.work.frame) =
    some (some [0x42#8, 0x4D#8, 1#8, 0#8, 2#8, 0#8, 0#8, 0#8, 0x42#8, 0x4D#8]) := by decide
/-- 95 V9: only the leftmost pixel is ink. -/
theorem test_bitmapByte : (after (exec (.bitmapByte ⟨true, false, false, false, false, false, false, false⟩)
    State.reset)).map (·.work.packed) = some (some 0x80#8) := by decide
/-- 41 R82: `M[2][1] = 11`, `M[3][0] = 15`. -/
theorem test_bayerM : (after (exec (.bayerM 2#2 1#2) State.reset)).map (·.work.bayer) = some (some 11#4) ∧
    (after (exec (.bayerM 3#2 0#2) State.reset)).map (·.work.bayer) = some (some 15#4) := by decide
/-- 95 V16, V19: `CAP_WNR = 1` at acceptance. -/
theorem test_snd : (after (exec (.snd 20#16) { frameState with capWnr := true })).map
    (fun t => (t.chunk, t.txMode, t.txOff, t.seq, statusWord t)) =
      some (20#16, .unacknowledged, 0#32, .sndIssue, 0xF0#32) := by decide
/-- 95 P4: with a frame, `SND 0` is `INVALID_INPUT`. -/
theorem test_snd_zero : (after (exec (.snd 0#16) frameState)).map statusWord = some 0x31#32 := by decide
/-- 95 V16: the acknowledged mode. -/
theorem test_msel : (after (exec (.msel 5#16) frameState)).map (fun t => (t.chunk, t.txMode)) =
    some (5#16, .acknowledged) := by decide
/-- 95 V17: `FRM_LEN = 10, CHUNK = 3, TX_OFF = 9` gives `(9, 1)`. -/
theorem test_chk : (after (exec .chk { State.reset with frmLen := 10#32, chunk := 3#16, txOff := 9#32 })).map
    (·.work.slice) = some (some ⟨9, 1⟩) := by decide
/-- 44 R113 outside its precondition: the offset is `TX_OFF`, and the length was drawn. -/
theorem test_chk_end : (after (exec .chk { State.reset with frmLen := 10#32, chunk := 3#16, txOff := 10#32 })).map
    (fun t => (t.work.slice.map (·.offset), t.draws)) = some (some 10, 1) := by decide
/-- 95 V18: the second chunk is `00 00 00 55 AA`. -/
theorem test_wr_issue : (after (exec .wr (issueState 5#32))).map (fun t => (t.txReq, t.seq)) =
    some (some ⟨.acknowledged, [0#8, 0#8, 0#8, 0x55#8, 0xAA#8]⟩, .sndWait) := by decide
/-- 95 V18: after `OK` to the last chunk `TX_OFF = 12`, `ERR = 0`; a failure at the second leaves `TX_OFF = 5`,
`STATUS = 0x33`. -/
theorem test_wr_answer :
    (after (exec .wr { waitState 10#32 with txAnswer := some .ok })).map (fun t => (t.txOff, t.seq, statusWord t)) =
      some (12#32, .idle, 0x30#32) ∧
    (after (exec .wr { waitState 5#32 with txAnswer := some .fail })).map (fun t => (t.txOff, t.seq, statusWord t)) =
      some (5#32, .idle, 0x33#32) := by decide
/-- 10 R33: the request stands on the port. -/
theorem test_txwrite : (after (exec (.txwrite .unacknowledged [7#8]) State.reset)).map (·.txReq) =
    some (some ⟨.unacknowledged, [7#8]⟩) := by decide
/-- 95 V19: an illegal word right after reset. -/
theorem test_illegal : (after (exec (.illegal 0#32) State.reset)).map statusWord = some 4#32 := by decide
/-- 95 P1: `BMP_DIM` and `BMP_LEN` of an 8 by 8 bitmap. -/
theorem test_registers : registerValue 2 { bitmapState with bmpH := 8#16 } = some 0x00080008#32 ∧
    registerValue 3 { bitmapState with bmpH := 8#16 } = some 8#32 := by decide
/-- 95 V9: pixel `(9, 1)` of the 16-wide bitmap whose byte 3 is `AA` is white, pixel `(8, 1)` is ink. -/
theorem test_render : renderBit { State.reset with bmpW := 16#16, bmp := [(3, 0xAA#8)] } 9 1 = some false ∧
    renderBit { State.reset with bmpW := 16#16, bmp := [(3, 0xAA#8)] } 8 1 = some true := by decide

/-- 70 R153: a run has ended although a read is still to come, and has not while a command is. -/
theorem test_runEnded : runEnded { State.reset with agenda := [.hostRead 1] } ∧
    ¬ runEnded { State.reset with agenda := [.hostRead 1, .hostWrite 0 encodePkt] } := by
  constructor
  · refine ⟨fun m hm v => ?_, rfl, rfl, rfl⟩
    obtain rfl : m = .hostRead 1 := by simpa using hm
    simp
  · intro h
    exact h.1 (.hostWrite 0 encodePkt) (by simp) encodePkt rfl

/-! ## Cases that meet the hypotheses of the obligations -/

/-- A legal `ENC` at the smallest and at the largest width. -/
theorem witness_EncLegal : EncLegal 8#16 (withSource stepRaster) ∧
    EncLegal 65528#16 (withSource ⟨65528#16, 1#16, []⟩) :=
  ⟨⟨rfl, rfl, by decide, by decide, by decide, by decide, by decide, by decide⟩,
    ⟨rfl, rfl, by decide, by decide, by decide, by decide, by decide, by decide⟩⟩

theorem witness_EncodedInstructionDecodesToItself :
    (Instr.enc true 65535#16).wellFormed = true ∧ encode (.enc true 65535#16) = some 0x0101FFFF#32 ∧
    (Instr.illegal 0#32).wellFormed = true ∧ encode (.illegal 0#32) = some 0#32 := by decide

theorem witness_IllegalWords : State.reset.seq = .idle ∧ State.reset.txReq = none := by decide

theorem witness_StepRunsDecodedCommand :
    (({ State.reset with held := [0x02000000#32] } : State).seq = .idle ∧
      ({ State.reset with held := [0x02000000#32] } : State).agenda = []) ∧
    ({ State.reset with held := [0x02000000#32], agenda := [.core, .reset] } : State).agenda = .core :: [.reset] :=
  ⟨⟨rfl, rfl⟩, rfl⟩

/-- A write to register 0, one to register 1, a busy core that steps, and a command for a busy core. -/
theorem witness_CommandsAreHeldWhileBusy :
    ({ State.reset with agenda := [.hostWrite 0 1#32] } : State).agenda = .hostWrite 0 1#32 :: [] ∧
    ({ State.reset with agenda := [.hostWrite 1 1#32] } : State).agenda = .hostWrite 1 1#32 :: [] ∧
    ((issueState 0#32).seq ≠ .idle ∧ step (issueState 0#32) = .next (waitState 0#32)) ∧
    (Instr.pkt.wellFormed = true ∧ encode .pkt = some 0x02000000#32) :=
  ⟨rfl, rfl, ⟨by decide, rfl⟩, by decide⟩

/-- Each check of `ENC` in turn: no raster; `w = 0`; `w mod 8 ≠ 0`; `SRC_W = 0`; `SRC_H = 0`; a height of 65664; a
bitmap above `BMP_CAP`. -/
theorem witness_EncErrorsInOrder :
    State.reset.srcOk = false ∧
    ((withSource stepRaster).srcOk = true ∧ (0#16).toNat = 0 ∧ (12#16).toNat % 8 ≠ 0) ∧
    (withSource ⟨0#16, 1#16, []⟩).src.width.toNat = 0 ∧ (withSource ⟨1#16, 0#16, []⟩).src.height.toNat = 0 ∧
    65535 < roundedHeight 1 171 384 ∧
    ({ withSource stepRaster with params := ⟨3, .reference⟩ } : State).params.bmpCap <
      bitmapSize 8 (roundedHeight stepRaster.width.toNat stepRaster.height.toNat 8) := by decide

theorem witness_EncIsRepeatable : State.reset.seq = .idle ∧
    exec (.enc false 8#16) State.reset = .next { State.reset with err := .decodeFailure } := ⟨rfl, rfl⟩

theorem witness_EncFrame : State.reset.txReq = none ∧
    exec (.enc false 8#16) State.reset = .next { State.reset with err := .decodeFailure } ∧
    ErrKind.decodeFailure ≠ .ok := ⟨rfl, rfl, by decide⟩

theorem witness_ValChecksInputs : State.reset.srcOk = false ∧ (withSource stepRaster).srcOk = true ∧
    (8#16).toNat ≠ 0 ∧ (8#16).toNat % 8 = 0 ∧ stepRaster.width.toNat ≠ 0 ∧ stepRaster.height.toNat ≠ 0 ∧
    (0#16).toNat = 0 := by decide

/-- A height of 65535 fits, 65536 does not, and 4 rows do not fit three bytes; the operands for which no quotient is
stated. -/
theorem witness_HeightIsTheRoundedQuotient :
    (65535 : Nat) = max 1 ⌊(((65535#16).toNat : ℚ) * (8#16).toNat / (8#16).toNat + 1 / 2)⌋₊ ∧
    (65536 : Nat) = max 1 ⌊(((8192#16).toNat : ℚ) * (8#16).toNat / (1#16).toNat + 1 / 2)⌋₊ ∧
    (4 : Nat) = max 1 ⌊(((1#16).toNat : ℚ) * (8#16).toNat / (2#16).toNat + 1 / 2)⌋₊ ∧
    8 / 8 * 65535 ≤ Config.bmpCapMax ∧ 3 < 8 / 8 * 4 ∧ (0#16).toNat = 0 ∧ (7#16).toNat < 8 := by
  refine ⟨?_, ?_, ?_, by decide, by decide, by decide, by decide⟩
  · rw [← roundedHeight_eq_floor (8#16).toNat (65535#16).toNat (8#16).toNat (by decide)]; decide
  · rw [← roundedHeight_eq_floor (1#16).toNat (8192#16).toNat (8#16).toNat (by decide)]; decide
  · rw [← roundedHeight_eq_floor (2#16).toNat (1#16).toNat (8#16).toNat (by decide)]; decide

theorem witness_RsmpMakesARasterOfTheSize : 0 < (1#16).toNat ∧ 65534 < (65535#16).toNat := by decide

theorem witness_ResamplingKeepsConstants : 1 ≤ (⟨1#16, 1#16, [gray 9#8]⟩ : Raster).width.toNat ∧
    ∀ x y, x < 1 → y < 1 → (⟨1#16, 1#16, [gray 9#8]⟩ : Raster).pixel x y = gray 9#8 := by
  refine ⟨by decide, fun x y hx hy => ?_⟩
  obtain rfl : x = 0 := by omega
  obtain rfl : y = 0 := by omega
  rfl

/-- Two lists of pixels that differ outside the range only. -/
theorem witness_ResamplingReadsPixelsInRangeOnly :
    (⟨1#16, 1#16, [gray 9#8]⟩ : Raster) ≠ ⟨1#16, 1#16, [gray 9#8, gray 1#8]⟩ ∧
    ∀ x y, x < 1 → y < 1 → (⟨1#16, 1#16, [gray 9#8]⟩ : Raster).pixel x y =
      (⟨1#16, 1#16, [gray 9#8, gray 1#8]⟩ : Raster).pixel x y := by
  refine ⟨by decide, fun x y hx hy => ?_⟩
  obtain rfl : x = 0 := by omega
  obtain rfl : y = 0 := by omega
  rfl

/-- A source of two columns enlarged to four, at the edge columns and rows; and the premises at equal size. -/
theorem witness_ReferenceFilterIsBilinear :
    ((withSource stepRaster).params.filter = .reference ∧ 1 ≤ (withSource stepRaster).src.width.toNat ∧
      1 ≤ (withSource stepRaster).src.height.toNat) ∧
    (0 < (4#16).toNat ∧ 3 < (4#16).toNat ∧ 0 < (1#16).toNat ∧ Pixel.r ∈ channels ∧ Pixel.a ∈ channels) ∧
    1 < stepRaster.width.toNat ∧ 0 < stepRaster.height.toNat :=
  ⟨by decide, ⟨by decide, by decide, by decide, by simp [channels], by simp [channels]⟩, by decide⟩

/-- Two sources that differ in `A` alone. -/
theorem witness_AlphaDecidesNoBit :
    (⟨1#16, 1#16, [⟨1#8, 2#8, 3#8, 0#8⟩]⟩ : Raster) ≠ ⟨1#16, 1#16, [⟨1#8, 2#8, 3#8, 255#8⟩]⟩ ∧
    ∀ x y, x < 1 → y < 1 →
      ((⟨1#16, 1#16, [⟨1#8, 2#8, 3#8, 0#8⟩]⟩ : Raster).pixel x y).r =
        ((⟨1#16, 1#16, [⟨1#8, 2#8, 3#8, 255#8⟩]⟩ : Raster).pixel x y).r ∧
      ((⟨1#16, 1#16, [⟨1#8, 2#8, 3#8, 0#8⟩]⟩ : Raster).pixel x y).g =
        ((⟨1#16, 1#16, [⟨1#8, 2#8, 3#8, 255#8⟩]⟩ : Raster).pixel x y).g ∧
      ((⟨1#16, 1#16, [⟨1#8, 2#8, 3#8, 0#8⟩]⟩ : Raster).pixel x y).b =
        ((⟨1#16, 1#16, [⟨1#8, 2#8, 3#8, 255#8⟩]⟩ : Raster).pixel x y).b := by
  refine ⟨by decide, fun x y hx hy => ?_⟩
  obtain rfl : x = 0 := by omega
  obtain rfl : y = 0 := by omega
  exact ⟨rfl, rfl, rfl⟩

/-- A darker pixel than an ink pixel; pixels of one luminance and of different colours at positions equal modulo 4;
gray levels at both ends of each range of clause (g). -/
theorem witness_DitheringLaws : ((5#18).toNat < (6#18).toNat ∧ inkDecision 6#18 (.bayer 0#4) = true) ∧
    (5 % 4 = 1 % 4 ∧ 6 % 4 = 2 % 4) ∧
    (grayOf ((⟨1#16, 1#16, [⟨0#8, 10#8, 0#8, 0#8⟩]⟩ : Raster).pixel 0 0) =
      grayOf ((⟨1#16, 1#16, [⟨4#8, 0#8, 41#8, 255#8⟩]⟩ : Raster).pixel 0 0)) ∧
    ((0#8).toNat ≤ 7 ∧ (7#8).toNat ≤ 7) ∧ ((8 ≤ (8#8).toNat ∧ (8#8).toNat ≤ 23) ∧ 8 ≤ (23#8).toNat ∧ (23#8).toNat ≤ 23) ∧
    (128#8).toNat = 128 ∧ 248 ≤ (248#8).toNat ∧ 248 ≤ (255#8).toNat := by
  refine ⟨by decide, by decide, ?_, by decide⟩
  show grayOf ⟨0#8, 10#8, 0#8, 0#8⟩ = grayOf ⟨4#8, 0#8, 41#8, 255#8⟩
  norm_num [grayOf]

theorem witness_PackPlacesEightPixels :
    ({ State.reset with work := { Work.empty with q := some (v9Raster 4#16) } } : State).work.q =
      some (v9Raster 4#16) := rfl

/-- The second clause also in a state whose bitmap is marked valid and not written. -/
theorem witness_PktCommitsTheFrame : ({ bitmapState with bmp := [] } : State).bmpValid = true ∧ bitmapState.seq = .idle ∧ bitmapState.bmpValid = true ∧
    ([0x55#8, 0xAA#8, 0x55#8, 0xAA#8] : List Byte).length = bitmapState.bmpW.toNat / 8 * bitmapState.bmpH.toNat ∧
    bitmapState.bmp = Memory.ofBytes [0x55#8, 0xAA#8, 0x55#8, 0xAA#8] := ⟨rfl, rfl, rfl, by decide, rfl⟩

/-- For `FrameStructure` and `PktIsItsStagesInOrder`. -/
theorem witness_FrameStructure : Inv bitmapState ∧ bitmapState.seq = .idle ∧ bitmapState.bmpValid = true :=
  ⟨inv_bitmapState, rfl, rfl⟩

theorem witness_PktFrame : State.reset.seq = .idle ∧ State.reset.txReq = none ∧
    exec .pkt State.reset = .next { State.reset with err := .sequenceError } ∧ ErrKind.sequenceError ≠ .ok ∧
    (Memory.readRange bitmapState.bmp 0 (bmpLen bitmapState).toNat).isSome = true :=
  ⟨rfl, rfl, rfl, by decide, by decide⟩

/-- A header with the bitmap it precedes; the shortest payload, and the longest and one more. -/
theorem witness_CatPutsHeaderBeforePayload :
    ({ bitmapState with work := { Work.empty with header := some [] } } : State).work.header = some [] ∧
    Memory.readRange bitmapState.bmp 0 (4#32).toNat = some [0x55#8, 0xAA#8, 0x55#8, 0xAA#8] ∧
    Memory.read bitmapState.bmp 3 = some 0xAA#8 ∧
    ([] : List Byte).length < 4294967296 ∧ (List.replicate 4294967295 (0#8)).length < 4294967296 ∧
    4294967296 ≤ (List.replicate 4294967296 (0#8)).length :=
  ⟨rfl, by decide, by decide, by decide, by rw [List.length_replicate]; decide, by rw [List.length_replicate]⟩

/-- No bitmap; no frame; an `ENC` and a `PKT` that end `OK`; a step that is no reset, with both valid bits set. -/
theorem witness_SequenceErrors :
    (State.reset.bmpValid = false ∧ State.reset.frmValid = false) ∧
    (after (exec (.enc false 8#16) (withSource stepRaster))).map (·.err) = some .ok ∧
    (after (exec .pkt bitmapState)).map (·.err) = some .ok ∧
    (step frameState = .next frameState ∧ frameState.agenda.head? ≠ some .reset ∧ frameState.bmpValid = true ∧
      frameState.frmValid = true) :=
  ⟨by decide, by decide +kernel, by decide, rfl, by decide, rfl, rfl⟩

/-- No frame; a frame and `c = 0`; a frame and the smallest `c`. -/
theorem witness_SndAcceptance : State.reset.frmValid = false ∧ frameState.frmValid = true ∧ frameState.seq = .idle ∧
    (0#16).toNat = 0 ∧ 1 ≤ (1#16).toNat := by decide

/-- The first chunk, and the last byte; the end of the frame, and a chunk size of 0. -/
theorem witness_ChkCutsTheNextChunk :
    ((issueState 0#32).txOff.toNat < (issueState 0#32).frmLen.toNat ∧ 1 ≤ (issueState 0#32).chunk.toNat) ∧
    (issueState 11#32).txOff.toNat < (issueState 11#32).frmLen.toNat ∧
    (issueState 12#32).frmLen.toNat ≤ (issueState 12#32).txOff.toNat ∧
    ({ issueState 0#32 with chunk := 0#16 } : State).chunk.toNat = 0 := by decide

/-- For `WrIssuesTheChunk` and `SndIsItsStagesInOrder`: the first and the last chunk; and a state outside the invariant
with a free port. -/
theorem witness_WrIssuesTheChunk : (Inv (issueState 0#32) ∧ (issueState 0#32).seq = .sndIssue) ∧
    Inv (issueState 10#32) ∧ ({ State.reset with seq := .sndIssue } : State).txReq = none :=
  ⟨⟨inv_issueState _ (by decide) (by decide), rfl⟩, inv_issueState _ (by decide) (by decide), rfl⟩

/-- `s` with other moves to come meets the invariant when `s` does. -/
theorem inv_agenda {s : State} (hi : Inv s) (moves : List Move) : Inv { s with agenda := moves } :=
  hi.ports s.srcOk s.src s.capWnr s.held moves s.hostData s.draws

/-- An answer to the last chunk and one to an earlier chunk. -/
theorem witness_AnswerOkAdvances :
    (Inv { waitState 10#32 with agenda := [.respond .ok] } ∧ 10 + (chunkAt 10#32).length = 12) ∧
    (Inv { waitState 5#32 with agenda := [.respond .ok] } ∧ 5 + (chunkAt 5#32).length < 12) ∧
    (waitState 5#32).seq = .sndWait :=
  ⟨⟨inv_agenda inv_waitStates.2.2 _, by decide⟩, ⟨inv_agenda inv_waitStates.2.1 _, by decide⟩, rfl⟩

theorem witness_AnswerFailAbandons : Inv { waitState 5#32 with agenda := [.respond .fail] } ∧
    (waitState 5#32).seq = .sndWait ∧ 1 ≤ (1#16).toNat :=
  ⟨inv_agenda inv_waitStates.2.1 _, rfl, by decide⟩

/-- A `PKT` written while the transport is silent (95 P8). -/
theorem witness_NoAnswerNoProgress :
    Inv { waitState 5#32 with agenda := [.hostWrite 0 encodePkt] } ∧ (waitState 5#32).seq = .sndWait ∧
    (∀ m ∈ ({ waitState 5#32 with agenda := [.hostWrite 0 encodePkt] } : State).agenda,
      m ≠ .reset ∧ ∀ a, m ≠ .respond a) ∧
    Host.Core.run Sys2Proof.core 2 { waitState 5#32 with agenda := [.hostWrite 0 encodePkt] } =
      .next { waitState 5#32 with held := [encodePkt] } := by
  refine ⟨inv_agenda inv_waitStates.2.1 _, rfl, fun m hm => ?_, rfl⟩
  obtain rfl : m = .hostWrite 0 encodePkt := by simpa using hm
  exact ⟨by decide, fun a => by simp⟩

/-- An idle core after reset, and a waiting one. -/
theorem witness_StepsWithNothingToDo :
    (State.reset.agenda = [] ∧ State.reset.seq = .idle ∧ State.reset.held = []) ∧
    ((waitState 5#32).agenda = [] ∧ (waitState 5#32).seq = .sndWait ∧ (waitState 5#32).txAnswer = none) := by decide

/-- A round with a `PKT` written, a register read and the capability changed before the core issues the chunk, and a new
raster, a frame byte read and an idle move of the core while the write is outstanding. -/
def busyRound : Round :=
  ⟨[.hostWrite 0 encodePkt, .hostRead 1, .capability true], [.present true stepRaster, .readFrame 11, .core]⟩

/-- A round with no other move. -/
def quietRound : Round := ⟨[], []⟩

theorem busyRound_ok (s : State) (hv : s.frmValid = true) (hl : s.frmLen = 12#32) : busyRound.Ok s := by
  refine ⟨fun m hm => ?_, fun m hm => ?_⟩
  · simp only [busyRound, List.mem_cons, List.not_mem_nil, or_false] at hm
    rcases hm with rfl | rfl | rfl <;> simp [Quiet]
  · simp only [busyRound, List.mem_cons, List.not_mem_nil, or_false] at hm
    rcases hm with rfl | rfl | rfl <;> simp [Quiet, hv, hl]

theorem quietRound_ok (s : State) : quietRound.Ok s := ⟨(fun _ hm => nomatch hm), (fun _ hm => nomatch hm)⟩

/-- 95 V18: three chunks of 5, all answered `TX_OK`. -/
theorem witness_TransmissionSendsTheFrame :
    Inv { frameState with
      held := [encodeSnd 5#16], agenda := .core :: (okMoves [busyRound, quietRound, busyRound] ++ []) } ∧
    frameState.seq = .idle ∧ frameState.frmValid = true ∧ 1 ≤ (5#16).toNat ∧
    Memory.readRange frameState.frm 0 frameState.frmLen.toNat = some v15Frame ∧
    [busyRound, quietRound, busyRound].length = chunkCount 12 5 ∧ busyRound.Ok frameState ∧ quietRound.Ok frameState :=
  ⟨inv_frameState.ports _ _ _ _ _ _ _, rfl, rfl, by decide, by decide, by decide, busyRound_ok _ rfl rfl,
    quietRound_ok _⟩

/-- 95 V18: a failure at the first chunk and at the last. -/
theorem witness_FailedTransmissionStopsAtTheChunk :
    Inv { frameState with
      held := [encodeSnd 5#16], agenda := .core :: (okMoves [] ++ (quietRound.moves .fail ++ [])) } ∧
    Inv { frameState with
      held := [encodeSnd 5#16],
      agenda := .core :: (okMoves [busyRound, quietRound] ++ (busyRound.moves .fail ++ [])) } ∧
    ([] : List Round).length < chunkCount 12 5 ∧ [busyRound, quietRound].length < chunkCount 12 5 ∧
    busyRound.Ok frameState ∧ quietRound.Ok frameState :=
  ⟨inv_frameState.ports _ _ _ _ _ _ _, inv_frameState.ports _ _ _ _ _ _ _, by decide, by decide,
    busyRound_ok _ rfl rfl, quietRound_ok _⟩

theorem witness_ChunksCoverTheFrame : 1 ≤ v15Frame.length ∧ 1 ≤ 5 ∧ chunkCount v15Frame.length 5 = 3 ∧
    0 + 1 < 3 := by decide

/-- The capability changes while a write is outstanding (95 V16). -/
theorem witness_ModeIsLatchedPerTransmission : (waitState 0#32).seq ≠ .idle ∧
    step { waitState 0#32 with agenda := [.capability true] } = .next { waitState 0#32 with capWnr := true } ∧
    ({ waitState 0#32 with agenda := [.capability true] } : State).agenda.head? ≠ some .reset :=
  ⟨by decide, rfl, by decide⟩

theorem witness_SndFrame : (frameState.seq = .idle ∧ exec (.snd 5#16) frameState = .next (issueState 0#32)) ∧
    (exec .wr (issueState 0#32) = .next (waitState 0#32) ∧ Inv (issueState 0#32)) :=
  ⟨⟨rfl, rfl⟩, rfl, inv_issueState _ (by decide) (by decide)⟩

theorem witness_SndIsItsStagesInOrder : frameState.seq = .idle ∧ frameState.frmValid = true ∧ 1 ≤ (1#16).toNat := by
  decide

/-- A free port, and one that is taken. -/
theorem witness_TxwritePutsOneRequest : State.reset.txReq = none ∧ (waitState 0#32).txReq ≠ none := by decide

/-- Stages without what an earlier one hands on, `WR` outside an `SND`, an answer to no request, a taken port. -/
theorem witness_StagesStopOutsideTheirPlace :
    State.reset.work.q = none ∧ State.reset.work.header = none ∧ State.reset.seq = .idle ∧
    (({ waitState 0#32 with txReq := none, txAnswer := some .ok } : State).seq = .sndWait ∧
      ({ waitState 0#32 with txReq := none, txAnswer := some .ok } : State).txAnswer ≠ none) ∧
    (({ waitState 0#32 with seq := .sndIssue } : State).seq = .sndIssue ∧
      ({ waitState 0#32 with seq := .sndIssue } : State).txReq ≠ none) := by decide

/-- Each way a command ends (95 V12, P4, V15, V18, V19). -/
theorem witness_StatusLayout :
    (after (exec .pkt bitmapState)).map (·.err) = some .ok ∧
    (after (exec (.snd 0#16) frameState)).map (·.err) = some .invalidInput ∧
    (after (exec (.val 8#16) State.reset)).map (·.err) = some .decodeFailure ∧
    (after (exec .wr { waitState 5#32 with txAnswer := some .fail })).map (·.err) = some .transportWriteFailure ∧
    (after (exec (.illegal 0#32) State.reset)).map (·.err) = some .illegalCommand ∧
    (after (exec .pkt State.reset)).map (·.err) = some .sequenceError := by decide

/-- Every listed register, then each kind of read whose value is unspecified. -/
theorem witness_RegisterReads :
    (∀ n ∈ [1, 2, 3, 4, 5, 6], (registerValue n frameState).isSome = true) ∧
    (frameState.bmpValid = true ∧ frameState.frmValid = true) ∧
    (6 < 7 ∧ State.reset.bmpValid = false ∧ State.reset.frmValid = false) ∧
    ({ frameState with agenda := [.hostRead 6] } : State).agenda = .hostRead 6 :: [] :=
  ⟨by decide, by decide, by decide, rfl⟩

/-- The last byte of each buffer, and the first index beyond it. -/
theorem witness_BufferReads : Inv { frameState with agenda := [.readBitmap 3] } ∧ frameState.bmpValid = true ∧
    3 < frameState.bmpW.toNat / 8 * frameState.bmpH.toNat ∧ frameState.bmpW.toNat / 8 * frameState.bmpH.toNat ≤ 4 ∧
    frameState.frmValid = true ∧ 11 < frameState.frmLen.toNat ∧ frameState.frmLen.toNat ≤ 12 ∧
    Inv { State.reset with agenda := [.readBitmapSize] } ∧ State.reset.bmpValid = false ∧
    State.reset.frmValid = false := by
  refine ⟨inv_agenda inv_frameState _, rfl, by decide, by decide, rfl, by decide, by decide, ?_, rfl, rfl⟩
  exact ⟨by decide, rfl, rfl, by (intro h; cases h), by (intro h; cases h), by decide, fun h => absurd rfl h,
    by (intro h; cases h), fun _ => ⟨rfl, fun b hb => by cases hb⟩, rfl, rfl⟩

/-- A reset while a write is outstanding (70 R141). -/
theorem witness_ResetFromAnywhere :
    ({ waitState 5#32 with agenda := [.reset] } : State).agenda = .reset :: [] := rfl

/-- A raster presented and the capability changed while a write is outstanding. -/
theorem witness_InputMovesSetTheirInput :
    ({ waitState 5#32 with agenda := [.present true stepRaster] } : State).agenda = .present true stepRaster :: [] ∧
    ({ waitState 5#32 with agenda := [.capability true] } : State).agenda = .capability true :: [] := ⟨rfl, rfl⟩

theorem witness_StepKeepsInvariant : Inv (issueState 0#32) ∧ step (issueState 0#32) = .next (waitState 0#32) :=
  ⟨inv_issueState _ (by decide) (by decide), rfl⟩

/-- Each refusal happens, from a state that meets the invariant. -/
theorem witness_NoStepFaults :
    refusalOf (step { frameState with agenda := [.hostRead 0] }) = some .commandRegisterIsWriteOnly ∧
    refusalOf (step { State.reset with agenda := [.readBitmapSize] }) = some .bitmapReadRefused ∧
    refusalOf (step { frameState with agenda := [.readBitmap 4] }) = some .bitmapReadRefused ∧
    refusalOf (step { bitmapState with agenda := [.readFrameLength] }) = some .frameReadRefused ∧
    refusalOf (step { frameState with agenda := [.readFrame 12] }) = some .frameReadRefused ∧
    refusalOf (step { frameState with agenda := [.respond .ok] }) = some .answerWithoutWrite ∧
    faultOf (step frameState) = none ∧ Inv frameState :=
  ⟨by decide, by decide, by decide, by decide, by decide, by decide, by decide, inv_frameState⟩

/-- Each of the six transitions of `SEQ` happens. -/
theorem witness_SequencerTransitions :
    (after (step { frameState with held := [encodeSnd 5#16] })).map (·.seq) = some .sndIssue ∧
    (after (step (issueState 0#32))).map (·.seq) = some .sndWait ∧
    (after (step { waitState 0#32 with agenda := [.respond .ok] })).map (·.seq) = some .sndIssue ∧
    (after (step { waitState 10#32 with agenda := [.respond .ok] })).map (·.seq) = some .idle ∧
    (after (step { waitState 0#32 with agenda := [.respond .fail] })).map (·.seq) = some .idle ∧
    (after (step { waitState 0#32 with agenda := [.reset] })).map (·.seq) = some .idle := by decide

theorem witness_OneWriteAtATime : Inv (issueState 0#32) ∧ step (issueState 0#32) = .next (waitState 0#32) ∧
    (waitState 0#32).txLog.length ≠ (issueState 0#32).txLog.length ∧
    (issueState 0#32).agenda.head? ≠ some .reset :=
  ⟨inv_issueState _ (by decide) (by decide), rfl, by decide, by decide⟩

end Sys2Proof.Tests
end

section
/-! The values after reset (10_state R38): what a move of the agenda does, and the buffer reads refused while their
valid bit is 0. -/

namespace Sys2Proof.Machine

/-- With a move to come, a step makes the first move of the agenda (70 R154). -/
theorem step_of_agenda_cons {s : State} {m : Move} {rest : List Move} (h : s.agenda = m :: rest) :
    step s = moveStep m { s with agenda := rest } := by
  unfold step stepAgenda
  rw [h]

/-- The bitmap read port refuses every index while `BMP_VALID = 0` (10_state R35). -/
theorem readBitmapMove_of_invalid (i : Nat) {s : State} (h : s.bmpValid = false) :
    readBitmapMove i s = .refused .bitmapReadRefused :=
  if_neg fun hv => Bool.false_ne_true (h.symm.trans hv.1)

/-- The frame read port refuses every index while `FRM_VALID = 0` (10_state R36). -/
theorem readFrameMove_of_invalid (i : Nat) {s : State} (h : s.frmValid = false) :
    readFrameMove i s = .refused .frameReadRefused :=
  if_neg fun hv => Bool.false_ne_true (h.symm.trans hv.1)

theorem step_readBitmap_of_invalid {s : State} {i : Nat} {rest : List Move}
    (ha : s.agenda = .readBitmap i :: rest) (hv : s.bmpValid = false) :
    step s = .refused .bitmapReadRefused :=
  (step_of_agenda_cons ha).trans (readBitmapMove_of_invalid i hv)

theorem step_readFrame_of_invalid {s : State} {i : Nat} {rest : List Move}
    (ha : s.agenda = .readFrame i :: rest) (hv : s.frmValid = false) :
    step s = .refused .frameReadRefused :=
  (step_of_agenda_cons ha).trans (readFrameMove_of_invalid i hv)

theorem statusWord_reset : statusWord State.reset = 0#32 := by decide

/-- Settles O53: the fields are those of `State.reset`, and the reads meet a valid bit that is 0. -/
theorem resetValues : Obligations.ResetValues :=
  ⟨rfl, rfl, rfl, rfl, rfl, rfl, rfl, rfl, rfl, rfl, statusWord_reset,
    fun _ _ => step_readBitmap_of_invalid rfl rfl,
    fun _ _ => step_readFrame_of_invalid rfl rfl⟩

end Sys2Proof.Machine
end

section
/-! Which words are illegal (30_encoding R63): the bits of each command row split into `OP` and the must-be-zero
bits, and the words that match no row. -/

namespace Sys2Proof

/-- A field is `a` above `b` exactly when its upper part is `a` and its lower part is `b`. -/
theorem extractLsb'_eq_append_iff {n high low : Nat} (x : BitVec n) (start : Nat) (a : BitVec high)
    (b : BitVec low) :
    x.extractLsb' start (high + low) = a ++ b ↔
      x.extractLsb' (start + low) high = a ∧ x.extractLsb' start low = b := by
  have hsplit : x.extractLsb' start (high + low) =
      x.extractLsb' (start + low) high ++ x.extractLsb' start low :=
    (BitVec.extractLsb'_append_extractLsb'_eq_extractLsb' rfl).symm
  rw [hsplit]
  constructor
  · intro h
    have hhigh := congrArg (BitVec.extractLsb' low high) h
    have hlow := congrArg (BitVec.extractLsb' 0 low) h
    rw [BitVec.extractLsb'_append_eq_left, BitVec.extractLsb'_append_eq_left] at hhigh
    rw [BitVec.extractLsb'_append_eq_right, BitVec.extractLsb'_append_eq_right] at hlow
    exact ⟨hhigh, hlow⟩
  · rintro ⟨rfl, rfl⟩
    rfl

/-- Format E: `OP = 0x01`, and bits 23:17 are zero (R60). -/
theorem hits_enc_iff_fields (cw : Word) :
    CommandRow.enc.hits cw = true ↔ cw.extractLsb' 24 8 = 0x01#8 ∧ cw.extractLsb' 17 7 = 0#7 :=
  (hits_enc_iff cw).trans (extractLsb'_eq_append_iff cw 17 0x01#8 0#7)

/-- Format N: `OP = 0x02`, and bits 23:0 are zero (R60). -/
theorem hits_pkt_iff_fields (cw : Word) :
    CommandRow.pkt.hits cw = true ↔ cw.extractLsb' 24 8 = 0x02#8 ∧ cw.extractLsb' 0 24 = 0#24 := by
  rw [hits_pkt_iff, ← extractLsb'_eq_append_iff cw 0 0x02#8 0#24, BitVec.extractLsb'_eq_self]
  rfl

/-- Format S: `OP = 0x03`, and bits 23:16 are zero (R60). -/
theorem hits_snd_iff_fields (cw : Word) :
    CommandRow.snd.hits cw = true ↔ cw.extractLsb' 24 8 = 0x03#8 ∧ cw.extractLsb' 16 8 = 0#8 :=
  (hits_snd_iff cw).trans (extractLsb'_eq_append_iff cw 16 0x03#8 0#8)

/-- The decoder answers the row `ILLEGAL` exactly on the words that match no command row (R62, R63). -/
theorem decode_eq_illegal_iff (cw : Word) :
    decode cw = .illegal cw ↔
      ¬ CommandRow.enc.hits cw = true ∧ ¬ CommandRow.pkt.hits cw = true ∧ ¬ CommandRow.snd.hits cw = true := by
  unfold decode
  split_ifs with henc hpkt hsnd
  · simp [henc]
  · simp [hpkt]
  · simp [hsnd]
  · simp [henc, hpkt, hsnd]

/-- The illegal words by their fields: whichever of the three values `OP` has, a must-be-zero bit of that format is
set (R63). -/
theorem decode_eq_illegal_iff_fields (cw : Word) :
    decode cw = .illegal cw ↔
      (cw.extractLsb' 24 8 = 0x01#8 → cw.extractLsb' 17 7 ≠ 0#7) ∧
      (cw.extractLsb' 24 8 = 0x02#8 → cw.extractLsb' 0 24 ≠ 0#24) ∧
      (cw.extractLsb' 24 8 = 0x03#8 → cw.extractLsb' 16 8 ≠ 0#8) := by
  rw [decode_eq_illegal_iff, hits_enc_iff_fields, hits_pkt_iff_fields, hits_snd_iff_fields]
  simp only [not_and, ne_eq]

end Sys2Proof

namespace Sys2Proof.Machine

/-- An illegal word accepted by an idle core whose transport port is free sets `ERR` alone (R63, 60_exceptions
R121). -/
theorem exec_illegal_of_idle_free (cw : Word) {s : State} (hs : s.seq = .idle) (hr : s.txReq = none) :
    exec (.illegal cw) s = .next { s with err := .illegalCommand } := by
  rw [exec_illegal_idle cw s hs, raise_idle .illegalCommand s hs hr]

/-- Settles O4: a word is illegal when it has the bits of no command row, and the error of an idle core with a free
port is a change of `ERR`. -/
theorem illegalWords : Obligations.IllegalWords := fun cw =>
  ⟨decode_eq_illegal_iff_fields cw, fun _ hs hr => exec_illegal_of_idle_free cw hs hr⟩

end Sys2Proof.Machine
end

section
/-! The consequences of the dithering rules (41_dither R85): a gray pixel against a threshold as integers, the gaps
between luminance and threshold, the period of four of the thresholds, and the ink count of a 4 by 4 gray tile. -/

namespace Sys2Proof.Machine

/-- A gray pixel `R = G = B = g` has `gray = g` (41_dither R80). -/
theorem luminance_gray_toNat (g : Byte) : (luminance g g g).toNat = 1000 * g.toNat := by
  rw [luminance_toNat]; omega

/-- `INK` of a gray pixel is `g < t`, cleared of the denominator 32 (R83, R84). -/
theorem inkDecision_gray_iff (g : Byte) (t : Threshold) :
    inkDecision (luminance g g g) t = true ↔ 32 * g.toNat < thresholdTimes32 t := by
  cases t <;> simp only [inkDecision, thresholdTimes32, luminance_gray_toNat, decide_eq_true_eq] <;> omega

theorem inkDecision_gray_flat_iff (g : Byte) :
    inkDecision (luminance g g g) .flat = true ↔ g.toNat ≤ 127 := by
  rw [inkDecision_gray_iff, thresholdTimes32]; omega

theorem inkDecision_gray_bayer_iff (g : Byte) (m : BitVec 4) :
    inkDecision (luminance g g g) (.bayer m) = true ↔ g.toNat ≤ 16 * m.toNat + 7 := by
  have := m.isLt
  rw [inkDecision_gray_iff, thresholdTimes32]; omega

/-- `floor(t(m)) = 16*m + 7`, as `m` is at most 15 (R85 (c)). -/
theorem floor_bayerThreshold (m : BitVec 4) :
    ⌊((2 * (m.toNat : ℚ) + 1) * 255 / 32)⌋₊ = 16 * m.toNat + 7 := by
  have hm : (m.toNat : ℚ) ≤ 15 := by exact_mod_cast Nat.le_of_lt_succ m.isLt
  rw [Nat.floor_eq_iff (by positivity)]
  push_cast
  constructor <;> linarith

theorem thresholdTimes32_bounds (t : Threshold) : 255 ≤ thresholdTimes32 t ∧ thresholdTimes32 t ≤ 7905 := by
  cases t with
  | flat => decide
  | bayer m =>
    have := m.isLt
    simp only [thresholdTimes32]
    omega

/-- Every threshold is between `t(0)` and `t(15)` (R81). -/
theorem threshold_bounds (t : Threshold) :
    7.96875 ≤ (thresholdTimes32 t : ℚ) / 32 ∧ (thresholdTimes32 t : ℚ) / 32 ≤ 247.03125 := by
  obtain ⟨hlow, hhigh⟩ := thresholdTimes32_bounds t
  have hlow' : (255 : ℚ) ≤ thresholdTimes32 t := by exact_mod_cast hlow
  have hhigh' : (thresholdTimes32 t : ℚ) ≤ 7905 := by exact_mod_cast hhigh
  constructor <;> linarith

theorem inkDecision_black (t : Threshold) : inkDecision (luminance 0#8 0#8 0#8) t = true :=
  (inkDecision_gray_iff _ t).mpr (lt_of_lt_of_le (by decide) (thresholdTimes32_bounds t).1)

theorem inkDecision_white (t : Threshold) : inkDecision (luminance 255#8 255#8 255#8) t = false :=
  Bool.eq_false_iff.mpr fun h =>
    absurd ((inkDecision_gray_iff _ t).mp h) (not_lt.mpr ((thresholdTimes32_bounds t).2.trans (by decide)))

/-- The even side and the odd side of the dithered comparison (R85 (a)). -/
theorem four_mul_ne_bayerNumerator (n m : Nat) : 4 * n ≠ 31875 * (2 * m + 1) := by omega

/-- A nonzero integer over `n` is at least `1/n` away from zero. -/
theorem one_div_le_abs_intCast_div {k : ℤ} {n : ℚ} (hn : 0 < n) (hk : k ≠ 0) : 1 / n ≤ |(k : ℚ) / n| := by
  have hone : (1 : ℚ) ≤ |(k : ℚ)| := by exact_mod_cast Int.one_le_abs hk
  rw [abs_div, abs_of_pos hn]
  exact div_le_div_of_nonneg_right hone hn.le

/-- Over the denominator 4000 the luminance and a dithering threshold have different numerators (R85 (a)). -/
theorem luminance_bayerThreshold_gap (n m : Nat) :
    1 / 4000 ≤ |(n : ℚ) / 1000 - (2 * (m : ℚ) + 1) * 255 / 32| := by
  have hne : 4 * (n : ℤ) - 31875 * (2 * m + 1) ≠ 0 := by
    have := four_mul_ne_bayerNumerator n m
    omega
  have hfraction : (n : ℚ) / 1000 - (2 * (m : ℚ) + 1) * 255 / 32 =
      ((4 * (n : ℤ) - 31875 * (2 * m + 1) : ℤ) : ℚ) / 4000 := by
    push_cast; ring
  rw [hfraction]
  exact one_div_le_abs_intCast_div (by norm_num) hne

/-- Over the denominator 1000 the luminance and 128 have numerators that are equal or not (R85 (b)). -/
theorem luminance_flatThreshold_gap (n : Nat) : (n : ℚ) / 1000 = 128 ∨ 1 / 1000 ≤ |(n : ℚ) / 1000 - 128| := by
  have hfraction : (n : ℚ) / 1000 - 128 = (((n : ℤ) - 128000 : ℤ) : ℚ) / 1000 := by
    push_cast; ring
  rw [← sub_eq_zero, hfraction]
  by_cases hk : (n : ℤ) - 128000 = 0
  · exact .inl (by rw [hk]; norm_num)
  · exact .inr (one_div_le_abs_intCast_div (by norm_num) hk)

/-- At one threshold a darker pixel than an ink pixel is ink (R85 (e)). -/
theorem inkDecision_of_darker {t : Threshold} {dark light : BitVec 18} (hlt : dark.toNat < light.toNat)
    (hink : inkDecision light t = true) : inkDecision dark t = true := by
  rw [inkDecision_iff] at hink ⊢
  have hcast : (dark.toNat : ℚ) < light.toNat := by exact_mod_cast hlt
  exact lt_trans (div_lt_div_of_pos_right hcast (by norm_num)) hink

/-- Without dithering a pixel is ink exactly when its luminance is below 128 (R85 (e)). -/
theorem inkAt_flat_iff (q : Raster) (x y : Nat) : inkAt false q x y = true ↔ grayOf (q.pixel x y) < 128 :=
  inkAt_iff false q x y

/-- The threshold repeats every four columns and every four rows (R81, R85 (f)). -/
theorem thresholdAt_congr (d : Bool) {x y x' y' : Nat} (hx : x % 4 = x' % 4) (hy : y % 4 = y' % 4) :
    thresholdAt d x y = thresholdAt d x' y' := by
  have hcol : BitVec.ofNat 2 x = BitVec.ofNat 2 x' := BitVec.eq_of_toNat_eq (by simpa using hx)
  have hrow : BitVec.ofNat 2 y = BitVec.ofNat 2 y' := BitVec.eq_of_toNat_eq (by simpa using hy)
  rw [thresholdAt, thresholdAt, hcol, hrow]

theorem thresholdOf_congr (d : Bool) {x y x' y' : Nat} (hx : x % 4 = x' % 4) (hy : y % 4 = y' % 4) :
    thresholdOf d x y = thresholdOf d x' y' := by
  rw [← thresholdTimes32_eq, ← thresholdTimes32_eq, thresholdAt_congr d hx hy]

/-- The ink bit depends on the luminance and the position modulo 4 only (R85 (f)). -/
theorem inkAt_congr (d : Bool) {q q' : Raster} {x y x' y' : Nat} (hx : x % 4 = x' % 4) (hy : y % 4 = y' % 4)
    (hgray : grayOf (q.pixel x y) = grayOf (q'.pixel x' y')) : inkAt d q x y = inkAt d q' x' y' := by
  rw [Bool.eq_iff_iff, inkAt_iff, inkAt_iff, hgray, thresholdOf_congr d hx hy]

/-- The Bayer element at place `i`, in reading order, of the 4 by 4 tile whose top left pixel is at column `x`,
row `y`. -/
def tileElement (x y i : Nat) : BitVec 4 :=
  bayerElement (BitVec.ofNat 2 (y + i / 4)) (BitVec.ofNat 2 (x + i % 4))

theorem thresholdAt_tile (x y i : Nat) :
    thresholdAt true (x + i % 4) (y + i / 4) = .bayer (tileElement x y i) := rfl

theorem tileElement_mod_four (x y i : Nat) : tileElement (x % 4) (y % 4) i = tileElement x y i := by
  have hthreshold : thresholdAt true (x % 4 + i % 4) (y % 4 + i / 4) = thresholdAt true (x + i % 4) (y + i / 4) :=
    thresholdAt_congr true (Nat.mod_add_mod x 4 _) (Nat.mod_add_mod y 4 _)
  simpa only [thresholdAt_tile, Threshold.bayer.injEq] using hthreshold

/-- From each of the sixteen phases of the pattern a tile lists 0 to 15 in some order. -/
theorem tileElements_perm_of_phase : ∀ x < 4, ∀ y < 4,
    ((List.range 16).map fun i => (tileElement x y i).toNat).Perm (List.range 16) := by
  decide

/-- A 4 by 4 tile at any place holds each of 0 to 15 once (R82). -/
theorem tileElements_perm (x y : Nat) :
    ((List.range 16).map fun i => (tileElement x y i).toNat).Perm (List.range 16) := by
  have hphase := tileElements_perm_of_phase (x % 4) (Nat.mod_lt x (by decide)) (y % 4) (Nat.mod_lt y (by decide))
  simpa only [tileElement_mod_four] using hphase

/-- The ink pixels of a tile of one gray level are as many as the `m` with `floor(t(m)) ≥ g` (R85 (g)). -/
theorem tileInkCount_eq (g : Byte) (x y : Nat) :
    ((List.range 16).filter fun i =>
      inkDecision (luminance g g g) (thresholdAt true (x + i % 4) (y + i / 4))).length =
    ((List.range 16).filter fun m => decide (g.toNat ≤ 16 * m + 7)).length := by
  have hink (i : Nat) : inkDecision (luminance g g g) (thresholdAt true (x + i % 4) (y + i / 4)) =
      decide (g.toNat ≤ 16 * (tileElement x y i).toNat + 7) := by
    rw [Bool.eq_iff_iff, thresholdAt_tile, inkDecision_gray_bayer_iff, decide_eq_true_eq]
  have hcount := (tileElements_perm x y).countP_eq fun m => decide (g.toNat ≤ 16 * m + 7)
  rw [List.countP_map] at hcount
  simp only [← List.countP_eq_length_filter, hink]
  exact hcount

/-- The `m` with `16*m + 7 ≥ g` are those from `(g + 8) / 16` on. -/
theorem grayLevelCount_eq (g : Nat) :
    ((List.range 16).filter fun m => decide (g ≤ 16 * m + 7)).length = 16 - (g + 8) / 16 := by
  have hcutoff (m : Nat) : g ≤ 16 * m + 7 ↔ (g + 8) / 16 ≤ m := by omega
  simp only [hcutoff]
  rw [← List.Ico.zero_bot, List.Ico.filter_le, List.Ico.length, Nat.zero_max]

/-- Settles O23: the gaps (a) and (b) by integer numerators over one denominator, the cut-offs (c) and (d) by
`inkDecision_gray_iff`, (e) and (f) by the rational form of the ink bit, and (g) by the tile being a permutation of
0 to 15. -/
theorem ditheringLaws : Obligations.DitheringLaws := by
  refine ⟨fun lum m => ⟨by omega, by omega, four_mul_ne_bayerNumerator _ _, luminance_bayerThreshold_gap _ _⟩,
    fun lum => luminance_flatThreshold_gap _,
    fun g m => ⟨inkDecision_gray_flat_iff g, inkDecision_gray_bayer_iff g m, floor_bayerThreshold m⟩,
    fun t => ⟨inkDecision_black t, inkDecision_white t, threshold_bounds t⟩,
    ⟨fun _ _ _ => inkDecision_of_darker, inkAt_flat_iff⟩,
    ⟨fun d x y => thresholdAt_congr d (Nat.mod_mod x 4).symm (Nat.mod_mod y 4).symm,
      fun d _ _ _ _ _ _ => inkAt_congr d⟩, ?_⟩
  intro g x y n hn
  have hn' : n = ((List.range 16).filter fun m => decide (g.toNat ≤ 16 * m + 7)).length :=
    hn.trans (tileInkCount_eq g x y)
  have hvalue : n = 16 - (g.toNat + 8) / 16 := hn'.trans (grayLevelCount_eq _)
  exact ⟨hn', by omega, by omega, by omega, by omega⟩

end Sys2Proof.Machine
end

section
/-! The frame that `PKT` builds (43_header R105): what each field of a header with a payload behind it reads as, and
the bounds of the bitmap's length. -/

namespace Sys2Proof.Machine

/-- A field of a byte sequence is read back from its buffer as it is, whatever stands before and behind it. -/
theorem Memory.readRange_ofBytes_middle (before field behind : List Byte) :
    Memory.readRange (Memory.ofBytes (before ++ (field ++ behind))) before.length field.length = some field := by
  rw [Memory.readRange_ofBytes _ _ _ (by simp only [List.length_append]; omega), List.drop_left, List.take_left]

section FrameFields

variable (height : Half) (n : Word) (payload : List Byte)

/-- A frame as the concatenation of its fields (R101, R102). -/
theorem frameBytes_eq_fields :
    frameBytes (headerBytes height n) payload = magic ++ (le16 height ++ (le32 n ++ payload)) := by
  simp only [frameBytes, headerBytes, List.append_assoc]

theorem readRange_frame_magic :
    Memory.readRange (Memory.ofBytes (frameBytes (headerBytes height n) payload)) 0 2 = some magic := by
  rw [frameBytes_eq_fields]
  exact Memory.readRange_ofBytes_middle [] magic _

theorem readRange_frame_height :
    Memory.readRange (Memory.ofBytes (frameBytes (headerBytes height n) payload)) 2 2 = some (le16 height) := by
  rw [frameBytes_eq_fields]
  exact Memory.readRange_ofBytes_middle magic (le16 height) _

theorem readRange_frame_length :
    Memory.readRange (Memory.ofBytes (frameBytes (headerBytes height n) payload)) 4 4 = some (le32 n) := by
  rw [frameBytes_eq_fields, ← List.append_assoc]
  exact Memory.readRange_ofBytes_middle (magic ++ le16 height) (le32 n) payload

/-- Behind the eight header bytes stands the payload (R102). -/
theorem read_frame_payload (i : Nat) :
    Memory.read (Memory.ofBytes (frameBytes (headerBytes height n) payload)) (8 + i) = payload[i]? := by
  rw [Memory.read_ofBytes, frameBytes, List.getElem?_append_right (Nat.le_add_right 8 i), headerBytes_length,
    Nat.add_sub_cancel_left]

end FrameFields

/-- A bitmap has a byte, and no more than the largest `BMP_CAP` (10_state R23, 42_pack R91). -/
theorem Inv.bitmapSize_bounds {s : State} (hi : Inv s) (hv : s.bmpValid = true) :
    1 ≤ bitmapSize s.bmpW.toNat s.bmpH.toNat ∧ bitmapSize s.bmpW.toNat s.bmpH.toNat ≤ 536797185 := by
  have hb := hi.bitmap hv
  have hrow : 1 ≤ s.bmpW.toNat / 8 := (Nat.one_le_div_iff (by decide)).mpr hb.width.1
  exact ⟨Nat.mul_pos hrow hb.height, hb.fits.trans hi.cap.2⟩

/-- `FRM_LEN = 8 + n`, and nothing wraps (R103, R105). -/
theorem Inv.frameLength_toNat {s : State} (hi : Inv s) (hv : s.bmpValid = true) :
    (8#32 + bmpLen s).toNat = 8 + bitmapSize s.bmpW.toNat s.bmpH.toNat := by
  have hsize := (hi.bitmapSize_bounds hv).2
  rw [BitVec.toNat_add, bmpLen_toNat]
  exact Nat.mod_eq_of_lt (by simp only [BitVec.toNat_ofNat]; omega)

/-- An idle core with a bitmap carries out `PKT` by committing the header and the bitmap's bytes (R100). -/
theorem exec_pkt_of_bitmap {s : State} {payload : List Byte} (hs : s.seq = .idle) (hv : s.bmpValid = true)
    (hlength : payload.length = bitmapSize s.bmpW.toNat s.bmpH.toNat) (hbmp : s.bmp = Memory.ofBytes payload) :
    exec .pkt s = .next (complete
      (commitFrame (8#32 + bmpLen s) (frameBytes (headerBytes s.bmpH (bmpLen s)) payload) s)) := by
  rw [exec_pkt_idle s hs, packetize_of_bitmap s payload hv hlength hbmp]

/-- Settles O28: `PKT` commits the header and the bitmap's bytes (`exec_pkt_of_bitmap`), and each field of that frame
reads back as it was laid out. -/
theorem frameStructure : Obligations.FrameStructure := by
  intro s hi hs hv
  obtain ⟨payload, hlength, hbmp⟩ := (hi.bitmap hv).bytes
  have hfrmLen := hi.frameLength_toNat hv
  have hbounds := hi.bitmapSize_bounds hv
  refine ⟨_, _, exec_pkt_of_bitmap hs hv hlength hbmp, rfl, ?_⟩
  simp only [complete_frm, complete_frmLen, commitFrame_frm, commitFrame_frmLen]
  refine ⟨readRange_frame_magic _ _ _, ?_, ?_, fun i _ => ?_, hfrmLen, by omega, by omega⟩
  · rw [readRange_frame_height]
    exact fromLe16_le16 s.bmpH
  · rw [readRange_frame_length, ← bmpLen_eq_ofNat s _ rfl]
    exact fromLe32_le32 (bmpLen s)
  · rw [read_frame_payload, hbmp, Memory.read_ofBytes]

end Sys2Proof.Machine
end

section
/-! The acceptance of `SND` and the transport's answer to its chunk (44_chunk R111, R112, R116, R117). -/

namespace Sys2Proof.Machine

/-- Without a frame an accepted `SND` raises `SEQUENCE_ERROR`, before the check of `c` (R111). -/
theorem startSend_of_no_frame (c : Half) {s : State} (hv : s.frmValid = false) :
    startSend c s = raise .sequenceError s := if_pos hv

theorem startSend_of_zero_chunk {c : Half} {s : State} (hv : s.frmValid = true) (hc : c.toNat = 0) :
    startSend c s = raise .invalidInput s := by
  rw [startSend, if_neg (by simp [hv]), if_pos hc]

theorem startSend_of_frame {c : Half} {s : State} (hv : s.frmValid = true) (hc : 1 ≤ c.toNat) :
    startSend c s = selectMode c s := by
  rw [startSend, if_neg (by simp [hv]), if_neg (by omega)]

/-- An idle core with a frame starts the transmission of an `SND` with a chunk size (R112). -/
theorem exec_snd_of_frame {c : Half} {s : State} (hs : s.seq = .idle) (hv : s.frmValid = true) (hc : 1 ≤ c.toNat) :
    exec (.snd c) s = .next (selectMode c s) := by
  rw [exec_snd_idle c s hs, startSend_of_frame hv hc]

/-- Settles O34: an idle core runs the body of `SND`, whose checks stand in the order of R111. -/
theorem sndAcceptance : Obligations.SndAcceptance := by
  intro c s hs
  refine ⟨fun hv => ?_, fun hv hc => ?_, exec_snd_of_frame hs⟩
  · rw [exec_snd_idle c s hs, startSend_of_no_frame c hv]
  · rw [exec_snd_idle c s hs, startSend_of_zero_chunk hv hc]

/-- While the core waits, the port holds the request that the last beat records as pending, and its bytes do not
reach past the end of the frame (R113, R115). -/
theorem Inv.outstanding_request {s : State} (hi : Inv s) (hs : s.seq = .sndWait) :
    ∃ r log, s.txReq = some r ∧ s.txLog = log ++ [⟨r.mode, r.bytes, .pending⟩] ∧
      s.txOff.toNat + r.bytes.length ≤ s.frmLen.toNat := by
  obtain ⟨bytes, log, hr, hlog, _, hlength⟩ := hi.waiting_facts hs
  have hoff := (hi.sending (by simp [hs])).offset
  exact ⟨⟨s.txMode, bytes⟩, log, hr, hlog, by dsimp only; omega⟩

/-- `TX_OFF` past a chunk, as the word of the sum. -/
theorem word_add_ofNat (o : Word) (n : Nat) : o + BitVec.ofNat 32 n = BitVec.ofNat 32 (o.toNat + n) := by
  rw [BitVec.ofNat_add, BitVec.ofNat_toNat, BitVec.setWidth_eq]

/-- Within the frame the new `TX_OFF` does not wrap, so it is `FRM_LEN` when the numbers say so. -/
theorem ofNat_eq_word_iff {n : Nat} {len : Word} (h : n ≤ len.toNat) : BitVec.ofNat 32 n = len ↔ n = len.toNat := by
  have hn : (BitVec.ofNat 32 n).toNat = n := Nat.mod_eq_of_lt (lt_of_le_of_lt h len.isLt)
  rw [← BitVec.toNat_inj, hn]

section Answers

variable {r : TxRequest} {log : List Beat} {s : State}

/-- The answer to the chunk that ends at `FRM_LEN` ends the `SND` (R116). -/
theorem answerOk_of_last_chunk (hlog : s.txLog = log ++ [⟨r.mode, r.bytes, .pending⟩])
    (hoff : s.txOff.toNat + r.bytes.length = s.frmLen.toNat) :
    answerOk r s = { s with
      txReq := none, txAnswer := none, txOff := BitVec.ofNat 32 (s.txOff.toNat + r.bytes.length), seq := .idle,
      err := .ok, txLog := log ++ [⟨r.mode, r.bytes, .answered .ok⟩] } := by
  simp only [answerOk, hlog, settleLast_append, word_add_ofNat, if_pos ((ofNat_eq_word_iff hoff.le).mpr hoff)]

/-- The answer to an earlier chunk leads to the issue of the next one (R116). -/
theorem answerOk_of_earlier_chunk (hlog : s.txLog = log ++ [⟨r.mode, r.bytes, .pending⟩])
    (hoff : s.txOff.toNat + r.bytes.length < s.frmLen.toNat) :
    answerOk r s = { s with
      txReq := none, txAnswer := none, txOff := BitVec.ofNat 32 (s.txOff.toNat + r.bytes.length), seq := .sndIssue,
      txLog := log ++ [⟨r.mode, r.bytes, .answered .ok⟩] } := by
  simp only [answerOk, hlog, settleLast_append, word_add_ofNat, if_neg (mt (ofNat_eq_word_iff hoff.le).mp hoff.ne)]

/-- A failed write ends the `SND` and leaves the failed chunk's offset in `TX_OFF` (R117). -/
theorem answerFail_of_pending (hlog : s.txLog = log ++ [⟨r.mode, r.bytes, .pending⟩]) :
    answerFail s = { s with
      txReq := none, txAnswer := none, seq := .idle, err := .transportWriteFailure,
      txLog := log ++ [⟨r.mode, r.bytes, .answered .fail⟩] } := by
  simp only [answerFail, raise, hlog, settleLast_append]

end Answers

/-- Settles O38: the step takes the answer to the outstanding request (`step_respond`), whose bytes end at `FRM_LEN`
or before it; the answer does not stay at the port, as the invariant has none there. -/
theorem answerOkAdvances : Obligations.AnswerOkAdvances := by
  intro s rest hi hs ha
  obtain ⟨r, log, hr, hlog, hoff⟩ := hi.outstanding_request hs
  refine ⟨r, log, _, hr, hlog, rfl, hoff, fun hlast => ?_, fun hearlier => ?_⟩
  · rw [step_respond s .ok rest r ha hs hr, hi.answer]
    exact congrArg _ (answerOk_of_last_chunk hlog hlast)
  · rw [step_respond s .ok rest r ha hs hr, hi.answer]
    exact congrArg _ (answerOk_of_earlier_chunk hlog hearlier)

/-- Settles O39: the step takes the failure of the outstanding request, and the idle core it leaves still has the
frame, so it starts the next `SND` at offset 0. -/
theorem answerFailAbandons : Obligations.AnswerFailAbandons := by
  intro s rest hi hs ha
  obtain ⟨r, log, hr, hlog, _⟩ := hi.outstanding_request hs
  have hframe : s.frmValid = true := (hi.sending (by simp [hs])).frame
  refine ⟨r, log, _, hr, hlog, rfl, ?_,
    fun c hc => ⟨_, exec_snd_of_frame rfl hframe hc, rfl, rfl, rfl, rfl, rfl⟩⟩
  rw [step_respond s .fail rest r ha hs hr, hi.answer]
  exact congrArg _ (answerFail_of_pending hlog)

end Sys2Proof.Machine
end

section
/-! A core whose write nobody answers (44_chunk R118): the transmission stays where it is, for any number of steps. -/

namespace Sys2Proof.Machine

/-- `t` is in the same place of the same transmission as `s`. -/
structure SameTransmission (s t : State) : Prop where
  seq : t.seq = s.seq
  err : t.err = s.err
  txOff : t.txOff = s.txOff
  txReq : t.txReq = s.txReq
  txLog : t.txLog = s.txLog
  txAnswer : t.txAnswer = s.txAnswer

theorem SameTransmission.refl (s : State) : SameTransmission s s := ⟨rfl, rfl, rfl, rfl, rfl, rfl⟩

theorem SameTransmission.trans {s t u : State} (hst : SameTransmission s t) (htu : SameTransmission t u) :
    SameTransmission s u :=
  ⟨htu.seq.trans hst.seq, htu.err.trans hst.err, htu.txOff.trans hst.txOff, htu.txReq.trans hst.txReq,
    htu.txLog.trans hst.txLog, htu.txAnswer.trans hst.txAnswer⟩

/-- A move that neither resets the core nor answers its write. -/
def NoAnswerMove (m : Move) : Prop := m ≠ .reset ∧ ∀ a, m ≠ .respond a

/-- A waiting core with no answer has no effect of its own (R118). -/
theorem coreStep_of_unanswered {s : State} (hs : s.seq = .sndWait) (hn : s.txAnswer = none) :
    coreStep s = .next s := by
  simp only [coreStep, exec, execWr, hs, takeAnswer, hn]

/-- A step that is neither a reset nor an answer leaves the transmission of a waiting core where it is, and adds no move to the agenda. -/
theorem step_of_unanswered {s t : State} (hs : s.seq = .sndWait) (hn : s.txAnswer = none)
    (hmoves : ∀ m ∈ s.agenda, NoAnswerMove m) (h : step s = .next t) :
    SameTransmission s t ∧ t.agenda ⊆ s.agenda := by
  have hsub {m : Move} {rest : List Move} (ha : s.agenda = m :: rest) : rest ⊆ s.agenda :=
    ha ▸ List.subset_cons_self m rest
  have hmove {m : Move} {rest : List Move} (ha : s.agenda = m :: rest) : NoAnswerMove m :=
    hmoves m (ha ▸ List.mem_cons_self)
  rcases step_cases h with ⟨_, ⟨_, rfl⟩ | ⟨rest, ha, rfl⟩, hcore⟩ | ⟨_, _, _, ha, rfl⟩ | ⟨_, _, _, _, ha, _, rfl⟩ |
    ⟨_, ha, _⟩ | ⟨_, _, _, ha, rfl⟩ | ⟨_, _, ha, rfl⟩ | ⟨a, _, _, ha, _⟩
  · cases (coreStep_of_unanswered hs hn).symm.trans hcore
    exact ⟨.refl _, List.Subset.refl _⟩
  · cases (coreStep_of_unanswered (s := { s with agenda := rest }) hs hn).symm.trans hcore
    exact ⟨⟨rfl, rfl, rfl, rfl, rfl, rfl⟩, hsub ha⟩
  · exact ⟨⟨rfl, rfl, rfl, rfl, rfl, rfl⟩, hsub ha⟩
  · exact ⟨⟨rfl, rfl, rfl, rfl, rfl, rfl⟩, hsub ha⟩
  · exact absurd rfl (hmove ha).1
  · exact ⟨⟨rfl, rfl, rfl, rfl, rfl, rfl⟩, hsub ha⟩
  · exact ⟨⟨rfl, rfl, rfl, rfl, rfl, rfl⟩, hsub ha⟩
  · exact absurd rfl ((hmove ha).2 a)

/-- A run of `k + 1` steps that answers a state makes a first step. -/
theorem run_succ_next {k : Nat} {s t : State} (h : Host.Core.run Sys2Proof.core (k + 1) s = .next t) :
    ∃ u, step s = .next u ∧ Host.Core.run Sys2Proof.core k u = .next t := by
  cases hstep : step s with
  | next u => exact ⟨u, rfl, (run_succ hstep).symm.trans h⟩
  | fault r | refused r =>
    have hcore : Host.Core.step Sys2Proof.core s = _ := hstep
    simp only [Host.Core.run, hcore] at h
    cases h

/-- No number of such steps moves the transmission. -/
theorem run_of_unanswered (k : Nat) {s t : State} (hs : s.seq = .sndWait) (hn : s.txAnswer = none)
    (hmoves : ∀ m ∈ s.agenda, NoAnswerMove m) (h : Host.Core.run Sys2Proof.core k s = .next t) :
    SameTransmission s t := by
  induction k generalizing s with
  | zero => cases h; exact .refl _
  | succ k ih =>
    obtain ⟨u, hstep, hrun⟩ := run_succ_next h
    obtain ⟨hsu, hsub⟩ := step_of_unanswered hs hn hmoves hstep
    have hseq : u.seq = .sndWait := hsu.seq.trans hs
    have hanswer : u.txAnswer = none := hsu.txAnswer.trans hn
    exact hsu.trans (ih hseq hanswer (fun m hm => hmoves m (hsub hm)) hrun)

/-- Bit 7 of `STATUS` is `BUSY` (10_state R22). -/
theorem statusWord_bit7 (s : State) : (statusWord s).getLsbD 7 = busy s := by
  simp only [statusWord, BitVec.getLsbD_append]
  simp

/-- Settles O40: a run without answer or reset leaves the transmission where it is (`run_of_unanswered`). -/
theorem noAnswerNoProgress : Obligations.NoAnswerNoProgress := by
  intro s t k hi hs hmoves hrun
  have hst := run_of_unanswered k hs hi.answer hmoves hrun
  have hseq : t.seq = .sndWait := hst.seq.trans hs
  refine ⟨hseq, ?_, hst.txReq, hst.txOff, hst.txLog, hst.err⟩
  rw [statusWord_bit7, busy, hseq]
  rfl

end Sys2Proof.Machine
end

section
/-! `SEQUENCE_ERROR` and the valid bits (60_exceptions R123): both causes as a change of `ERR`, the bit that an `OK` end
sets, and the steps, of which only a reset clears a bit. -/

namespace Sys2Proof.Machine

/-- Without a bitmap an accepted `PKT` raises `SEQUENCE_ERROR` (R100, R123). -/
theorem packetize_of_no_bitmap {s : State} (hv : s.bmpValid = false) :
    packetize s = raise .sequenceError s := if_pos hv

/-- An `ENC` that ends `OK` is past the errors of `VAL` and `DIM`, so it has committed its bitmap (R92). -/
theorem encodeBitmap_ok_bmpValid {d : Bool} {w : Half} {s : State} (h : (encodeBitmap d w s).err = .ok) :
    (encodeBitmap d w s).bmpValid = true := by
  rcases encodeBitmap_cases d w s with ⟨k, hk, e⟩ | ⟨_, _, _, e⟩
  · rw [e, raise_err] at h
    subst h
    simp at hk
  · rw [e, complete_bmpValid, commitBitmap_bmpValid]

/-- A `PKT` that ends `OK` has met a bitmap, so it has committed its frame (R103). -/
theorem packetize_ok_frmValid {s : State} (h : (packetize s).err = .ok) : (packetize s).frmValid = true := by
  rcases packetize_cases s with ⟨_, e⟩ | ⟨_, _, _, _, e, _⟩
  · rw [e, raise_err] at h
    cases h
  · rw [e, complete_frmValid, commitFrame_frmValid]

/-- No valid bit that is set in `s` is clear in `t`. -/
def KeepsValid (s t : State) : Prop :=
  (s.bmpValid = true → t.bmpValid = true) ∧ (s.frmValid = true → t.frmValid = true)

theorem KeepsValid.of_eq {s t : State} (hb : t.bmpValid = s.bmpValid) (hf : t.frmValid = s.frmValid) :
    KeepsValid s t := ⟨hb.trans, hf.trans⟩

theorem encodeBitmap_keepsValid (d : Bool) (w : Half) (s : State) : KeepsValid s (encodeBitmap d w s) := by
  rcases encodeBitmap_cases d w s with ⟨_, _, e⟩ | ⟨_, _, _, e⟩ <;> rw [e]
  · exact .of_eq rfl rfl
  · exact ⟨fun _ => rfl, id⟩

theorem packetize_keepsValid (s : State) : KeepsValid s (packetize s) := by
  rcases packetize_cases s with ⟨_, e⟩ | ⟨_, _, _, _, e, _⟩ <;> rw [e]
  · exact .of_eq rfl rfl
  · exact ⟨id, fun _ => rfl⟩

theorem startSend_keepsValid (c : Half) (s : State) : KeepsValid s (startSend c s) := by
  rcases startSend_cases c s with ⟨_, e⟩ | ⟨_, _, e⟩ | ⟨_, _, e⟩ <;> rw [e] <;> exact .of_eq rfl rfl

theorem answerOk_keepsValid (r : TxRequest) (s : State) : KeepsValid s (answerOk r s) :=
  .of_eq (answerOk_bmpValid r s) (answerOk_frmValid r s)

theorem issueWrite_keepsValid {s t : State} (h : issueWrite s = .next t) : KeepsValid s t := by
  rcases issueWrite_cases s with ⟨_, _, _, _, e⟩ | ⟨_, e⟩ <;> cases e.symm.trans h
  exact .of_eq rfl rfl

theorem takeAnswer_keepsValid {s t : State} (h : takeAnswer s = .next t) : KeepsValid s t := by
  rcases takeAnswer_cases s with ⟨_, e⟩ | ⟨r, _, _, e⟩ | ⟨_, _, _, e⟩ | ⟨_, _, e⟩ <;> cases e.symm.trans h
  · exact .of_eq rfl rfl
  · exact answerOk_keepsValid r s
  · exact .of_eq rfl rfl

/-- Whatever command the core accepts, and in every place of a transmission, it keeps both bits (R39). -/
theorem coreStep_keepsValid {s t : State} (h : coreStep s = .next t) : KeepsValid s t := by
  rcases coreStep_cases h with ⟨_, _, rfl⟩ | ⟨_, rest, d, w, _, _, _, rfl⟩ | ⟨_, rest, _, _, _, rfl⟩ |
    ⟨_, rest, c, _, _, _, rfl⟩ | ⟨_, _, _, _, _, rfl⟩ | ⟨_, hissue⟩ | ⟨_, htake⟩
  · exact .of_eq rfl rfl
  · exact encodeBitmap_keepsValid d w { s with held := rest }
  · exact packetize_keepsValid { s with held := rest }
  · exact startSend_keepsValid c { s with held := rest }
  · exact .of_eq rfl rfl
  · exact issueWrite_keepsValid hissue
  · exact takeAnswer_keepsValid htake

/-- Of the moves that a step can make, only a reset clears a valid bit (R123). -/
theorem step_keepsValid {s t : State} (h : step s = .next t) (hreset : s.agenda.head? ≠ some .reset) :
    KeepsValid s t := by
  rcases step_cases h with ⟨_, ⟨_, rfl⟩ | ⟨rest, _, rfl⟩, hcore⟩ | ⟨_, _, _, _, rfl⟩ | ⟨_, _, _, _, _, _, rfl⟩ |
    ⟨_, ha, _⟩ | ⟨_, _, _, _, rfl⟩ | ⟨_, _, _, rfl⟩ | ⟨a, rest, r, _, _, _, rfl⟩
  · exact coreStep_keepsValid hcore
  · exact coreStep_keepsValid (s := { s with agenda := rest }) hcore
  · exact .of_eq rfl rfl
  · exact .of_eq rfl rfl
  · exact absurd (by rw [ha]; rfl) hreset
  · exact .of_eq rfl rfl
  · exact .of_eq rfl rfl
  · cases a with
    | ok => exact answerOk_keepsValid r { s with agenda := rest, txAnswer := some .ok }
    | fail => exact .of_eq rfl rfl

/-- Settles O33: an idle core with a free port raises by a change of `ERR` (`raise_idle`), the end of a command tells
whether it committed, and `step_keepsValid` covers the steps. -/
theorem sequenceErrors : Obligations.SequenceErrors := by
  refine ⟨fun c s hs hr => ⟨fun hv => ?_, fun hv => ?_⟩, fun d w s t hs hok => ⟨fun he => ?_, fun he => ?_⟩,
    fun s t h hreset => step_keepsValid h hreset⟩
  · rw [exec_pkt_idle s hs, packetize_of_no_bitmap hv, raise_idle .sequenceError s hs hr]
  · rw [exec_snd_idle c s hs, startSend_of_no_frame c hv, raise_idle .sequenceError s hs hr]
  · cases (exec_enc_idle d w s hs).symm.trans he
    exact encodeBitmap_ok_bmpValid hok
  · cases (exec_pkt_idle s hs).symm.trans he
    exact packetize_ok_frmValid hok

end Sys2Proof.Machine
end

section
/-! The decoder and the encoder are inverse to one another (30_encoding R60 to R63): no operand bit is dropped, and each
word has one meaning. -/

namespace Sys2Proof

/-- Settles O2: one round trip per command row; the stages and formats have no word. -/
theorem encodedInstructionDecodesToItself : Obligations.EncodedInstructionDecodesToItself := by
  intro i
  cases i with
  | enc d w => exact Laws.RoundTrip.enc d w
  | pkt => exact Laws.RoundTrip.pkt
  | snd c => exact Laws.RoundTrip.snd c
  | illegal cw => exact Laws.RoundTrip.illegal cw
  | _ => intro _ _ he; cases he

/-- A one-bit field is the bit it is cut from. -/
theorem extractLsb'_one_eq_ofBool {n : Nat} (x : BitVec n) (i : Nat) :
    x.extractLsb' i 1 = BitVec.ofBool (x.getLsbD i) := by
  apply BitVec.eq_of_getLsbD_eq
  intro j hj
  obtain rfl : j = 0 := by omega
  simp

/-- A word of row `ENC` is made of its fields (R60). -/
theorem encodeEnc_fields {cw : Word} (h : CommandRow.enc.hits cw = true) :
    encodeEnc (ditherField cw) (immField cw) = cw := by
  have hupper : cw.extractLsb' 16 16 = 0x80#15 ++ BitVec.ofBool (ditherField cw) :=
    (extractLsb'_eq_append_iff cw 16 0x80#15 _).mpr ⟨(hits_enc_iff cw).mp h, extractLsb'_one_eq_ofBool cw 16⟩
  have hword := (extractLsb'_eq_append_iff cw 0 _ (immField cw)).mpr ⟨hupper, rfl⟩
  rw [BitVec.extractLsb'_eq_self] at hword
  exact hword.symm

/-- A word of row `SND` is made of its field (R60). -/
theorem encodeSnd_field {cw : Word} (h : CommandRow.snd.hits cw = true) : encodeSnd (immField cw) = cw := by
  have hword := (extractLsb'_eq_append_iff cw 0 0x300#16 (immField cw)).mpr ⟨(hits_snd_iff cw).mp h, rfl⟩
  rw [BitVec.extractLsb'_eq_self] at hword
  exact hword.symm

/-- Settles O3: the decoder's first matching row gives the word back from its fields, and a word of no row stands for
itself. -/
theorem decodedWordEncodesToItself : Obligations.DecodedWordEncodesToItself := by
  intro cw
  unfold decode
  split_ifs with henc hpkt hsnd
  · exact ⟨rfl, congrArg some (encodeEnc_fields henc)⟩
  · exact ⟨rfl, congrArg some ((hits_pkt_iff cw).mp hpkt).symm⟩
  · exact ⟨rfl, congrArg some (encodeSnd_field hsnd)⟩
  · refine ⟨?_, rfl⟩
    simp only [Instr.wellFormed, isCommandWord_eq, henc, hpkt, hsnd, Bool.or_false, Bool.not_false]

end Sys2Proof
end

section
/-! Every step keeps the invariant (10_state sections 2, 3 and 5): each command of an idle core, the issue of a chunk
and its answer, and from them the core's own step and the moves of the other agents. -/

namespace Sys2Proof.Machine

/-- An accepted `ENC` keeps the invariant, whichever way it ends (40_resample R70). -/
theorem Inv.encodeBitmap {s : State} (hi : Inv s) (hs : s.seq = .idle) (d : Bool) (w : Half) :
    Inv (Machine.encodeBitmap d w s) := by
  rcases encodeBitmap_cases d w s with ⟨k, _, e⟩ | ⟨h, hv, hh, e⟩ <;> rw [e]
  · exact hi.raise hs k
  · obtain ⟨_, hw, h8, _, _⟩ := validationError_none hv
    obtain ⟨_, hpos, hfits⟩ := bitmapHeight_eq_some hh
    exact hi.commitBitmap hs w h _ ⟨hw, h8⟩ hpos hfits (bitmapBytes_length d _)

/-- An accepted `PKT` keeps the invariant (43_header R100). -/
theorem Inv.packetize {s : State} (hi : Inv s) (hs : s.seq = .idle) : Inv (Machine.packetize s) := by
  cases hv : s.bmpValid with
  | false => rw [packetize_of_no_bitmap hv]; exact hi.raise hs _
  | true =>
    obtain ⟨payload, hlength, hbmp⟩ := (hi.bitmap hv).bytes
    have hsize := (hi.bitmapSize_bounds hv).1
    have hfits := (hi.bitmap hv).fits
    have hfrmLen := hi.frameLength_toNat hv
    rw [packetize_of_bitmap s payload hv hlength hbmp]
    rw [bmpLen_eq_ofNat s payload.length hlength] at hfrmLen ⊢
    exact hi.commitFrame hs s.bmpH payload _ (by omega) (by omega) (by omega)

/-- An accepted `SND` keeps the invariant (44_chunk R111, R112). -/
theorem Inv.startSend {s : State} (hi : Inv s) (hs : s.seq = .idle) (c : Half) : Inv (Machine.startSend c s) := by
  rcases startSend_cases c s with ⟨_, e⟩ | ⟨_, _, e⟩ | ⟨hv, hc, e⟩ <;> rw [e]
  · exact hi.raise hs _
  · exact hi.raise hs _
  · exact hi.selectMode hs hv c hc

/-- The issue of the chunk at `TX_OFF` keeps the invariant (44_chunk R114, R115). -/
theorem Inv.issueWrite_keeps {s t : State} (hi : Inv s) (hs : s.seq = .sndIssue) (h : Machine.issueWrite s = .next t) :
    Inv t := by
  obtain ⟨bytes, hr, e⟩ := hi.issueWrite hs
  have hsending := hi.sending (by simp [hs])
  cases e.symm.trans h
  exact {
    cap := hi.cap
    bmpWf := hi.bmpWf
    frmWf := hi.frmWf
    bitmap := fun hv => (hi.bitmap hv).of_eq rfl rfl rfl rfl
    frame := hi.frame
    chunk := hi.chunk
    sending := fun _ => ⟨hsending.frame, hsending.offset, hsending.aligned⟩
    waiting := fun _ => ⟨bytes, s.txLog, hr, rfl, rfl, (hi.quiet (by simp [hs])).2⟩
    quiet := fun hne => absurd rfl hne
    work := hi.work
    answer := hi.answer }

/-- An offset inside the frame fits `TX_OFF`. -/
theorem ofNat_toNat_of_lt_word {n : Nat} {len : Word} (h : n < len.toNat) : (BitVec.ofNat 32 n).toNat = n :=
  Nat.mod_eq_of_lt (lt_trans h len.isLt)

/-- A core with a free port and every beat answered meets the invariant again, if it is idle or the next chunk is at a
multiple of the chunk size inside the frame (44_chunk R116, R117, R119 (d)). -/
theorem Inv.answered {s : State} (hi : Inv s) (q : Seq) (e : ErrKind) (o : Word) (log : List Beat) (hq : q ≠ .sndWait)
    (hlog : Settled log)
    (hnext : q ≠ .idle → s.frmValid = true ∧ o.toNat < s.frmLen.toNat ∧ s.chunk.toNat ∣ o.toNat) :
    Inv { s with seq := q, err := e, txReq := none, txAnswer := none, txOff := o, txLog := log } where
  cap := hi.cap
  bmpWf := hi.bmpWf
  frmWf := hi.frmWf
  bitmap := fun hv => (hi.bitmap hv).of_eq rfl rfl rfl rfl
  frame := hi.frame
  chunk := hi.chunk
  sending := fun h =>
    have ⟨hframe, hoffset, haligned⟩ := hnext h
    ⟨hframe, hoffset, haligned⟩
  waiting := fun h => absurd h hq
  quiet := fun _ => ⟨rfl, hlog⟩
  work := hi.work
  answer := rfl

/-- The answer `TX_OK` keeps the invariant: before the end of the frame the chunk was a whole one, so the next offset is
a multiple of the chunk size (44_chunk R116). -/
theorem Inv.answerOk {s : State} {r : TxRequest} (hi : Inv s) (hs : s.seq = .sndWait) (hr : s.txReq = some r)
    (a : Option TxAnswer) : Inv (Machine.answerOk r { s with txAnswer := a }) := by
  obtain ⟨bytes, log, hreq, hlog, hsettled, hlength⟩ := hi.waiting_facts hs
  obtain rfl : r = ⟨s.txMode, bytes⟩ := Option.some.inj (hr.symm.trans hreq)
  obtain ⟨hframe, hoffset, haligned⟩ := hi.sending (by simp [hs])
  rcases Nat.lt_or_ge (s.txOff.toNat + bytes.length) s.frmLen.toNat with hlt | hge
  · rw [answerOk_of_earlier_chunk (s := { s with txAnswer := a }) hlog hlt]
    have hwhole : bytes.length = s.chunk.toNat := by omega
    have hoff : (BitVec.ofNat 32 (s.txOff.toNat + bytes.length)).toNat = s.txOff.toNat + s.chunk.toNat := by
      rw [ofNat_toNat_of_lt_word hlt, hwhole]
    refine hi.answered _ _ _ _ (by decide) (hsettled.snoc _ _ _) fun _ => ⟨hframe, ?_, ?_⟩
    · rw [hoff]; omega
    · rw [hoff]; exact haligned.add (dvd_refl _)
  · have hend : s.txOff.toNat + bytes.length = s.frmLen.toNat := by omega
    rw [answerOk_of_last_chunk (s := { s with txAnswer := a }) hlog hend]
    exact hi.answered _ _ _ _ (by decide) (hsettled.snoc _ _ _) fun h => absurd rfl h

/-- The answer `TX_FAIL` keeps the invariant (44_chunk R117). -/
theorem Inv.answerFail {s : State} (hi : Inv s) (hs : s.seq = .sndWait) (a : Option TxAnswer) :
    Inv (Machine.answerFail { s with txAnswer := a }) := by
  obtain ⟨bytes, log, _, hlog, hsettled, _⟩ := hi.waiting_facts hs
  rw [answerFail_of_pending (r := ⟨s.txMode, bytes⟩) (s := { s with txAnswer := a }) hlog]
  exact hi.answered _ _ _ _ (by decide) (hsettled.snoc _ _ _) fun h => absurd rfl h

/-- With no answer at the port, as the invariant has it, the response step waits (44_chunk R118). -/
theorem takeAnswer_of_no_answer {s : State} (h : s.txAnswer = none) : takeAnswer s = .next s := by
  simp only [takeAnswer, h]

theorem Inv.withHeld {s : State} (hi : Inv s) (held : List Word) : Inv { s with held := held } :=
  hi.ports s.srcOk s.src s.capWnr held s.agenda s.hostData s.draws

theorem Inv.withAgenda {s : State} (hi : Inv s) (agenda : List Move) : Inv { s with agenda := agenda } :=
  hi.ports s.srcOk s.src s.capWnr s.held agenda s.hostData s.draws

/-- The core's own step keeps the invariant (10_state R39). -/
theorem Inv.coreStep {s t : State} (hi : Inv s) (h : Machine.coreStep s = .next t) : Inv t := by
  rcases coreStep_cases h with ⟨_, _, rfl⟩ | ⟨_, rest, d, w, hs, _, _, rfl⟩ | ⟨_, rest, hs, _, _, rfl⟩ |
    ⟨_, rest, c, hs, _, _, rfl⟩ | ⟨_, rest, hs, _, _, rfl⟩ | ⟨hs, hissue⟩ | ⟨_, htake⟩
  · exact hi
  · exact (hi.withHeld rest).encodeBitmap hs d w
  · exact (hi.withHeld rest).packetize hs
  · exact (hi.withHeld rest).startSend hs c
  · exact (hi.withHeld rest).raise hs _
  · exact hi.issueWrite_keeps hs hissue
  · cases (takeAnswer_of_no_answer hi.answer).symm.trans htake
    exact hi

/-- Settles O57: the core's own step, a reset and an answer by the lemmas above; the other moves write the ports alone,
of which the invariant does not speak (`Inv.ports`). -/
theorem stepKeepsInvariant : Obligations.StepKeepsInvariant := by
  intro s t hi h
  rcases step_cases h with ⟨_, ⟨_, rfl⟩ | ⟨rest, _, rfl⟩, hcore⟩ | ⟨_, _, _, _, rfl⟩ | ⟨_, _, _, _, _, _, rfl⟩ |
    ⟨rest, _, rfl⟩ | ⟨_, _, _, _, rfl⟩ | ⟨_, _, _, rfl⟩ | ⟨a, rest, r, _, hs, hr, rfl⟩
  · exact hi.coreStep hcore
  · exact (hi.withAgenda rest).coreStep hcore
  · exact hi.ports _ _ _ _ _ _ _
  · exact hi.ports _ _ _ _ _ _ _
  · exact Inv.resetCore _ hi.cap
  · exact hi.ports _ _ _ _ _ _ _
  · exact hi.ports _ _ _ _ _ _ _
  · cases a with
    | ok => exact (hi.withAgenda rest).answerOk hs hr (some .ok)
    | fail => exact (hi.withAgenda rest).answerFail hs (some .fail)

end Sys2Proof.Machine
end

section
/-! The checks of `ENC` and the height of its bitmap (40_resample R71, R72): what `VAL` and `DIM` refuse and pass, each
said once and then read off the stages and the command. -/

namespace Sys2Proof.Machine

section Validation

variable {w : Half} {s : State}

/-- Without a raster `VAL` raises `DECODE_FAILURE`, before any other check (R71). -/
theorem validationError_of_no_source (hsrc : s.srcOk = false) : validationError w s = some .decodeFailure := if_pos hsrc

/-- With a raster a zero or unaligned width, or a zero dimension, raises `INVALID_INPUT` (R71). -/
theorem validationError_of_bad_size (hsrc : s.srcOk = true)
    (h : w.toNat = 0 ∨ w.toNat % 8 ≠ 0 ∨ s.src.width.toNat = 0 ∨ s.src.height.toNat = 0) :
    validationError w s = some .invalidInput := by
  unfold validationError
  rw [if_neg (by simp [hsrc])]
  split_ifs with hzero haligned hsize
  · rfl
  · rfl
  · rfl
  · exact absurd h (by tauto)

/-- `VAL` passes a raster of positive size at a positive multiple of 8 (R71). -/
theorem validationError_of_good (hsrc : s.srcOk = true) (hw : w.toNat ≠ 0) (h8 : w.toNat % 8 = 0)
    (hsw : s.src.width.toNat ≠ 0) (hsh : s.src.height.toNat ≠ 0) : validationError w s = none := by
  unfold validationError
  rw [if_neg (by simp [hsrc]), if_neg hw, if_neg (not_not.mpr h8), if_neg (not_or.mpr ⟨hsw, hsh⟩)]

theorem exec_val_of_error {k : ErrKind} (h : validationError w s = some k) : exec (.val w) s = .next (raise k s) := by
  simp only [exec, execVal, h]

theorem exec_val_of_good (h : validationError w s = none) : exec (.val w) s = .next s := by
  simp only [exec, execVal, h]

end Validation

/-- Settles O14: the stage raises the error that `validationError` names, if there is one. -/
theorem valChecksInputs : Obligations.ValChecksInputs := fun _ _ =>
  ⟨fun hsrc hw h8 hsw hsh => exec_val_of_good (validationError_of_good hsrc hw h8 hsw hsh),
    fun hsrc => exec_val_of_error (validationError_of_no_source hsrc),
    fun hsrc h => exec_val_of_error (validationError_of_bad_size hsrc h)⟩

/-- A height of 16 bits whose bitmap fits `BMP_CAP` passes the range checks (R72). -/
theorem checkedHeight_of_fits {cap h : Nat} {w : Half} (h16 : h ≤ 65535) (hcap : bitmapSize w.toNat h ≤ cap) :
    checkedHeight cap w h = some (BitVec.ofNat 16 h) := by
  rw [checkedHeight, if_neg (not_lt.mpr h16), if_neg (not_lt.mpr hcap)]

/-- A larger height, or a larger bitmap, does not (R72). -/
theorem checkedHeight_of_too_large {cap h : Nat} {w : Half} (hlarge : 65535 < h ∨ cap < bitmapSize w.toNat h) :
    checkedHeight cap w h = none := by
  unfold checkedHeight
  split_ifs with h16 hcap
  · rfl
  · rfl
  · exact absurd hlarge (not_or.mpr ⟨h16, hcap⟩)

section Dim

variable {sw sh w : Half} {s s' : State} {h : Nat}

theorem exec_dim_of_fits (hh : heightOf sw sh w s = (h, s')) (h16 : h ≤ 65535)
    (hcap : bitmapSize w.toNat h ≤ s.params.bmpCap) :
    exec (.dim sw sh w) s = .next { s' with work := { s'.work with height := some (BitVec.ofNat 16 h) } } := by
  simp only [exec, execDim, hh, checkedHeight_of_fits h16 hcap]

theorem exec_dim_of_too_large (hh : heightOf sw sh w s = (h, s'))
    (hlarge : 65535 < h ∨ s.params.bmpCap < bitmapSize w.toNat h) :
    exec (.dim sw sh w) s = .next (raise .invalidInput s') := by
  simp only [exec, execDim, hh, checkedHeight_of_too_large hlarge]

end Dim

/-- Settles O15: the height before the range checks is the rational quotient rounded half up (`roundedHeight_eq_floor`),
or a free one (`heightOf_free`). -/
theorem heightIsTheRoundedQuotient : Obligations.HeightIsTheRoundedQuotient := by
  refine ⟨fun sw sh w s hsw hw h hq => ?_, fun sw sh w s hfree => ?_⟩
  · have hh : heightOf sw sh w s = (h, s) := by
      rw [heightOf_eq sh s hsw hw, roundedHeight_eq_floor _ _ _ hsw, ← hq]
    exact ⟨exec_dim_of_fits hh, exec_dim_of_too_large hh⟩
  · obtain ⟨h, hpos, hh⟩ := heightOf_free sh s hfree
    exact ⟨h, hpos, exec_dim_of_fits hh, exec_dim_of_too_large hh⟩

end Sys2Proof.Machine
end

section
/-! The command `ENC` as a whole (40_resample R70, 42_pack R91 to R93): its errors, its commit, what its bitmap renders
as, and what it leaves unchanged. -/

namespace Sys2Proof.Machine

section Outcomes

variable (d : Bool) {w : Half} {s : State}

theorem encodeBitmap_of_error {k : ErrKind} (hv : validationError w s = some k) :
    encodeBitmap d w s = raise k s := by
  simp only [encodeBitmap, hv]

theorem encodeBitmap_of_no_height (hv : validationError w s = none)
    (hh : bitmapHeight s.params.bmpCap s.src.width s.src.height w = none) :
    encodeBitmap d w s = raise .invalidInput s := by
  simp only [encodeBitmap, hv, hh]

theorem encodeBitmap_of_height {h : Half} (hv : validationError w s = none)
    (hh : bitmapHeight s.params.bmpCap s.src.width s.src.height w = some h) :
    encodeBitmap d w s = complete (commitBitmap w h (bitmapBytes d (resample s.params.filter s.src w h)) s) := by
  simp only [encodeBitmap, hv, hh]

/-- A legal `ENC` commits the bitmap of its raster (R70, R92). -/
theorem exec_enc_of_legal (h : EncLegal w s) :
    exec (.enc d w) s =
      .next (complete (commitBitmap w (encHeight w s) (bitmapBytes d (encRaster w s)) s)) := by
  rw [exec_enc_idle d w s h.idle, encodeBitmap_of_legal h]

end Outcomes

/-- Settles O7: `commitBitmap` and `complete` write these five fields. -/
theorem encCommitsTheBitmap : Obligations.EncCommitsTheBitmap := fun d _ _ h => exec_enc_of_legal d h

/-- Settles O8: the first check that fails names the error, and the error of an idle core with a free port is a change
of `ERR` (`raise_idle`). -/
theorem encErrorsInOrder : Obligations.EncErrorsInOrder := by
  intro d w s hs hr
  have hraise {k : ErrKind} (he : encodeBitmap d w s = raise k s) :
      exec (.enc d w) s = .next { s with err := k } := by
    rw [exec_enc_idle d w s hs, he, raise_idle k s hs hr]
  refine ⟨fun hsrc => ?_, fun hsrc hsize => ?_, fun hsrc hw h8 hsw hsh hlarge => ?_⟩
  · exact hraise (encodeBitmap_of_error d (validationError_of_no_source hsrc))
  · exact hraise (encodeBitmap_of_error d (validationError_of_bad_size hsrc hsize))
  · exact hraise (encodeBitmap_of_no_height d (validationError_of_good hsrc hw h8 hsw hsh)
      (checkedHeight_of_too_large hlarge))

/-- Settles O9: rendering gives back the ink bit that was packed (`renderBit_bitmapBytes`), and that bit is the rational
comparison (`inkAt_iff`). -/
theorem renderedBitIsLuminanceBelowThreshold : Obligations.RenderedBitIsLuminanceBelowThreshold := by
  intro d w s h
  refine ⟨_, exec_enc_of_legal d h, rfl, rfl, fun x y hx hy => ⟨inkAt d (encRaster w s) x y, ?_, inkAt_iff _ _ _ _⟩⟩
  exact renderBit_bitmapBytes _ d (encRaster w s) x y rfl rfl h.multiple hx hy

/-- A byte of the buffer of a byte sequence is there exactly at the indices of the sequence. -/
theorem Memory.read_ofBytes_isSome_iff (bs : List Byte) (i : Nat) :
    (Memory.read (Memory.ofBytes bs) i).isSome = true ↔ i < bs.length := by
  rw [Memory.read_ofBytes, isSome_getElem?]

/-- The size of the bitmap of a legal `ENC` is within its bounds (R72, R91). -/
theorem EncLegal.bitmapSize_bounds {w : Half} {s : State} (h : EncLegal w s) :
    1 ≤ bitmapSize w.toNat (encHeight w s).toNat ∧ bitmapSize w.toNat (encHeight w s).toNat ≤ 8191 * 65535 ∧
      bitmapSize w.toNat (encHeight w s).toNat ≤ s.params.bmpCap := by
  have hpos := h.positive
  have hmultiple := h.multiple
  have hrow : 1 ≤ w.toNat / 8 ∧ w.toNat / 8 ≤ 8191 := by omega
  have hheight : 1 ≤ (encHeight w s).toNat := (encHeight_toNat h).symm ▸ roundedHeight_pos _ _ _
  refine ⟨Nat.mul_pos hrow.1 hheight, Nat.mul_le_mul hrow.2 (by omega), ?_⟩
  rw [encHeight_toNat h]
  exact h.fits

/-- Settles O10: the committed buffer holds `bitmapBytes`, whose length is `(w >> 3)*h` (`bitmapBytes_length`). -/
theorem bitmapIsExactlyCovered : Obligations.BitmapIsExactlyCovered := by
  intro d w s h
  obtain ⟨hpos, hmax, hcap⟩ := h.bitmapSize_bounds
  refine ⟨_, exec_enc_of_legal d h, fun i => ?_, hpos, hmax, hcap, bmpLen_toNat _⟩
  exact (Memory.read_ofBytes_isSome_iff _ i).trans (by rw [bitmapBytes_length]; rfl)

/-- `ENC` reads its inputs and the parameters, and writes none of them, so it answers its own result again (R70). -/
theorem encodeBitmap_encodeBitmap (d : Bool) (w : Half) (s : State) :
    encodeBitmap d w (encodeBitmap d w s) = encodeBitmap d w s := by
  cases hv : validationError w s with
  | some k =>
    rw [encodeBitmap_of_error d hv]
    exact encodeBitmap_of_error (s := raise k s) d hv
  | none =>
    cases hh : bitmapHeight s.params.bmpCap s.src.width s.src.height w with
    | none =>
      rw [encodeBitmap_of_no_height d hv hh]
      exact encodeBitmap_of_no_height (s := raise .invalidInput s) d hv hh
    | some h =>
      rw [encodeBitmap_of_height d hv hh]
      exact encodeBitmap_of_height (s := complete (commitBitmap w h _ s)) d hv hh

theorem encodeBitmap_seq (d : Bool) (w : Half) {s : State} (hs : s.seq = .idle) : (encodeBitmap d w s).seq = .idle := by
  rcases encodeBitmap_cases d w s with ⟨_, _, e⟩ | ⟨_, _, _, e⟩ <;> rw [e]
  · rfl
  · exact hs

/-- Settles O11: an accepted `ENC` leaves the core idle, and `encodeBitmap` is idempotent. -/
theorem encIsRepeatable : Obligations.EncIsRepeatable := by
  intro d w s t hs he
  cases (exec_enc_idle d w s hs).symm.trans he
  rw [exec_enc_idle d w _ (encodeBitmap_seq d w hs), encodeBitmap_encodeBitmap]

/-- Settles O12: an accepted `ENC` is an error, which writes `ERR` alone, or the commit. -/
theorem encFrame : Obligations.EncFrame := by
  intro d w s t hs hr he
  cases (exec_enc_idle d w s hs).symm.trans he
  rcases encodeBitmap_cases d w s with ⟨k, _, e⟩ | ⟨_, _, _, e⟩ <;> rw [e]
  · rw [raise_idle k s hs hr]
    exact ⟨rfl, fun _ => rfl, fun _ => ⟨rfl, fun _ => rfl⟩⟩
  · exact ⟨rfl, fun _ => rfl, fun hne => absurd rfl hne⟩

end Sys2Proof.Machine
end

section
/-! The resampler (40_resample R73 to R76): `RSMP` as a stage, the properties P1, P4 and P6 of every filter, and
`RESAMPLE_REF` channel by channel. -/

namespace Sys2Proof.Machine

/-- Settles O16: `RSMP` hands on `resample`, a raster made pixel by pixel. -/
theorem rsmpMakesARasterOfTheSize : Obligations.RsmpMakesARasterOfTheSize := fun w h s =>
  ⟨resample s.params.filter s.src w h, rfl, rfl, rfl, Raster.tabulate_length w h _, resample_pixel _ _ _ _⟩

/-- One channel of pixel `(x, y)` of `RESAMPLE_REF`: the blend of that channel's four samples (R76). -/
def referenceChannel (src : Raster) (channel : Pixel → Byte) (w h x y : Nat) : Byte :=
  blend w h (axisFraction src.width.toNat w x) (axisFraction src.height.toNat h y)
    (channel (src.pixel (axisLow src.width.toNat w x) (axisLow src.height.toNat h y))).toNat
    (channel (src.pixel (axisHigh src.width.toNat w x) (axisLow src.height.toNat h y))).toNat
    (channel (src.pixel (axisLow src.width.toNat w x) (axisHigh src.height.toNat h y))).toNat
    (channel (src.pixel (axisHigh src.width.toNat w x) (axisHigh src.height.toNat h y))).toNat

/-- `RESAMPLE_REF` treats each channel on its own (R76). -/
theorem referencePixel_eq (src : Raster) (w h x y : Nat) :
    referencePixel src w h x y =
      ⟨referenceChannel src Pixel.r w h x y, referenceChannel src Pixel.g w h x y,
        referenceChannel src Pixel.b w h x y, referenceChannel src Pixel.a w h x y⟩ := rfl

theorem referencePixel_channel (src : Raster) {channel : Pixel → Byte} (hc : channel ∈ channels) (w h x y : Nat) :
    channel (referencePixel src w h x y) = referenceChannel src channel w h x y := by
  simp only [channels, List.mem_cons, List.not_mem_nil, or_false] at hc
  rcases hc with rfl | rfl | rfl | rfl <;> rfl

/-- A pixel that the reference filter makes of a source with pixels (R76). -/
theorem resample_reference_pixel {src : Raster} (w h : Half) {x y : Nat} (hsw : 1 ≤ src.width.toNat)
    (hsh : 1 ≤ src.height.toNat) (hx : x < w.toNat) (hy : y < h.toNat) :
    (resample .reference src w h).pixel x y = referencePixel src w.toNat h.toNat x y := by
  rw [resample_pixel _ _ _ _ _ _ hx hy, filterPixel_reference _ _ _ _ hsw hsh]

/-- A channel of `RESAMPLE_REF` reads that channel of the pixels in range only (R75, P6). -/
theorem referenceChannel_congr {a b : Raster} {channel : Pixel → Byte} (hw : a.width = b.width)
    (hh : a.height = b.height) (hsw : 1 ≤ a.width.toNat) (hsh : 1 ≤ a.height.toNat)
    (H : ∀ x y, x < a.width.toNat → y < a.height.toNat → channel (a.pixel x y) = channel (b.pixel x y))
    (w h x y : Nat) : referenceChannel a channel w h x y = referenceChannel b channel w h x y := by
  have hxl := axisLow_lt a.width.toNat w x hsw
  have hxh := axisHigh_lt a.width.toNat w x hsw
  have hyl := axisLow_lt a.height.toNat h y hsh
  have hyh := axisHigh_lt a.height.toNat h y hsh
  unfold referenceChannel
  rw [← hw, ← hh, H _ _ hxl hyl, H _ _ hxh hyl, H _ _ hxl hyh, H _ _ hxh hyh]

theorem referencePixel_congr {a b : Raster} (hw : a.width = b.width) (hh : a.height = b.height)
    (hsw : 1 ≤ a.width.toNat) (hsh : 1 ≤ a.height.toNat)
    (H : ∀ x y, x < a.width.toNat → y < a.height.toNat → a.pixel x y = b.pixel x y) (w h x y : Nat) :
    referencePixel a w h x y = referencePixel b w h x y := by
  have hchannel (channel : Pixel → Byte) :=
    referenceChannel_congr (channel := channel) hw hh hsw hsh (fun x y hx hy => congrArg channel (H x y hx hy)) w h x y
  simp only [referencePixel_eq, hchannel]

/-- A channel of one value in all the pixels in range has that value in the raster made (R75, P4). -/
theorem referenceChannel_of_constant {src : Raster} {channel : Pixel → Byte} {v : Byte} (hsw : 1 ≤ src.width.toNat)
    (hsh : 1 ≤ src.height.toNat)
    (H : ∀ x y, x < src.width.toNat → y < src.height.toNat → channel (src.pixel x y) = v) {w h : Nat} (x y : Nat)
    (hw : 1 ≤ w) (hh : 1 ≤ h) : referenceChannel src channel w h x y = v := by
  have hxl := axisLow_lt src.width.toNat w x hsw
  have hxh := axisHigh_lt src.width.toNat w x hsw
  have hyl := axisLow_lt src.height.toNat h y hsh
  have hyh := axisHigh_lt src.height.toNat h y hsh
  unfold referenceChannel
  rw [H _ _ hxl hyl, H _ _ hxh hyl, H _ _ hxl hyh, H _ _ hxh hyh]
  exact blend_const w h _ _ v hw hh (axisFraction_lt _ _ _ hw) (axisFraction_lt _ _ _ hh)

/-- Settles O17: the reference filter blends four equal samples, and a free filter keeps the constant it finds. -/
theorem resamplingKeepsConstants : Obligations.ResamplingKeepsConstants := by
  intro f src w h p hsw hsh H x y hx hy
  cases f with
  | reference =>
    have hchannel (channel : Pixel → Byte) : referenceChannel src channel w.toNat h.toNat x y = channel p :=
      referenceChannel_of_constant hsw hsh (fun x y hx hy => congrArg channel (H x y hx hy)) x y (by omega) (by omega)
    rw [resample_reference_pixel w h hsw hsh hx hy, referencePixel_eq]
    simp only [hchannel]
  | other k =>
    rw [resample_pixel _ src w h x y hx hy]
    simp only [filterPixel, constantPixel_of_constant src p hsw hsh H]

/-- Every filter is a function of the source's size and of its pixels in range (R74, R75: P1, P6). -/
theorem filterPixel_congr (f : Filter) {a b : Raster} (hw : a.width = b.width) (hh : a.height = b.height)
    (hsw : 1 ≤ a.width.toNat) (hsh : 1 ≤ a.height.toNat)
    (H : ∀ x y, x < a.width.toNat → y < a.height.toNat → a.pixel x y = b.pixel x y) (w h x y : Nat) :
    filterPixel f a w h x y = filterPixel f b w h x y := by
  cases f with
  | reference =>
    rw [filterPixel_reference w h x y hsw hsh, filterPixel_reference w h x y (hw ▸ hsw) (hh ▸ hsh),
      referencePixel_congr hw hh hsw hsh H]
  | other k => simp only [filterPixel, constantPixel, Raster.inRange_congr a b hw hh H, hw, hh]

/-- Settles O18: the two rasters are made by one function. -/
theorem resamplingReadsPixelsInRangeOnly : Obligations.ResamplingReadsPixelsInRangeOnly := by
  intro f a b w h hw hh hsw hsh H
  have hfilter : filterPixel f a w.toNat h.toNat = filterPixel f b w.toNat h.toNat :=
    funext₂ (filterPixel_congr f hw hh hsw hsh H w.toNat h.toNat)
  exact congrArg (Raster.tabulate w h) hfilter

/-- A channel of `RESAMPLE_REF` is the bilinear interpolation over the rationals, rounded half up (R76). -/
theorem referenceChannel_eq_floor (src : Raster) (channel : Pixel → Byte) {w h : Nat} (x y : Nat) (hw : 1 ≤ w)
    (hh : 1 ≤ h) (hsw : 1 ≤ src.width.toNat) (hsh : 1 ≤ src.height.toNat) :
    (referenceChannel src channel w h x y).toNat =
      ⌊bilinear src channel (sampleCoordinate src.width.toNat w x) (sampleCoordinate src.height.toNat h y)
        + 1 / 2⌋₊ := by
  unfold referenceChannel
  rw [blend_eq_floor w h _ _ _ _ _ _ hw hh (axisFraction_lt _ _ _ hw) (axisFraction_lt _ _ _ hh),
    axisFraction_div_eq _ _ _ hsw hw, axisFraction_div_eq _ _ _ hsh hh]
  unfold bilinear axisHigh
  rw [axisLow_eq_floor _ _ _ hsw hw, axisLow_eq_floor _ _ _ hsh hh]

/-- At equal size `RESAMPLE_REF` is the identity (R76). -/
theorem referenceChannel_identity (src : Raster) (channel : Pixel → Byte) {x y : Nat} (hx : x < src.width.toNat)
    (hy : y < src.height.toNat) :
    referenceChannel src channel src.width.toNat src.height.toNat x y = channel (src.pixel x y) := by
  obtain ⟨hxl, hxf⟩ := axis_identity src.width.toNat x hx
  obtain ⟨hyl, hyf⟩ := axis_identity src.height.toNat y hy
  unfold referenceChannel
  rw [hxl, hxf, hyl, hyf]
  exact blend_first _ _ _ _ _ _ (by omega) (by omega)

/-- Settles O19: a pixel of the reference filter is its four channels, each of which `referenceChannel_eq_floor` and
`referenceChannel_identity` describe. -/
theorem referenceFilterIsBilinear : Obligations.ReferenceFilterIsBilinear := by
  refine ⟨fun w h s hf hsw hsh => ⟨resample s.params.filter s.src w h, rfl, fun x y hx hy channel hc => ?_⟩,
    fun src x y hx hy => ?_⟩
  · rw [hf, resample_reference_pixel w h hsw hsh hx hy, referencePixel_channel _ hc]
    exact referenceChannel_eq_floor s.src channel x y (by omega) (by omega) hsw hsh
  · rw [resample_reference_pixel _ _ (by omega) (by omega) hx hy, referencePixel_eq]
    simp only [referenceChannel_identity src _ hx hy]

/-- Settles O20: `RESAMPLE_REF` makes equal R, G and B of equal R, G and B, and the ink bit reads no other channel. -/
theorem alphaDecidesNoBit : Obligations.AlphaDecidesNoBit := by
  intro d a b w h hw hh hsw hsh H
  have hred := referenceChannel_congr (channel := Pixel.r) hw hh hsw hsh (fun x y hx hy => (H x y hx hy).1)
  have hgreen := referenceChannel_congr (channel := Pixel.g) hw hh hsw hsh (fun x y hx hy => (H x y hx hy).2.1)
  have hblue := referenceChannel_congr (channel := Pixel.b) hw hh hsw hsh (fun x y hx hy => (H x y hx hy).2.2)
  refine bitmapBytes_congr d _ _ rfl rfl fun x y hx hy => ?_
  have ha := resample_reference_pixel w h hsw hsh hx hy
  have hb := resample_reference_pixel (src := b) w h (hw ▸ hsw) (hh ▸ hsh) hx hy
  simp only [inkAt, ha, hb, referencePixel_eq, hred, hgreen, hblue]

end Sys2Proof.Machine
end

section
/-! The pixel stages and `PACK` (41_dither R80 to R83, 42_pack R90), and the bitmap that the stages of `ENC` build, one
byte after another, in the work area (30_encoding R62). -/

namespace Sys2Proof.Machine

/-- Settles O21: `LUMA` hands on `luminance`, which does not wrap in 18 bits. -/
theorem lumaIsTheWeightedSum : Obligations.LumaIsTheWeightedSum := fun p _ =>
  ⟨luminance p.r p.g p.b, rfl, luminance_toNat _ _ _, luminance_eq_gray p, luminance_le _ _ _⟩

/-- Settles O22: the threshold handed on is the rational one (`thresholdTimes32_eq`), and the integer comparison is the
rational one (`inkDecision_iff`). -/
theorem inkIsStrictlyBelowThreshold : Obligations.InkIsStrictlyBelowThreshold := by
  intro d x y lum s
  refine ⟨thresholdAt d x.toNat y.toNat, inkDecision lum (thresholdAt d x.toNat y.toNat), rfl, rfl,
    thresholdTimes32_eq _ _ _, ?_⟩
  rw [inkDecision_iff, thresholdTimes32_eq]

theorem bayerElement_listed : ∀ row col : BitVec 2,
    ([0, 8, 2, 10, 12, 4, 14, 6, 3, 11, 1, 9, 15, 7, 13, 5] : List Nat)[4 * row.toNat + col.toNat]? =
      some (bayerElement row col).toNat := by decide

/-- Each value stands in the matrix (R82). -/
theorem bayerElement_surjective : ∀ m : BitVec 4, ∃ row col : BitVec 2, bayerElement row col = m := by decide

/-- No value stands in the matrix twice (R82). -/
theorem bayerElement_injective : ∀ row col row' col' : BitVec 2,
    bayerElement row' col' = bayerElement row col → row' = row ∧ col' = col := by decide

/-- Settles O24: the sixteen places one by one. -/
theorem bayerMatrixIsAsListed : Obligations.BayerMatrixIsAsListed := by
  refine ⟨fun row col s => ⟨bayerElement row col, rfl, bayerElement_listed row col⟩, fun m => ?_⟩
  obtain ⟨row, col, rfl⟩ := bayerElement_surjective m
  exact ⟨row, col, rfl, bayerElement_injective row col⟩

/-- Settles O26: the format hands on `layoutInk`. -/
theorem bitmapByteLayout : Obligations.BitmapByteLayout := fun a b c d e f g h _ =>
  ⟨layoutInk ⟨a, b, c, d, e, f, g, h⟩, rfl, layoutInk_bits _⟩

/-- With a raster handed on, `PACK` packs one byte of it and writes it at its index (R90). -/
theorem exec_pack_of_raster {s : State} {q : Raster} (hq : s.work.q = some q) (d : Bool) (xb y : Half) :
    exec (.pack d xb y) s = .next { s with work := { s.work with
      packed := some (packByte d q xb.toNat y.toNat),
      bitmap := Memory.write s.work.bitmap (bitmapIndex q.width.toNat xb.toNat y.toNat)
        (packByte d q xb.toNat y.toNat) } } := by
  simp only [exec, execPack, hq]

/-- Settles O25: the byte written has the ink bits in their places (`packByte_bit`), and a write reads back at its own
index alone. -/
theorem packPlacesEightPixels : Obligations.PackPlacesEightPixels := fun d xb y _ _ hq =>
  ⟨_, _, exec_pack_of_raster hq d xb y, fun k hk => packByte_bit d _ _ _ k hk, Memory.read_write_same _ _ _,
    fun a ha => Memory.read_write_other _ _ a _ ha⟩

/-- Running a list whose first part answers `t` goes on with the rest at `t`. -/
theorem execAll_append {is js : List Instr} {s t : State} (h : execAll is s = .next t) :
    execAll (is ++ js) s = execAll js t := by
  induction is generalizing s with
  | nil => cases h; rfl
  | cons i is ih =>
    rw [List.cons_append]
    cases hi : exec i s <;> simp only [execAll, hi] at h ⊢
    case next u => exact ih h
    case fault | refused => cases h

theorem execAll_singleton {i : Instr} {s t : State} (h : exec i s = .next t) : execAll [i] s = .next t := by
  simp only [execAll, h]

/-- `t` is `s` but for the work area, in which the raster `q` is handed on and the bitmap under construction has exactly
the bytes `bs`. -/
structure Building (q : Raster) (bs : List Byte) (s t : State) : Prop where
  frame : t = { s with work := t.work }
  raster : t.work.q = some q
  bitmap : t.work.bitmap = Memory.ofBytes bs

/-- `RSMP` starts an empty bitmap (40_resample R73). -/
theorem exec_rsmp_building (w h : Half) (s : State) :
    ∃ t, exec (.rsmp w h) s = .next t ∧ Building (resample s.params.filter s.src w h) [] s t :=
  ⟨_, rfl, rfl, rfl, rfl⟩

section Pack

variable {d : Bool} {q : Raster} {bs : List Byte} {s t : State}

/-- `PACK` of the byte whose turn it is puts it behind those already built (R90, 20_memory R44). -/
theorem exec_pack_building (ht : Building q bs s t) {xb y : Half}
    (hnext : bs.length = bitmapIndex q.width.toNat xb.toNat y.toNat) :
    ∃ u, exec (.pack d xb y) t = .next u ∧ Building q (bs ++ [packByte d q xb.toNat y.toNat]) s u := by
  refine ⟨_, exec_pack_of_raster ht.raster d xb y, ?_, ht.raster, ?_⟩
  · rw [ht.frame]
  · show Memory.write t.work.bitmap _ _ = _
    rw [ht.bitmap, ← hnext, Memory.write_ofBytes]

/-- The first `n` `PACK`s of row `y`, from the end of the rows above it on. -/
theorem execAll_packRow_building (ht : Building q bs s t) {y : Nat} (hy : y < q.height.toNat)
    (hbs : bs.length = y * (q.width.toNat / 8)) {n : Nat} (hn : n ≤ q.width.toNat / 8) :
    ∃ u, execAll ((List.range n).map fun xb => .pack d (BitVec.ofNat 16 xb) (BitVec.ofNat 16 y)) t = .next u ∧
      Building q (bs ++ (List.range n).map fun xb => packByte d q xb y) s u := by
  induction n with
  | zero => exact ⟨t, rfl, by simpa using ht⟩
  | succ n ih =>
    obtain ⟨u, hu, hbuild⟩ := ih (by omega)
    have hxb : (BitVec.ofNat 16 n).toNat = n := Nat.mod_eq_of_lt (by omega)
    have hyb : (BitVec.ofNat 16 y).toNat = y := Nat.mod_eq_of_lt (by omega)
    obtain ⟨v, hv, hbuild'⟩ := exec_pack_building (d := d) hbuild (xb := BitVec.ofNat 16 n) (y := BitVec.ofNat 16 y)
      (by simp [hbs, hxb, hyb, bitmapIndex])
    rw [hxb, hyb, List.append_assoc] at hbuild'
    refine ⟨v, ?_, ?_⟩
    · rw [List.range_succ, List.map_append, execAll_append hu]
      exact execAll_singleton hv
    · rw [List.range_succ, List.map_append]
      exact hbuild'

/-- The `PACK`s of the first `k` rows, in the order of R62. -/
theorem execAll_packRows_building (ht : Building q [] s t) {k : Nat} (hk : k ≤ q.height.toNat) :
    ∃ u, execAll ((List.range k).flatMap fun y =>
        (List.range (q.width.toNat / 8)).map fun xb => .pack d (BitVec.ofNat 16 xb) (BitVec.ofNat 16 y)) t = .next u ∧
      Building q ((List.range k).flatMap fun y =>
        (List.range (q.width.toNat / 8)).map fun xb => packByte d q xb y) s u := by
  induction k with
  | zero => exact ⟨t, rfl, ht⟩
  | succ k ih =>
    obtain ⟨u, hu, hbuild⟩ := ih (by omega)
    obtain ⟨v, hv, hbuild'⟩ := execAll_packRow_building (d := d) hbuild (show k < q.height.toNat by omega)
      (length_rows (fun xb y => packByte d q xb y) k _) le_rfl
    refine ⟨v, ?_, ?_⟩
    · rw [List.range_succ, List.flatMap_append, execAll_append hu, List.flatMap_singleton, hv]
    · rw [List.range_succ, List.flatMap_append, List.flatMap_singleton]
      exact hbuild'

end Pack

/-- The stages of `ENC` after `VAL` and `DIM` build the bitmap of the resampled raster (R62, R91). -/
theorem execAll_encStages_building (d : Bool) (w h : Half) (s : State) :
    ∃ t, execAll (encStages d w h) s = .next t ∧
      Building (resample s.params.filter s.src w h) (bitmapBytes d (resample s.params.filter s.src w h)) s t := by
  obtain ⟨t, ht, hstart⟩ := exec_rsmp_building w h s
  obtain ⟨u, hu, hbuild⟩ := execAll_packRows_building (d := d) hstart le_rfl
  refine ⟨u, ?_, hbuild⟩
  rw [encStages, ← List.singleton_append, execAll_append (execAll_singleton ht)]
  exact hu

/-- Settles O13: `VAL` and `DIM` pass a legal `ENC`, and the stages build the bytes that it commits. -/
theorem encIsItsStagesInOrder : Obligations.EncIsItsStagesInOrder := by
  intro d w s h
  obtain ⟨_, hw, _, hsw, _⟩ := validationError_none (validationError_of_legal h)
  obtain ⟨t, ht, hbuild⟩ := execAll_encStages_building d w (encHeight w s) s
  refine ⟨exec_val_of_good (validationError_of_legal h),
    exec_dim_of_fits (heightOf_eq s.src.height s hsw hw) h.height h.fits, t, ht, hbuild.frame, hbuild.raster, ?_⟩
  rw [hbuild.bitmap]
  exact exec_enc_of_legal d h

end Sys2Proof.Machine
end

section
/-! The header composer (43_header R100 to R103): the layout of the header, `CAT` and `FRAME`, and `PKT` as the commit
of what its stages hand on. -/

namespace Sys2Proof.Machine

/-- Settles O31: `HDR` and `FRAME_HEADER` hand on `headerBytes`, whose integers `le16_toNat` and `le32_toNat` read. -/
theorem headerLayout : Obligations.HeaderLayout := fun height n _ =>
  ⟨_, _, _, _, _, _, rfl, rfl, le16_toNat height, le32_toNat n⟩

section Cat

variable {n : Word} {hdr payload : List Byte} {s s' : State}

/-- `CAT` puts the header before the bytes that it reads (R102). -/
theorem exec_cat_of_fetch (hh : s.work.header = some hdr) (hf : fetchBytes s.bmp 0 n.toNat s = (payload, s')) :
    exec (.cat n) s = .next { s' with work := { s'.work with frame := some (hdr ++ payload) } } := by
  simp only [exec, execCat, hh, hf, frameBytes]

/-- Bytes that are all written are read as they are (R102). -/
theorem exec_cat_of_written (hh : s.work.header = some hdr) (hr : Memory.readRange s.bmp 0 n.toNat = some payload) :
    exec (.cat n) s = .next { s with work := { s.work with frame := some (hdr ++ payload) } } :=
  exec_cat_of_fetch hh (fetchBytes_of_readRange s hr)

end Cat

theorem exec_frame_of_length {height : Half} {payload : List Byte} {n : Word} {s s' : State}
    (h : payloadLength payload s = (n, s')) :
    exec (.frame height payload) s =
      .next { s' with work := { s'.work with frame := some (headerBytes height n ++ payload) } } := by
  simp only [exec, execFrame, h, frameBytes]

/-- Settles O32: `CAT` puts the header before what `fetchBytes` reads, and `FRAME` before its payload, with the length
that `payloadLength` gives. -/
theorem catPutsHeaderBeforePayload : Obligations.CatPutsHeaderBeforePayload := by
  refine ⟨fun n hdr payload s hh hr => exec_cat_of_written hh hr, fun n hdr s hh => ?_,
    fun height payload s => ⟨fun hfits => ?_, fun hlong => ?_⟩⟩
  · obtain ⟨payload, k, hf, hlength, hread⟩ := fetchBytes_cases s.bmp 0 n.toNat s
    exact ⟨payload, k, exec_cat_of_fetch hh hf, hlength,
      fun i hi b hb => hread i hi b (by rw [Nat.zero_add]; exact hb)⟩
  · exact exec_frame_of_length (payloadLength_eq s hfits)
  · obtain ⟨n, hn⟩ := payloadLength_free s hlong
    exact ⟨n, exec_frame_of_length hn⟩

/-- The words that `PKT` writes for a payload of the bitmap's length (R101, R103). -/
theorem frameWords_eq {s : State} {n : Nat} (h : n = s.bmpW.toNat / 8 * s.bmpH.toNat) :
    bmpLen s = BitVec.ofNat 32 n ∧ 8#32 + bmpLen s = BitVec.ofNat 32 (8 + n) := by
  have hlen := bmpLen_eq_ofNat s n h
  exact ⟨hlen, by rw [hlen, BitVec.ofNat_add]⟩

/-- Settles O27: `PKT` commits the header and the payload that it reads, which is the bitmap where that is written. -/
theorem pktCommitsTheFrame : Obligations.PktCommitsTheFrame := by
  refine ⟨fun s payload hs hv hlength hbmp => ?_, fun s hs hv => ?_⟩
  · obtain ⟨hlen, hfrmLen⟩ := frameWords_eq hlength
    rw [exec_pkt_of_bitmap hs hv hlength hbmp, hfrmLen, hlen]
    rfl
  · rcases packetize_cases s with ⟨h, _⟩ | ⟨_, payload, k, hlength, e, _⟩
    · exact absurd (h.symm.trans hv) Bool.false_ne_true
    · have hlength : payload.length = s.bmpW.toNat / 8 * s.bmpH.toNat := hlength.trans (bmpLen_toNat s)
      obtain ⟨hlen, hfrmLen⟩ := frameWords_eq hlength
      refine ⟨payload, k, hlength, ?_⟩
      rw [exec_pkt_idle s hs, e, hfrmLen, hlen]
      rfl

/-- Settles O29: an accepted `PKT` is an error, which writes `ERR` alone, or the commit, which draws no free value where
the bitmap is written. -/
theorem pktFrame : Obligations.PktFrame := by
  intro s t hs hr he
  cases (exec_pkt_idle s hs).symm.trans he
  rcases packetize_cases s with ⟨_, e⟩ | ⟨_, payload, k, _, e, hwritten⟩ <;> rw [e]
  · rw [raise_idle _ s hs hr]
    exact ⟨rfl, fun _ => rfl, fun _ => rfl, fun _ => ⟨rfl, fun _ => rfl⟩⟩
  · refine ⟨rfl, fun hsome => ?_, fun _ => rfl, fun hne => absurd rfl hne⟩
    obtain ⟨bs, hbs⟩ := Option.isSome_iff_exists.mp hsome
    exact (hwritten bs hbs).2

/-- Settles O30: `HDR` hands on the header, `CAT` the frame with the bitmap behind it, and that is what `PKT`
commits. -/
theorem pktIsItsStagesInOrder : Obligations.PktIsItsStagesInOrder := by
  intro s hi hs hv
  obtain ⟨payload, hlength, hbmp⟩ := (hi.bitmap hv).bytes
  have hread : Memory.readRange s.bmp 0 (bmpLen s).toNat = some payload := by
    rw [bmpLen_toNat, ← hlength, hbmp, Memory.readRange_ofBytes_all]
  have hhdr : exec (.hdr s.bmpH (bmpLen s)) s =
      .next { s with work := { s.work with header := some (headerBytes s.bmpH (bmpLen s)) } } := rfl
  have hcat := exec_cat_of_written
    (s := { s with work := { s.work with header := some (headerBytes s.bmpH (bmpLen s)) } }) rfl hread
  refine ⟨_, _, (execAll_append (execAll_singleton hhdr)).trans (execAll_singleton hcat), rfl, rfl, ?_⟩
  rw [exec_pkt_of_bitmap hs hv hlength hbmp, List.length_append, headerBytes_length, ← (frameWords_eq hlength).2]
  rfl

end Sys2Proof.Machine
end

section
/-! The stages of `SND` (44_chunk R112 to R118): what `MSEL`, `CHK`, `WR` and `TXWRITE` write, where they stop, and what
a transmission leaves unchanged. -/

namespace Sys2Proof.Machine

/-- Settles O35: `MSEL` is `selectMode`. -/
theorem mselLatchesTheMode : Obligations.MselLatchesTheMode := fun _ _ => rfl

/-- Outside its precondition `CHK` draws a length (R113; log 24). -/
theorem nextSlice_free {s : State} (h : s.frmLen.toNat ≤ s.txOff.toNat ∨ s.chunk.toNat = 0) :
    ∃ n, nextSlice s = (⟨s.txOff.toNat, n⟩, drawn s) := by
  refine ⟨Config.freeLength s.draws, ?_⟩
  unfold nextSlice
  rw [if_neg (by omega)]

theorem exec_chk_of_slice {s s' : State} {c : Slice} (h : nextSlice s = (c, s')) :
    exec .chk s = .next { s' with work := { s'.work with slice := some c } } := by
  simp only [exec, execChk, h]

/-- Settles O36: `CHK` hands on the slice that `nextSlice` cuts. -/
theorem chkCutsTheNextChunk : Obligations.ChkCutsTheNextChunk := by
  refine ⟨fun s hoff hc => ⟨_, exec_chk_of_slice (nextSlice_eq s hoff hc), rfl, ?_⟩, fun s h => ?_⟩
  · exact ⟨by omega, by omega, by omega, by omega⟩
  · obtain ⟨n, hn⟩ := nextSlice_free h
    exact ⟨n, exec_chk_of_slice hn⟩

section Wr

variable {s t : State}

/-- In `SND_ISSUE` the stage `WR` is the issue step (R114). -/
theorem exec_wr_of_sndIssue (hs : s.seq = .sndIssue) : exec .wr s = issueWrite s := by
  simp only [exec, execWr, hs]

/-- In `SND_WAIT` it is the response step (R116 to R118). -/
theorem exec_wr_of_sndWait (hs : s.seq = .sndWait) : exec .wr s = takeAnswer s := by
  simp only [exec, execWr, hs]

/-- Outside an `SND` it is out of order (R114; log 10). -/
theorem exec_wr_of_idle (hs : s.seq = .idle) : exec .wr s = .fault .stageOutOfOrder := by
  simp only [exec, execWr, hs]

theorem coreStep_of_sndIssue (hs : s.seq = .sndIssue) : coreStep s = issueWrite s := by
  simp only [coreStep, hs, exec_wr_of_sndIssue hs]

theorem coreStep_of_sndWait (hs : s.seq = .sndWait) : coreStep s = takeAnswer s := by
  simp only [coreStep, hs, exec_wr_of_sndWait hs]

/-- While an `SND` is in progress the core's own step is a `WR`: an issue or a response (R39). -/
theorem coreStep_of_busy (hs : s.seq ≠ .idle) (h : coreStep s = .next t) :
    issueWrite s = .next t ∨ takeAnswer s = .next t := by
  cases hseq : s.seq with
  | idle => exact absurd hseq hs
  | sndIssue => exact .inl ((coreStep_of_sndIssue hseq).symm.trans h)
  | sndWait => exact .inr ((coreStep_of_sndWait hseq).symm.trans h)

/-- A `WR` that answers a state is an issue or a response. -/
theorem exec_wr_cases (h : exec .wr s = .next t) :
    (s.seq = .sndIssue ∧ issueWrite s = .next t) ∨ (s.seq = .sndWait ∧ takeAnswer s = .next t) := by
  cases hs : s.seq with
  | idle => cases (exec_wr_of_idle hs).symm.trans h
  | sndIssue => exact .inl ⟨rfl, (exec_wr_of_sndIssue hs).symm.trans h⟩
  | sndWait => exact .inr ⟨rfl, (exec_wr_of_sndWait hs).symm.trans h⟩

end Wr

/-- Settles O37: `WR` issues the chunk that the invariant has at `TX_OFF` (`Inv.issueWrite`), and on any free port what
it reads there (`issueWrite_cases`). -/
theorem wrIssuesTheChunk : Obligations.WrIssuesTheChunk := by
  refine ⟨fun s hi hs => ?_, fun s hs hr => ?_⟩
  · obtain ⟨bytes, hread, hissue⟩ := hi.issueWrite hs
    obtain ⟨bytes', hread', hissue'⟩ := (hi.withAgenda []).issueWrite hs
    obtain rfl : bytes = bytes' := Option.some.inj (hread.symm.trans hread')
    exact ⟨bytes, hread, (exec_wr_of_sndIssue hs).trans hissue,
      (step_nil _ rfl).trans ((coreStep_of_sndIssue (s := { s with agenda := [] }) hs).trans hissue')⟩
  · rcases issueWrite_cases s with ⟨bytes, k, _, _, e⟩ | ⟨hne, _⟩
    · exact ⟨bytes, k, (exec_wr_of_sndIssue hs).trans e⟩
    · exact absurd hr hne

/-- Settles O41: an idle core with no word held, and a waiting core with no answer, answer the same state. -/
theorem stepsWithNothingToDo : Obligations.StepsWithNothingToDo := by
  intro s ha h
  rw [step_nil s ha]
  rcases h with ⟨hs, hheld⟩ | ⟨hs, hn⟩
  · simp only [coreStep, hs, hheld]
  · exact coreStep_of_unanswered hs hn

theorem exec_txwrite_of_free (mode : WriteMode) (bytes : List Byte) {s : State} (hr : s.txReq = none) :
    exec (.txwrite mode bytes) s = .next (txWrite mode bytes s) := by
  simp [exec, execTxwrite, hr]

theorem exec_txwrite_of_taken (mode : WriteMode) (bytes : List Byte) {s : State} (hr : s.txReq ≠ none) :
    exec (.txwrite mode bytes) s = .fault .writeOutstanding := by
  simp [exec, execTxwrite, Option.isSome_iff_ne_none.mpr hr]

/-- Settles O48: the two cases of the port. -/
theorem txwritePutsOneRequest : Obligations.TxwritePutsOneRequest := fun mode bytes _ =>
  ⟨exec_txwrite_of_free mode bytes, exec_txwrite_of_taken mode bytes⟩

/-- Settles O49: each stage is in its place only with what the case lacks. -/
theorem stagesStopOutsideTheirPlace : Obligations.StagesStopOutsideTheirPlace := by
  intro s
  refine ⟨fun d xb y hq => ?_, fun n hh => ?_, exec_wr_of_idle, fun hs hr ha => ?_, fun hs hr => ?_⟩
  · simp only [exec, execPack, hq]
  · simp only [exec, execCat, hh]
  · obtain ⟨a, ha⟩ := Option.ne_none_iff_exists'.mp ha
    rw [exec_wr_of_sndWait hs, takeAnswer]
    simp only [ha, hr]
  · rcases issueWrite_cases s with ⟨_, _, hfree, _, _⟩ | ⟨_, e⟩
    · exact absurd hfree hr
    · rw [exec_wr_of_sndIssue hs, e]

/-- Settles O47: on a free port the issue step is `TXWRITE` of the chunk that `CHK` cuts, and the wait. -/
theorem sndIsItsStagesInOrder : Obligations.SndIsItsStagesInOrder := by
  refine fun c s => ⟨fun hs hv hc => exec_snd_of_frame hs hv hc, fun hi hs => ?_⟩
  have hoff := (hi.sending (by simp [hs])).offset
  have hfree := (hi.quiet (by simp [hs])).1
  obtain ⟨bytes, hread, hissue⟩ := hi.issueWrite hs
  exact ⟨_, bytes, _, _, exec_chk_of_slice (nextSlice_eq s hoff hi.chunk), rfl, hread, exec_txwrite_of_free _ _ hfree,
    (exec_wr_of_sndIssue hs).trans hissue⟩

/-- `ceil(L / c)` chunks cover `L` bytes (R119 (a)). -/
theorem le_chunkCount_mul (len c : Nat) (hc : 1 ≤ c) : len ≤ chunkCount len c * c :=
  not_lt.mp fun h => lt_irrefl _ ((chunkCount_spec len c _ hc).mpr h)

/-- Settles O44: chunk `k` begins below `L` exactly when `k` is below `ceil(L/c)` (`chunkCount_spec`), which fixes the
number and the lengths; put together the chunks are a prefix of length `ceil(L/c)*c`, which is all. -/
theorem chunksCoverTheFrame : Obligations.ChunksCoverTheFrame := by
  rintro frame c hlength hc n rfl
  have hpos : 0 < chunkCount frame.length c := (chunkCount_spec _ c 0 hc).mpr (by omega)
  have hend := le_chunkCount_mul frame.length c hc
  have hlast : (chunkCount frame.length c - 1) * c < frame.length := (chunkCount_spec _ c _ hc).mp (by omega)
  have hsplit : chunkCount frame.length c * c = (chunkCount frame.length c - 1) * c + c := by
    rw [← Nat.succ_mul, Nat.succ_eq_add_one, Nat.sub_add_cancel hpos]
  refine ⟨hpos, ?_, fun k hk => ?_, ?_⟩
  · rw [flatten_chunks, List.take_of_length_le hend]
  · have hnext : (k + 1) * c < frame.length := (chunkCount_spec _ c _ hc).mp hk
    rw [Nat.succ_mul] at hnext
    rw [chunkBytes_length]
    omega
  · rw [chunkBytes_length, Nat.mul_comm c]
    omega

/-- `t` is `s` but for the fields that a transmission writes (R110). -/
def TransmissionFrame (s t : State) : Prop :=
  t = { s with
    chunk := t.chunk, txMode := t.txMode, txOff := t.txOff, seq := t.seq, txReq := t.txReq, err := t.err,
    txLog := t.txLog, txAnswer := t.txAnswer, draws := t.draws }

theorem TransmissionFrame.buffers {s t : State} (h : TransmissionFrame s t) : t.bmp = s.bmp ∧ t.frm = s.frm := by
  unfold TransmissionFrame at h
  rw [h]
  exact ⟨rfl, rfl⟩

theorem TransmissionFrame.held {s t : State} (h : TransmissionFrame s t) : t.held = s.held := by
  unfold TransmissionFrame at h
  rw [h]

theorem startSend_frame (c : Half) (s : State) : TransmissionFrame s (startSend c s) := by
  rcases startSend_cases c s with ⟨_, e⟩ | ⟨_, _, e⟩ | ⟨_, _, e⟩ <;> rw [e] <;> rfl

theorem startSend_draws (c : Half) (s : State) : (startSend c s).draws = s.draws := by
  rcases startSend_cases c s with ⟨_, e⟩ | ⟨_, _, e⟩ | ⟨_, _, e⟩ <;> rw [e] <;> rfl

theorem issueWrite_frame {s t : State} (h : issueWrite s = .next t) : TransmissionFrame s t := by
  rcases issueWrite_cases s with ⟨_, _, _, _, e⟩ | ⟨_, e⟩ <;> cases e.symm.trans h
  rfl

theorem answerOk_frame (r : TxRequest) (s : State) : TransmissionFrame s (answerOk r s) := by
  unfold answerOk
  dsimp only
  split <;> rfl

theorem takeAnswer_frame {s t : State} (h : takeAnswer s = .next t) : TransmissionFrame s t := by
  rcases takeAnswer_cases s with ⟨_, e⟩ | ⟨r, _, _, e⟩ | ⟨_, _, _, e⟩ | ⟨_, _, e⟩ <;> cases e.symm.trans h
  · rfl
  · exact answerOk_frame r s
  · rfl

/-- A `WR` from the invariant draws no free value: the chunk is written, and there is no answer to take. -/
theorem Inv.exec_wr_draws {s t : State} (hi : Inv s) (h : exec .wr s = .next t) : t.draws = s.draws := by
  rcases exec_wr_cases h with ⟨hs, hissue⟩ | ⟨_, htake⟩
  · obtain ⟨_, _, e⟩ := hi.issueWrite hs
    cases e.symm.trans hissue
    rfl
  · cases (takeAnswer_of_no_answer hi.answer).symm.trans htake
    rfl

/-- Settles O46: the start of an `SND`, its issue step and its response step write the fields of a transmission. -/
theorem sndFrame : Obligations.SndFrame := by
  intro s t h
  have hframe : TransmissionFrame s t := by
    rcases h with ⟨c, hs, he⟩ | he
    · cases (exec_snd_idle c s hs).symm.trans he
      exact startSend_frame c s
    · rcases exec_wr_cases he with ⟨_, hissue⟩ | ⟨_, htake⟩
      · exact issueWrite_frame hissue
      · exact takeAnswer_frame htake
  obtain ⟨hbmp, hfrm⟩ := hframe.buffers
  refine ⟨hframe, fun hi => ?_, fun a => by rw [hbmp], fun a => by rw [hfrm]⟩
  rcases h with ⟨c, hs, he⟩ | he
  · cases (exec_snd_idle c s hs).symm.trans he
    exact startSend_draws c s
  · exact hi.exec_wr_draws he

/-- While an `SND` is in progress the core's own step keeps the latched mode and the chunk size (R112). -/
theorem coreStep_keepsMode {s t : State} (hs : s.seq ≠ .idle) (h : coreStep s = .next t) :
    t.txMode = s.txMode ∧ t.chunk = s.chunk := by
  rcases coreStep_of_busy hs h with hissue | htake
  · rcases issueWrite_cases s with ⟨_, _, _, _, e⟩ | ⟨_, e⟩ <;> cases e.symm.trans hissue
    exact ⟨rfl, rfl⟩
  · rcases takeAnswer_cases s with ⟨_, e⟩ | ⟨r, _, _, e⟩ | ⟨_, _, _, e⟩ | ⟨_, _, e⟩ <;> cases e.symm.trans htake
    · exact ⟨rfl, rfl⟩
    · exact ⟨answerOk_txMode r s, answerOk_chunk r s⟩
    · exact ⟨rfl, rfl⟩

/-- Settles O45: of the moves that a step can make only a reset writes the two, and the core's own step writes them in
`IDLE` alone. -/
theorem modeIsLatchedPerTransmission : Obligations.ModeIsLatchedPerTransmission := by
  intro s t hs h hreset
  rcases step_cases h with ⟨_, ⟨_, rfl⟩ | ⟨rest, _, rfl⟩, hcore⟩ | ⟨_, _, _, _, rfl⟩ | ⟨_, _, _, _, _, _, rfl⟩ |
    ⟨_, ha, _⟩ | ⟨_, _, _, _, rfl⟩ | ⟨_, _, _, rfl⟩ | ⟨a, _, r, _, _, _, rfl⟩
  · exact coreStep_keepsMode hs hcore
  · exact coreStep_keepsMode (s := { s with agenda := rest }) hs hcore
  · exact ⟨rfl, rfl⟩
  · exact ⟨rfl, rfl⟩
  · exact absurd (by rw [ha]; rfl) hreset
  · exact ⟨rfl, rfl⟩
  · exact ⟨rfl, rfl⟩
  · cases a with
    | ok => exact ⟨answerOk_txMode r _, answerOk_chunk r _⟩
    | fail => exact ⟨rfl, rfl⟩

end Sys2Proof.Machine
end

section
/-! Acceptance and the ports (10_state R22 to R36, 70 R140 to R154): the command words, held and accepted, the status
word, the reads, and the moves that set an input or reset the core. -/

namespace Sys2Proof.Machine

/-- Settles O1: each of the twelve words is decoded. -/
theorem exampleWordsDecode : Obligations.ExampleWordsDecode := by
  unfold Obligations.ExampleWordsDecode
  decide

/-- An idle core accepts the oldest word held (10_state R31). -/
theorem coreStep_of_held {s : State} {cw : Word} {rest : List Word} (hs : s.seq = .idle) (hh : s.held = cw :: rest) :
    coreStep s = exec (decode cw) { s with held := rest } := by
  simp only [coreStep, hs, hh]

/-- Settles O5: the core's own step, with an empty agenda or as its first move. -/
theorem stepRunsDecodedCommand : Obligations.StepRunsDecodedCommand := fun s _ _ hs hh =>
  ⟨fun ha => (step_nil s ha).trans (coreStep_of_held hs hh),
    fun more ha => (step_of_agenda_cons ha).trans (coreStep_of_held (s := { s with agenda := more }) hs hh)⟩

/-- A busy core takes none of the words held (10_state R31). -/
theorem coreStep_of_busy_held {s t : State} (hs : s.seq ≠ .idle) (h : coreStep s = .next t) : t.held = s.held := by
  rcases coreStep_of_busy hs h with hissue | htake
  · exact (issueWrite_frame hissue).held
  · exact (takeAnswer_frame htake).held

/-- No step of a busy core takes a word held, and a host write puts its word behind them (10_state R31). -/
theorem step_of_busy_held {s t : State} (hs : s.seq ≠ .idle) (h : step s = .next t) :
    ∃ more, t.held = s.held ++ more := by
  rcases step_cases h with ⟨_, ⟨_, rfl⟩ | ⟨rest, _, rfl⟩, hcore⟩ | ⟨n, v, _, _, rfl⟩ | ⟨_, _, _, _, _, _, rfl⟩ |
    ⟨_, _, rfl⟩ | ⟨_, _, _, _, rfl⟩ | ⟨_, _, _, rfl⟩ | ⟨a, rest, r, _, _, _, rfl⟩
  · exact ⟨[], by rw [coreStep_of_busy_held hs hcore, List.append_nil]⟩
  · exact ⟨[], by rw [coreStep_of_busy_held (s := { s with agenda := rest }) hs hcore, List.append_nil]⟩
  · rcases eq_or_ne n 0 with hn | hn
    · exact ⟨[v], if_pos hn⟩
    · exact ⟨[], by rw [List.append_nil]; exact if_neg hn⟩
  · exact ⟨[], (List.append_nil _).symm⟩
  · exact ⟨[], (List.append_nil _).symm⟩
  · exact ⟨[], (List.append_nil _).symm⟩
  · exact ⟨[], (List.append_nil _).symm⟩
  · cases a with
    | ok => exact ⟨[], by rw [List.append_nil]; exact answerOk_held r _⟩
    | fail => exact ⟨[], (List.append_nil _).symm⟩

/-- A command that meets a busy core stays held (10_state R31). -/
theorem exec_command_of_busy {s : State} (hs : s.seq ≠ .idle) {i : Instr} {cw : Word} (he : encode i = some cw) :
    exec i s = .next (hold cw s) := by
  cases i with
  | enc d w => cases he; exact whenAccepted_busy _ s _ hs
  | pkt => cases he; exact whenAccepted_busy _ s _ hs
  | snd c => cases he; exact whenAccepted_busy _ s _ hs
  | illegal w => cases he; exact whenAccepted_busy _ s _ hs
  | _ => cases he

/-- Settles O6: a host write is a move, and a busy core neither takes a word nor runs a command. -/
theorem commandsAreHeldWhileBusy : Obligations.CommandsAreHeldWhileBusy := fun _ =>
  ⟨fun _ _ ha => step_of_agenda_cons ha, fun _ _ _ hn ha => (step_of_agenda_cons ha).trans (if_neg hn),
    fun hs _ h => step_of_busy_held hs h, fun hs _ _ _ he => exec_command_of_busy hs he⟩

section Status

variable (s : State)

/-- The code of `ERR` (R22). -/
theorem statusWord_err : (statusWord s).extractLsb' 0 4 = errCode s.err := BitVec.extractLsb'_append_eq_right

theorem statusWord_bit4 : (statusWord s).getLsbD 4 = s.bmpValid := by
  simp only [statusWord, BitVec.getLsbD_append]
  simp

theorem statusWord_bit5 : (statusWord s).getLsbD 5 = s.frmValid := by
  simp only [statusWord, BitVec.getLsbD_append]
  simp

theorem statusWord_bit6 : (statusWord s).getLsbD 6 = s.txMode.bit := by
  simp only [statusWord, BitVec.getLsbD_append]
  simp

/-- Above bit 7 the status word is zero (R22). -/
theorem statusWord_upper : (statusWord s).extractLsb' 8 24 = 0#24 := by
  unfold statusWord
  rw [BitVec.extractLsb'_append_eq_of_le (by decide), BitVec.extractLsb'_append_eq_of_le (by decide),
    BitVec.extractLsb'_append_eq_of_le (by decide), BitVec.extractLsb'_append_eq_of_le (by decide)]
  exact BitVec.extractLsb'_append_eq_left

theorem busy_iff : busy s = true ↔ s.seq ≠ .idle := by simp [busy]

end Status

theorem WriteMode.bit_iff (m : WriteMode) : m.bit = true ↔ m = .unacknowledged := by cases m <;> decide

/-- Settles O50: one lemma per field of the status word. -/
theorem statusLayout : Obligations.StatusLayout := by
  intro s
  have herr {k : ErrKind} (h : s.err = k) : (statusWord s).extractLsb' 0 4 = errCode k := h ▸ statusWord_err s
  exact ⟨herr, herr, herr, herr, herr, herr, statusWord_bit4 s, statusWord_bit5 s,
    by rw [statusWord_bit6, WriteMode.bit_iff], by rw [statusWord_bit7, busy_iff], statusWord_upper s⟩

/-- Register numbers above 6 are not listed (R26). -/
theorem registerValue_of_unlisted {n : Nat} (hn : 6 < n) {s : State} : registerValue n s = none := by
  obtain ⟨m, rfl⟩ : ∃ m, n = m + 7 := ⟨n - 7, by omega⟩
  rfl

section HostRead

variable {s : State} {n : Nat} {rest : List Move}

/-- A read of a register whose value the spec states returns it (R26). -/
theorem step_hostRead_of_value {v : Word} (ha : s.agenda = .hostRead n :: rest) (hn : n ≠ 0)
    (hv : registerValue n { s with agenda := rest } = some v) :
    step s = .next { s with agenda := rest, hostData := some (.word v) } := by
  rw [step_of_agenda_cons ha, moveStep, hostReadMove, if_neg hn, hv]
  rfl

/-- A read of any other register but register 0 returns a fresh free value (R26; log 3). -/
theorem step_hostRead_of_free (ha : s.agenda = .hostRead n :: rest) (hn : n ≠ 0)
    (hv : registerValue n { s with agenda := rest } = none) :
    ∃ v, step s = .next { s with agenda := rest, hostData := some (.word v), draws := s.draws + 1 } := by
  rw [step_of_agenda_cons ha, moveStep, hostReadMove, if_neg hn, hv]
  exact ⟨_, rfl⟩

end HostRead

/-- Settles O51: each register number has its value, or none. -/
theorem registerReads : Obligations.RegisterReads := by
  intro s n rest ha
  refine ⟨fun v h => ?_, fun h => ?_⟩
  · rcases h with ⟨rfl, rfl⟩ | ⟨rfl, hv, rfl⟩ | ⟨rfl, hv, rfl⟩ | ⟨rfl, hv, rfl⟩ | ⟨rfl, rfl⟩ | ⟨rfl, rfl⟩
    · exact step_hostRead_of_value ha (by decide) rfl
    · exact step_hostRead_of_value ha (by decide) (if_pos hv)
    · exact step_hostRead_of_value ha (by decide) ((if_pos hv).trans (congrArg some (bmpLen_eq_ofNat s _ rfl)))
    · exact step_hostRead_of_value ha (by decide) (if_pos hv)
    · exact step_hostRead_of_value ha (by decide) rfl
    · exact step_hostRead_of_value ha (by decide) rfl
  · rcases h with hn | ⟨rfl | rfl, hv⟩ | ⟨rfl, hv⟩
    · exact step_hostRead_of_free ha (by omega) (registerValue_of_unlisted hn)
    · exact step_hostRead_of_free ha (by decide) (if_neg (by simp [hv]))
    · exact step_hostRead_of_free ha (by decide) (if_neg (by simp [hv]))
    · exact step_hostRead_of_free ha (by decide) (if_neg (by simp [hv]))

/-- Every byte of a valid bitmap is there (20_memory R51). -/
theorem Inv.read_bitmap {s : State} (hi : Inv s) (hv : s.bmpValid = true) {i : Nat}
    (h : i < bitmapSize s.bmpW.toNat s.bmpH.toNat) : ∃ b, Memory.read s.bmp i = some b := by
  obtain ⟨bs, hlength, hbmp⟩ := (hi.bitmap hv).bytes
  rw [← hlength] at h
  exact ⟨bs[i], by rw [hbmp, Memory.read_ofBytes, List.getElem?_eq_getElem h]⟩

/-- Every byte of a valid frame is there (20_memory R51). -/
theorem Inv.read_frame {s : State} (hi : Inv s) (hv : s.frmValid = true) {o : Nat} (h : o < s.frmLen.toNat) :
    ∃ b, Memory.read s.frm o = some b := by
  obtain ⟨frame, hfrm, hlength, _⟩ := hi.frame_bytes hv
  rw [← hlength] at h
  exact ⟨frame[o], by rw [hfrm, Memory.read_ofBytes, List.getElem?_eq_getElem h]⟩

section BufferMoves

variable {s : State} {i : Nat} {b : Byte}

theorem readBitmapSizeMove_of_valid (hv : s.bmpValid = true) :
    readBitmapSizeMove s = .next (answerRead (.word (bmpDimWord s)) s) := if_pos hv

theorem readBitmapSizeMove_of_invalid (hv : s.bmpValid = false) :
    readBitmapSizeMove s = .refused .bitmapReadRefused := if_neg (by simp [hv])

theorem readBitmapMove_of_written (hv : s.bmpValid = true) (hlt : i < bitmapSize s.bmpW.toNat s.bmpH.toNat)
    (hb : Memory.read s.bmp i = some b) : readBitmapMove i s = .next (answerRead (.byte b) s) := by
  rw [← bmpLen_toNat] at hlt
  rw [readBitmapMove, if_pos ⟨hv, hlt⟩, fetchByte_of_read s hb]

theorem readBitmapMove_of_outside (h : s.bmpValid = false ∨ bitmapSize s.bmpW.toNat s.bmpH.toNat ≤ i) :
    readBitmapMove i s = .refused .bitmapReadRefused := by
  rw [← bmpLen_toNat] at h
  exact if_neg fun ⟨hv, hlt⟩ => h.elim (fun hf => Bool.false_ne_true (hf.symm.trans hv)) (not_le.mpr hlt)

theorem readFrameLengthMove_of_valid (hv : s.frmValid = true) :
    readFrameLengthMove s = .next (answerRead (.word s.frmLen) s) := if_pos hv

theorem readFrameLengthMove_of_invalid (hv : s.frmValid = false) :
    readFrameLengthMove s = .refused .frameReadRefused := if_neg (by simp [hv])

theorem readFrameMove_of_written (hv : s.frmValid = true) (hlt : i < s.frmLen.toNat)
    (hb : Memory.read s.frm i = some b) : readFrameMove i s = .next (answerRead (.byte b) s) := by
  rw [readFrameMove, if_pos ⟨hv, hlt⟩, fetchByte_of_read s hb]

theorem readFrameMove_of_outside (h : s.frmValid = false ∨ s.frmLen.toNat ≤ i) :
    readFrameMove i s = .refused .frameReadRefused :=
  if_neg fun ⟨hv, hlt⟩ => h.elim (fun hf => Bool.false_ne_true (hf.symm.trans hv)) (not_le.mpr hlt)

end BufferMoves

/-- Settles O52: each port answers within its valid buffer, whose bytes the invariant has, and refuses elsewhere. -/
theorem bufferReads : Obligations.BufferReads := by
  intro s i rest hi
  refine ⟨fun ha => ⟨fun hv => ?_, fun hv => ?_⟩, fun ha => ⟨fun hv hlt => ?_, fun h => ?_⟩,
    fun ha => ⟨fun hv => ?_, fun hv => ?_⟩, fun ha => ⟨fun hv hlt => ?_, fun h => ?_⟩⟩
  · exact (step_of_agenda_cons ha).trans (readBitmapSizeMove_of_valid (s := { s with agenda := rest }) hv)
  · exact (step_of_agenda_cons ha).trans (readBitmapSizeMove_of_invalid hv)
  · obtain ⟨b, hb⟩ := hi.read_bitmap hv hlt
    exact ⟨b, hb, (step_of_agenda_cons ha).trans
      (readBitmapMove_of_written (s := { s with agenda := rest }) hv hlt hb)⟩
  · exact (step_of_agenda_cons ha).trans (readBitmapMove_of_outside h)
  · exact (step_of_agenda_cons ha).trans (readFrameLengthMove_of_valid (s := { s with agenda := rest }) hv)
  · exact (step_of_agenda_cons ha).trans (readFrameLengthMove_of_invalid hv)
  · obtain ⟨b, hb⟩ := hi.read_frame hv hlt
    exact ⟨b, hb, (step_of_agenda_cons ha).trans
      (readFrameMove_of_written (s := { s with agenda := rest }) hv hlt hb)⟩
  · exact (step_of_agenda_cons ha).trans (readFrameMove_of_outside h)

/-- Settles O54: the reset move is `resetCore`. -/
theorem resetFromAnywhere : Obligations.ResetFromAnywhere := fun _ _ ha => ⟨_, step_of_agenda_cons ha, rfl⟩

/-- Settles O55: the two moves are `presentMove` and `capabilityMove`. -/
theorem inputMovesSetTheirInput : Obligations.InputMovesSetTheirInput := fun _ _ =>
  ⟨fun _ _ ha => step_of_agenda_cons ha, fun _ ha => step_of_agenda_cons ha⟩

/-- Settles O56: a core that was reset meets the invariant, and `State.reset` is one. -/
theorem resetMeetsInvariant : Obligations.ResetMeetsInvariant := Inv.resetCore State.reset (by decide)

end Sys2Proof.Machine
end

section
/-! Whole-machine safety (10_state R39, 20_memory R53, 93 U7, U8): which steps stop, how `SEQ` moves, and when the
record of writes grows. -/

namespace Sys2Proof.Machine

/-- The core's own step answers a state: the chunk to issue is there and its port is free, and a waiting core waits. -/
theorem Inv.coreStep_next {s : State} (hi : Inv s) : ∃ t, Machine.coreStep s = .next t := by
  cases hs : s.seq with
  | idle =>
    cases hh : s.held with
    | nil => exact ⟨s, by simp only [Machine.coreStep, hs, hh]⟩
    | cons cw rest =>
      rw [coreStep_of_held hs hh]
      rcases decode_cases cw with ⟨d, w, e⟩ | e | ⟨c, e⟩ | e <;> rw [e]
      · exact ⟨_, exec_enc_idle d w _ hs⟩
      · exact ⟨_, exec_pkt_idle _ hs⟩
      · exact ⟨_, exec_snd_idle c _ hs⟩
      · exact ⟨_, exec_illegal_idle cw _ hs⟩
  | sndIssue =>
    obtain ⟨_, _, hissue⟩ := hi.issueWrite hs
    exact ⟨_, (coreStep_of_sndIssue hs).trans hissue⟩
  | sndWait => exact ⟨s, coreStep_of_unanswered hs hi.answer⟩

/-- The refusals that the spec and log 13 give a next move. -/
def RefusalCause (s : State) (next : Option Move) (r : Refusal) : Prop :=
  (next = some (.hostRead 0) ∧ r = .commandRegisterIsWriteOnly) ∨
  (next = some .readBitmapSize ∧ s.bmpValid = false ∧ r = .bitmapReadRefused) ∨
  (∃ i, next = some (.readBitmap i) ∧ (s.bmpValid = false ∨ bitmapSize s.bmpW.toNat s.bmpH.toNat ≤ i) ∧
    r = .bitmapReadRefused) ∨
  (next = some .readFrameLength ∧ s.frmValid = false ∧ r = .frameReadRefused) ∨
  (∃ o, next = some (.readFrame o) ∧ (s.frmValid = false ∨ s.frmLen.toNat ≤ o) ∧ r = .frameReadRefused) ∨
  (∃ a, next = some (.respond a) ∧ s.seq ≠ .sndWait ∧ r = .answerWithoutWrite)

/-- A read of the bitmap answers within a valid one, and is refused elsewhere (10_state R35). -/
theorem Inv.readBitmap_outcome {s : State} (hi : Inv s) (i : Nat) :
    (∃ t, readBitmapMove i s = .next t) ∨
    (s.bmpValid = false ∨ bitmapSize s.bmpW.toNat s.bmpH.toNat ≤ i) ∧
      readBitmapMove i s = .refused .bitmapReadRefused := by
  by_cases h : s.bmpValid = false ∨ bitmapSize s.bmpW.toNat s.bmpH.toNat ≤ i
  · exact .inr ⟨h, readBitmapMove_of_outside h⟩
  · obtain ⟨hv, hlt⟩ := not_or.mp h
    obtain ⟨b, hb⟩ := hi.read_bitmap (by simpa using hv) (not_le.mp hlt)
    exact .inl ⟨_, readBitmapMove_of_written (by simpa using hv) (not_le.mp hlt) hb⟩

/-- A read of the frame answers within a valid one, and is refused elsewhere (10_state R36). -/
theorem Inv.readFrame_outcome {s : State} (hi : Inv s) (o : Nat) :
    (∃ t, readFrameMove o s = .next t) ∨
    (s.frmValid = false ∨ s.frmLen.toNat ≤ o) ∧ readFrameMove o s = .refused .frameReadRefused := by
  by_cases h : s.frmValid = false ∨ s.frmLen.toNat ≤ o
  · exact .inr ⟨h, readFrameMove_of_outside h⟩
  · obtain ⟨hv, hlt⟩ := not_or.mp h
    obtain ⟨b, hb⟩ := hi.read_frame (by simpa using hv) (not_le.mp hlt)
    exact .inl ⟨_, readFrameMove_of_written (by simpa using hv) (not_le.mp hlt) hb⟩

/-- An answer is taken while a write is outstanding, and refused elsewhere (93 U7). -/
theorem Inv.answerMove_outcome {s : State} (hi : Inv s) (a : TxAnswer) :
    (∃ t, answerMove a s = .next t) ∨ s.seq ≠ .sndWait ∧ answerMove a s = .refused .answerWithoutWrite := by
  by_cases hs : s.seq = .sndWait
  · obtain ⟨_, _, hr, _⟩ := hi.waiting_facts hs
    left
    rw [answerMove, if_pos ((writeOutstanding_iff s).mpr ⟨hs, _, hr⟩),
      exec_wr_of_sndWait (s := { s with txAnswer := some a }) hs, takeAnswer]
    simp only [hr]
    cases a with
    | ok => exact ⟨_, rfl⟩
    | fail => exact ⟨_, rfl⟩
  · exact .inr ⟨hs, if_neg fun hw => hs ((writeOutstanding_iff s).mp hw).1⟩

/-- A read of a register answers, but of register 0 (10_state R26; log 13). -/
theorem hostReadMove_next {n : Nat} (hn : n ≠ 0) (s : State) : ∃ t, hostReadMove n s = .next t := by
  rw [hostReadMove, if_neg hn]
  split
  · exact ⟨_, rfl⟩
  · exact ⟨_, rfl⟩

/-- A move from the invariant answers a state or is refused for its cause; none faults. -/
theorem Inv.moveStep_outcome {s : State} (hi : Inv s) (m : Move) :
    (∃ t, moveStep m s = .next t) ∨ ∃ r, moveStep m s = .refused r ∧ RefusalCause s (some m) r := by
  cases m with
  | core => exact .inl hi.coreStep_next
  | hostWrite n v =>
    rcases eq_or_ne n 0 with hn | hn
    · exact .inl ⟨_, if_pos hn⟩
    · exact .inl ⟨_, if_neg hn⟩
  | hostRead n =>
    rcases eq_or_ne n 0 with rfl | hn
    · exact .inr ⟨_, rfl, .inl ⟨rfl, rfl⟩⟩
    · exact .inl (hostReadMove_next hn s)
  | readBitmapSize =>
    cases hv : s.bmpValid with
    | true => exact .inl ⟨_, readBitmapSizeMove_of_valid hv⟩
    | false => exact .inr ⟨_, readBitmapSizeMove_of_invalid hv, .inr (.inl ⟨rfl, hv, rfl⟩)⟩
  | readBitmap i =>
    rcases hi.readBitmap_outcome i with h | ⟨hout, h⟩
    · exact .inl h
    · exact .inr ⟨_, h, .inr (.inr (.inl ⟨i, rfl, hout, rfl⟩))⟩
  | readFrameLength =>
    cases hv : s.frmValid with
    | true => exact .inl ⟨_, readFrameLengthMove_of_valid hv⟩
    | false => exact .inr ⟨_, readFrameLengthMove_of_invalid hv, .inr (.inr (.inr (.inl ⟨rfl, hv, rfl⟩)))⟩
  | readFrame o =>
    rcases hi.readFrame_outcome o with h | ⟨hout, h⟩
    · exact .inl h
    · exact .inr ⟨_, h, .inr (.inr (.inr (.inr (.inl ⟨o, rfl, hout, rfl⟩))))⟩
  | reset => exact .inl ⟨_, rfl⟩
  | present ok raster => exact .inl ⟨_, rfl⟩
  | capability wnr => exact .inl ⟨_, rfl⟩
  | respond a =>
    rcases hi.answerMove_outcome a with h | ⟨hs, h⟩
    · exact .inl h
    · exact .inr ⟨_, h, .inr (.inr (.inr (.inr (.inr ⟨a, rfl, hs, rfl⟩))))⟩

theorem Inv.step_outcome {s : State} (hi : Inv s) :
    (∃ t, step s = .next t) ∨ ∃ r, step s = .refused r ∧ RefusalCause s s.agenda.head? r := by
  cases ha : s.agenda with
  | nil => rw [step_nil s ha]; exact .inl hi.coreStep_next
  | cons m rest => rw [step_of_agenda_cons ha]; exact (hi.withAgenda rest).moveStep_outcome m

/-- Settles O58: a step answers a state, or is refused for its cause (`Inv.step_outcome`). -/
theorem noStepFaults : Obligations.NoStepFaults := by
  intro s hi
  rcases hi.step_outcome with ⟨t, e⟩ | ⟨r, e, hcause⟩ <;> rw [e]
  · exact ⟨nofun, nofun⟩
  · refine ⟨nofun, fun r' h => ?_⟩
    cases h
    exact hcause

theorem packetize_seq {s : State} (hs : s.seq = .idle) : (packetize s).seq = .idle := by
  rcases packetize_cases s with ⟨_, e⟩ | ⟨_, _, _, _, e, _⟩ <;> rw [e]
  · rfl
  · exact hs

/-- The word of a decoded `SND` (30_encoding R60). -/
theorem eq_encodeSnd_of_decode {cw : Word} {c : Half} (h : decode cw = .snd c) : cw = encodeSnd c := by
  have hencode := (decodedWordEncodesToItself cw).2
  rw [h] at hencode
  exact (Option.some.inj hencode).symm

/-- The core's own step starts an `SND` or issues a write, or leaves `SEQ` as it is (R39). -/
theorem Inv.coreStep_transitions {s t : State} (hi : Inv s) (h : Machine.coreStep s = .next t) (hne : t.seq ≠ s.seq) :
    (s.seq = .idle ∧ t.seq = .sndIssue ∧ ∃ c rest, s.held = encodeSnd c :: rest ∧ s.frmValid = true ∧ c.toNat ≠ 0) ∨
    (s.seq = .sndIssue ∧ t.seq = .sndWait ∧ t.txReq ≠ none) := by
  rcases coreStep_cases h with ⟨_, _, rfl⟩ | ⟨_, rest, d, w, hs, _, _, rfl⟩ | ⟨_, rest, hs, _, _, rfl⟩ |
    ⟨cw, rest, c, hs, hh, hdecode, rfl⟩ | ⟨_, rest, hs, _, _, rfl⟩ | ⟨hs, hissue⟩ | ⟨_, htake⟩
  · exact absurd rfl hne
  · exact absurd ((encodeBitmap_seq d w (s := { s with held := rest }) hs).trans hs.symm) hne
  · exact absurd ((packetize_seq (s := { s with held := rest }) hs).trans hs.symm) hne
  · rcases startSend_cases c { s with held := rest } with ⟨_, e⟩ | ⟨_, _, e⟩ | ⟨hv, hc, e⟩ <;> rw [e] at hne ⊢
    · exact absurd hs.symm hne
    · exact absurd hs.symm hne
    · exact .inl ⟨hs, rfl, c, rest, eq_encodeSnd_of_decode hdecode ▸ hh, hv, by omega⟩
  · exact absurd hs.symm hne
  · obtain ⟨_, _, e⟩ := hi.issueWrite hs
    cases e.symm.trans hissue
    exact .inr ⟨hs, rfl, Option.some_ne_none _⟩
  · cases (takeAnswer_of_no_answer hi.answer).symm.trans htake
    exact absurd rfl hne

/-- The answer `TX_OK` leads to the next chunk, or ends the `SND` at `FRM_LEN` (R39, 44_chunk R116). -/
theorem Inv.answerOk_transitions {s t : State} {r : TxRequest} {a : Option TxAnswer} (hi : Inv s)
    (hs : s.seq = .sndWait) (hr : s.txReq = some r) (ht : t = Machine.answerOk r { s with txAnswer := a }) :
    (t.seq = .sndIssue ∧ t.txOff.toNat < t.frmLen.toNat) ∨
    (t.seq = .idle ∧ t.txOff = t.frmLen ∧ t.err = .ok) := by
  obtain ⟨r', _, hr', hlog, hoff⟩ := hi.outstanding_request hs
  obtain rfl : r = r' := Option.some.inj (hr.symm.trans hr')
  rcases hoff.lt_or_eq with hlt | heq
  · rw [answerOk_of_earlier_chunk (s := { s with txAnswer := a }) hlog hlt] at ht
    subst ht
    exact .inl ⟨rfl, (ofNat_toNat_of_lt_word hlt).trans_lt hlt⟩
  · rw [answerOk_of_last_chunk (s := { s with txAnswer := a }) hlog heq] at ht
    subst ht
    exact .inr ⟨rfl, (ofNat_eq_word_iff hoff).mpr heq, rfl⟩

/-- Settles O59: the core's own step and the answers by the lemmas above; of the other moves only a reset writes
`SEQ`. -/
theorem sequencerTransitions : Obligations.SequencerTransitions := by
  intro s t hi h hne
  rcases step_cases h with ⟨_, ⟨_, rfl⟩ | ⟨rest, _, rfl⟩, hcore⟩ | ⟨_, _, _, _, rfl⟩ | ⟨_, _, _, _, _, _, rfl⟩ |
    ⟨rest, ha, rfl⟩ | ⟨_, _, _, _, rfl⟩ | ⟨_, _, _, rfl⟩ | ⟨a, rest, r, ha, hs, hr, rfl⟩
  · rcases hi.coreStep_transitions hcore hne with hstart | hissue
    · exact .inl hstart
    · exact .inr (.inl hissue)
  · rcases (hi.withAgenda rest).coreStep_transitions hcore hne with hstart | hissue
    · exact .inl hstart
    · exact .inr (.inl hissue)
  · exact absurd rfl hne
  · exact absurd rfl hne
  · exact .inr (.inr (.inr (.inr (.inr ⟨rfl, by rw [ha]; rfl⟩))))
  · exact absurd rfl hne
  · exact absurd rfl hne
  · have hhead : s.agenda.head? = some (.respond a) := by rw [ha]; rfl
    cases a with
    | ok =>
      rcases (hi.withAgenda rest).answerOk_transitions hs hr rfl with ⟨hseq, hlt⟩ | ⟨hseq, hend, herr⟩
      · exact .inr (.inr (.inl ⟨hs, hseq, hhead, hlt⟩))
      · exact .inr (.inr (.inr (.inl ⟨hs, hseq, hhead, hend, herr⟩)))
    | fail => exact .inr (.inr (.inr (.inr (.inl ⟨hs, rfl, hhead, rfl⟩))))

theorem settleLast_length (a : TxAnswer) (log : List Beat) : (settleLast a log).length = log.length := by
  induction log with
  | nil => rfl
  | cons b rest ih =>
    cases rest with
    | nil => rfl
    | cons c rest => simpa only [settleLast, List.length_cons, Nat.add_right_cancel_iff] using ih

theorem encodeBitmap_txLog (d : Bool) (w : Half) (s : State) : (encodeBitmap d w s).txLog = s.txLog := by
  rcases encodeBitmap_cases d w s with ⟨_, _, e⟩ | ⟨_, _, _, e⟩ <;> rw [e] <;> rfl

theorem packetize_txLog (s : State) : (packetize s).txLog = s.txLog := by
  rcases packetize_cases s with ⟨_, e⟩ | ⟨_, _, _, _, e, _⟩ <;> rw [e] <;> rfl

theorem startSend_txLog (c : Half) (s : State) : (startSend c s).txLog = s.txLog := by
  rcases startSend_cases c s with ⟨_, e⟩ | ⟨_, _, e⟩ | ⟨_, _, e⟩ <;> rw [e] <;> rfl

/-- The core's own step lengthens the record by an issue alone, which needs a free port (20_memory R53). -/
theorem coreStep_txLog_length {s t : State} (h : coreStep s = .next t) (hne : t.txLog.length ≠ s.txLog.length) :
    s.txReq = none ∧ t.txLog.length = s.txLog.length + 1 := by
  rcases coreStep_cases h with ⟨_, _, rfl⟩ | ⟨_, rest, d, w, _, _, _, rfl⟩ | ⟨_, rest, _, _, _, rfl⟩ |
    ⟨_, rest, c, _, _, _, rfl⟩ | ⟨_, _, _, _, _, rfl⟩ | ⟨_, hissue⟩ | ⟨_, htake⟩
  · exact absurd rfl hne
  · exact absurd (congrArg List.length (encodeBitmap_txLog d w { s with held := rest })) hne
  · exact absurd (congrArg List.length (packetize_txLog { s with held := rest })) hne
  · exact absurd (congrArg List.length (startSend_txLog c { s with held := rest })) hne
  · exact absurd rfl hne
  · rcases issueWrite_cases s with ⟨_, _, hfree, _, e⟩ | ⟨_, e⟩ <;> cases e.symm.trans hissue
    exact ⟨hfree, List.length_append⟩
  · rcases takeAnswer_cases s with ⟨_, e⟩ | ⟨r, _, _, e⟩ | ⟨_, _, _, e⟩ | ⟨_, _, e⟩ <;> cases e.symm.trans htake
    · exact absurd rfl hne
    · exact absurd (by rw [answerOk_txLog, settleLast_length]) hne
    · exact absurd (settleLast_length .fail s.txLog) hne

/-- Settles O60: of the moves but a reset only the core's own step lengthens the record; an answer settles a beat
that is there. -/
theorem oneWriteAtATime : Obligations.OneWriteAtATime := by
  intro s t _ h hne hreset
  rcases step_cases h with ⟨_, ⟨_, rfl⟩ | ⟨rest, _, rfl⟩, hcore⟩ | ⟨_, _, _, _, rfl⟩ | ⟨_, _, _, _, _, _, rfl⟩ |
    ⟨_, ha, _⟩ | ⟨_, _, _, _, rfl⟩ | ⟨_, _, _, rfl⟩ | ⟨a, _, _, _, _, _, rfl⟩
  · exact coreStep_txLog_length hcore hne
  · exact coreStep_txLog_length (s := { s with agenda := rest }) hcore hne
  · exact absurd rfl hne
  · exact absurd rfl hne
  · exact absurd (by rw [ha]; rfl) hreset
  · exact absurd rfl hne
  · exact absurd rfl hne
  · cases a with
    | ok => exact absurd (by rw [answerOk_txLog, settleLast_length]) hne
    | fail => exact absurd (settleLast_length .fail s.txLog) hne

end Sys2Proof.Machine
end

section
/-! A whole transmission (44_chunk R119, 70 R154): one round of issue, wait and answer among the moves of the other
agents, then any number of rounds, then the round that ends the `SND`. -/

namespace Sys2Proof.Machine

/-- `t` is `c` but for the inputs, what was read and the count of free values, which the other agents' moves write. -/
def SameButPorts (c t : State) : Prop :=
  t = { c with srcOk := t.srcOk, src := t.src, capWnr := t.capWnr, hostData := t.hostData, draws := t.draws }

theorem SameButPorts.exists_eq {c t : State} (h : SameButPorts c t) : ∃ srcOk src capWnr hostData draws,
    t = { c with srcOk := srcOk, src := src, capWnr := capWnr, hostData := hostData, draws := draws } :=
  ⟨_, _, _, _, _, h⟩

/-- Quiet moves, and moves of a waiting core, one after another (`run_quiet`). -/
theorem run_quiet_sameButPorts (ms : List Move) {s : State} {rest : List Move} (ha : s.agenda = ms ++ rest)
    (hq : ∀ m ∈ ms, Quiet s m ∨ m = .core ∧ s.seq = .sndWait ∧ s.txAnswer = none) :
    ∃ t, Host.Core.run Sys2Proof.core ms.length s = .next t ∧
      SameButPorts { s with agenda := rest, held := s.held ++ commandWrites ms } t := run_quiet ms ha hq

/-- Whether the moves of a round are quiet depends on the buffers' valid bits and sizes alone. -/
theorem Round.Ok.of_eq {s t : State} {r : Round} (h : r.Ok s) (hbv : t.bmpValid = s.bmpValid) (hw : t.bmpW = s.bmpW)
    (hh : t.bmpH = s.bmpH) (hfv : t.frmValid = s.frmValid) (hlen : t.frmLen = s.frmLen) : r.Ok t :=
  ⟨fun m hm => (h.1 m hm).of_eq hbv hw hh hfv hlen,
    fun m hm => (h.2 m hm).imp_left fun hq => hq.of_eq hbv hw hh hfv hlen⟩

theorem Round.length_moves (r : Round) (a : TxAnswer) :
    (r.moves a).length = r.before.length + (r.during.length + 1 + 1) := by
  simp only [Round.moves, List.length_append, List.length_cons, List.length_nil, Nat.zero_add]

/-- The words that the host writes in a round are those before the issue and those during the wait. -/
theorem Round.commandWrites_moves (r : Round) (a : TxAnswer) :
    commandWrites (r.moves a) = commandWrites r.before ++ commandWrites r.during := by
  have hissue (ms : List Move) : commandWrites (.core :: ms) = commandWrites ms := rfl
  have hanswer : commandWrites [.respond a] = [] := rfl
  rw [Round.moves, commandWrites_append, hissue, commandWrites_append, hanswer, List.append_nil]

theorem run_one {s t : State} (h : step s = .next t) : Host.Core.run Sys2Proof.core 1 s = .next t := by
  rw [run_succ h]
  rfl

/-- Runs keep the invariant. -/
theorem Inv.run {k : Nat} {s t : State} (hi : Inv s) (h : Host.Core.run Sys2Proof.core k s = .next t) : Inv t := by
  induction k generalizing s with
  | zero => cases h; exact hi
  | succ k ih =>
    obtain ⟨u, hstep, hrun⟩ := run_succ_next h
    exact ih (stepKeepsInvariant s u hi hstep) hrun

/-- The state after the issue of the chunk `bytes` (R114). -/
def issued (bytes : List Byte) (s : State) : State :=
  { s with
    txReq := some ⟨s.txMode, bytes⟩, txLog := s.txLog ++ [⟨s.txMode, bytes, .pending⟩], seq := .sndWait }

/-- The core's move issues the chunk at `TX_OFF` (R114). -/
theorem Inv.step_issue {s : State} {rest : List Move} {bytes : List Byte} (hi : Inv s) (hs : s.seq = .sndIssue)
    (ha : s.agenda = .core :: rest)
    (hread : Memory.readRange s.frm s.txOff.toNat (min s.chunk.toNat (s.frmLen.toNat - s.txOff.toNat)) = some bytes) :
    step s = .next (issued bytes { s with agenda := rest }) := by
  obtain ⟨bytes', hread', hissue⟩ := (hi.withAgenda rest).issueWrite hs
  obtain rfl : bytes = bytes' := Option.some.inj (hread.symm.trans hread')
  exact (step_of_agenda_cons ha).trans ((coreStep_of_sndIssue (s := { s with agenda := rest }) hs).trans hissue)

/-- What the transport's answer makes of a waiting core (R116, R117). -/
def afterAnswer (a : TxAnswer) (r : TxRequest) (s : State) : State :=
  match a with
  | .ok => answerOk r { s with txAnswer := some .ok }
  | .fail => answerFail { s with txAnswer := some .fail }

theorem step_afterAnswer {s : State} {a : TxAnswer} {rest : List Move} {r : TxRequest}
    (ha : s.agenda = .respond a :: rest) (hs : s.seq = .sndWait) (hr : s.txReq = some r) :
    step s = .next (afterAnswer a r { s with agenda := rest }) := by
  rw [step_respond s a rest r ha hs hr]
  cases a <;> rfl

/-- The core's move issues the chunk at `TX_OFF`; the other agents write their ports and hold the host's words; the
answer is taken (R114 to R118). -/
theorem Inv.run_issue_and_answer {s : State} {during rest : List Move} {a : TxAnswer} {bytes : List Byte} (hi : Inv s)
    (hs : s.seq = .sndIssue) (hquiet : ∀ m ∈ during, Quiet s m ∨ m = .core)
    (ha : s.agenda = .core :: (during ++ .respond a :: rest))
    (hread : Memory.readRange s.frm s.txOff.toNat (min s.chunk.toNat (s.frmLen.toNat - s.txOff.toNat)) = some bytes) :
    ∃ t, Host.Core.run Sys2Proof.core (during.length + 1 + 1) s = .next (afterAnswer a ⟨s.txMode, bytes⟩ t) ∧
      SameButPorts (issued bytes { s with held := s.held ++ commandWrites during, agenda := rest }) t := by
  have hissue := hi.step_issue hs ha hread
  obtain ⟨t, hduring, ht⟩ := run_quiet during
    (s := issued bytes { s with agenda := during ++ .respond a :: rest }) (rest := .respond a :: rest) rfl
    fun m hm => (hquiet m hm).imp (fun hq => hq.of_eq rfl rfl rfl rfl rfl) fun hc => ⟨hc, rfl, hi.answer⟩
  have hanswer : step t = .next (afterAnswer a ⟨s.txMode, bytes⟩ { t with agenda := rest }) :=
    step_afterAnswer (by rw [ht]) (by rw [ht]; rfl) (by rw [ht]; rfl)
  refine ⟨{ t with agenda := rest }, ?_, ?_⟩
  · rw [run_succ hissue, run_add hduring, run_one hanswer]
  · unfold SameButPorts
    rw [ht]
    rfl

/-- A round issues the chunk at `TX_OFF` and takes the answer to it, and the other agents write their ports and hold the
host's words. -/
theorem Inv.run_round {s : State} {r : Round} {a : TxAnswer} {rest : List Move} {bytes : List Byte} (hi : Inv s)
    (hs : s.seq = .sndIssue) (hr : r.Ok s) (ha : s.agenda = r.moves a ++ rest)
    (hread : Memory.readRange s.frm s.txOff.toNat (min s.chunk.toNat (s.frmLen.toNat - s.txOff.toNat)) = some bytes) :
    ∃ t, Host.Core.run Sys2Proof.core (r.moves a).length s = .next (afterAnswer a ⟨s.txMode, bytes⟩ t) ∧
      SameButPorts (issued bytes { s with held := s.held ++ commandWrites (r.moves a), agenda := rest }) t := by
  have ha : s.agenda = r.before ++ .core :: (r.during ++ .respond a :: rest) := by
    rw [ha, Round.moves]
    simp only [List.append_assoc, List.cons_append, List.nil_append]
  obtain ⟨u, hbefore, hu⟩ := run_quiet_sameButPorts r.before ha fun m hm => .inl (hr.1 m hm)
  have hiu := hi.run hbefore
  obtain ⟨_, _, _, _, _, rfl⟩ := SameButPorts.exists_eq hu
  obtain ⟨t, hrun, ht⟩ := hiu.run_issue_and_answer hs
    (fun m hm => (hr.2 m hm).imp_left fun hq => hq.of_eq rfl rfl rfl rfl rfl) rfl hread
  refine ⟨t, ?_, ?_⟩
  · rw [Round.length_moves, run_add hbefore, hrun]
  · rw [Round.commandWrites_moves, ← List.append_assoc]
    exact ht

/-- The bytes of a valid frame are those that the whole buffer reads as. -/
theorem Inv.frm_eq {s : State} {frame : List Byte} (hi : Inv s) (hv : s.frmValid = true)
    (hread : Memory.readRange s.frm 0 s.frmLen.toNat = some frame) :
    s.frm = Memory.ofBytes frame ∧ frame.length = s.frmLen.toNat := by
  obtain ⟨bytes, hfrm, hlength, _⟩ := hi.frame_bytes hv
  rw [hfrm, ← hlength, Memory.readRange_ofBytes_all] at hread
  cases hread
  exact ⟨hfrm, hlength⟩

/-- The chunk that `WR` cuts at a multiple of the chunk size is the one of that number (R113, R119 (b)). -/
theorem readRange_chunk {frame : List Byte} {c k : Nat} (h : k * c ≤ frame.length) :
    Memory.readRange (Memory.ofBytes frame) (k * c) (min c (frame.length - k * c)) = some (chunkBytes frame c k) := by
  rw [Memory.readRange_ofBytes _ _ _ (by omega), chunkBytes, List.take_eq_take_min (i := c), List.length_drop]

theorem okBeats_succ (mode : WriteMode) (frame : List Byte) (c k : Nat) :
    okBeats mode frame c (k + 1) = okBeats mode frame c k ++ [⟨mode, chunkBytes frame c k, .answered .ok⟩] := by
  rw [okBeats, okBeats, List.range_succ, List.map_append]
  rfl

theorem okMoves_concat (rounds : List Round) (r : Round) : okMoves (rounds ++ [r]) = okMoves rounds ++ r.moves .ok := by
  rw [okMoves, okMoves, List.flatMap_append, List.flatMap_singleton]

/-- Between two chunks of the transmission that began in `s`: `k` chunks of `frame` are answered, `ms` are the moves
made so far and `rest` those to come. -/
def midTransmission (s : State) (frame : List Byte) (k : Nat) (ms rest : List Move) : State :=
  { s with
    held := s.held ++ commandWrites ms, agenda := rest, txOff := BitVec.ofNat 32 (k * s.chunk.toNat),
    txLog := s.txLog ++ okBeats s.txMode frame s.chunk.toNat k }

section Transmission

variable {s t : State} {frame : List Byte} {k : Nat} {ms rest : List Move}

/-- One more round in the middle of a transmission issues chunk number `k` and takes the answer to it. -/
theorem Inv.run_midRound {u : State} {r : Round} {a : TxAnswer} (hiu : Inv u)
    (hu : SameButPorts (midTransmission s frame k ms (r.moves a ++ rest)) u) (hs : s.seq = .sndIssue)
    (hfrm : s.frm = Memory.ofBytes frame) (hlength : frame.length = s.frmLen.toNat)
    (hk : k * s.chunk.toNat < s.frmLen.toNat) (hr : r.Ok s) :
    ∃ t, Host.Core.run Sys2Proof.core (r.moves a).length u =
        .next (afterAnswer a ⟨s.txMode, chunkBytes frame s.chunk.toNat k⟩ t) ∧
      SameButPorts (issued (chunkBytes frame s.chunk.toNat k)
        (midTransmission s frame k (ms ++ r.moves a) rest)) t := by
  obtain ⟨_, _, _, _, _, rfl⟩ := hu.exists_eq
  have hread : Memory.readRange s.frm (BitVec.ofNat 32 (k * s.chunk.toNat)).toNat (min s.chunk.toNat
      (s.frmLen.toNat - (BitVec.ofNat 32 (k * s.chunk.toNat)).toNat)) = some (chunkBytes frame s.chunk.toNat k) := by
    rw [ofNat_toNat_of_lt_word hk, hfrm, ← hlength]
    exact readRange_chunk (by omega)
  obtain ⟨t, hrun, ht⟩ := hiu.run_round hs (hr.of_eq rfl rfl rfl rfl rfl) rfl hread
  refine ⟨t, hrun, ?_⟩
  rw [midTransmission, commandWrites_append, ← List.append_assoc]
  exact ht

/-- After the answer `TX_OK` to a chunk that is not the last, `k + 1` chunks are answered (R116). -/
theorem Inv.afterAnswer_ok_of_earlier (hi : Inv s) (hs : s.seq = .sndIssue)
    (hlength : frame.length = s.frmLen.toNat) (hnext : (k + 1) * s.chunk.toNat < s.frmLen.toNat)
    (ht : SameButPorts (issued (chunkBytes frame s.chunk.toNat k) (midTransmission s frame k ms rest)) t) :
    SameButPorts (midTransmission s frame (k + 1) ms rest)
      (afterAnswer .ok ⟨s.txMode, chunkBytes frame s.chunk.toNat k⟩ t) := by
  obtain ⟨_, _, _, _, _, rfl⟩ := ht.exists_eq
  have hreq := (hi.quiet (by simp [hs])).1
  have hsucc : k * s.chunk.toNat + s.chunk.toNat = (k + 1) * s.chunk.toNat := (Nat.succ_mul _ _).symm
  have hoff : (BitVec.ofNat 32 (k * s.chunk.toNat)).toNat = k * s.chunk.toNat :=
    ofNat_toNat_of_lt_word (len := s.frmLen) (by omega)
  have hwhole : (chunkBytes frame s.chunk.toNat k).length = s.chunk.toNat := by
    rw [chunkBytes_length]
    omega
  have hlt : (BitVec.ofNat 32 (k * s.chunk.toNat)).toNat + (chunkBytes frame s.chunk.toNat k).length <
      s.frmLen.toNat := by omega
  rw [afterAnswer, answerOk_of_earlier_chunk rfl hlt]
  simp only [SameButPorts, midTransmission, issued, hs, hreq, hi.answer, okBeats_succ, List.append_assoc, hoff, hwhole,
    hsucc]

/-- After the answer `TX_OK` to the last chunk the `SND` has ended, at `FRM_LEN` (R116, R119). -/
theorem Inv.afterAnswer_ok_of_last (hi : Inv s) (hs : s.seq = .sndIssue)
    (hlength : frame.length = s.frmLen.toNat) (hk : k * s.chunk.toNat < s.frmLen.toNat)
    (hlast : s.frmLen.toNat ≤ (k + 1) * s.chunk.toNat)
    (ht : SameButPorts (issued (chunkBytes frame s.chunk.toNat k) (midTransmission s frame k ms rest)) t) :
    SameButPorts { midTransmission s frame (k + 1) ms rest with txOff := s.frmLen, seq := .idle, err := .ok }
      (afterAnswer .ok ⟨s.txMode, chunkBytes frame s.chunk.toNat k⟩ t) := by
  obtain ⟨_, _, _, _, _, rfl⟩ := ht.exists_eq
  have hreq := (hi.quiet (by simp [hs])).1
  have hsucc : (k + 1) * s.chunk.toNat = k * s.chunk.toNat + s.chunk.toNat := Nat.succ_mul _ _
  have hoff : (BitVec.ofNat 32 (k * s.chunk.toNat)).toNat = k * s.chunk.toNat := ofNat_toNat_of_lt_word hk
  have hend : (BitVec.ofNat 32 (k * s.chunk.toNat)).toNat + (chunkBytes frame s.chunk.toNat k).length =
      s.frmLen.toNat := by
    rw [hoff, chunkBytes_length]
    omega
  rw [afterAnswer, answerOk_of_last_chunk rfl hend]
  simp only [SameButPorts, midTransmission, issued, hreq, hi.answer, okBeats_succ, List.append_assoc, hend,
    BitVec.ofNat_toNat, BitVec.setWidth_eq]

/-- After the answer `TX_FAIL` to chunk number `k` the `SND` has ended, with the offset of that chunk (R117). -/
theorem Inv.afterAnswer_fail (hi : Inv s) (hs : s.seq = .sndIssue)
    (ht : SameButPorts (issued (chunkBytes frame s.chunk.toNat k) (midTransmission s frame k ms rest)) t) :
    SameButPorts { midTransmission s frame k ms rest with
        seq := .idle, err := .transportWriteFailure,
        txLog := s.txLog ++ okBeats s.txMode frame s.chunk.toNat k ++
          [⟨s.txMode, chunkBytes frame s.chunk.toNat k, .answered .fail⟩] }
      (afterAnswer .fail ⟨s.txMode, chunkBytes frame s.chunk.toNat k⟩ t) := by
  obtain ⟨_, _, _, _, _, rfl⟩ := ht.exists_eq
  have hreq := (hi.quiet (by simp [hs])).1
  rw [afterAnswer, answerFail_of_pending (r := ⟨s.txMode, chunkBytes frame s.chunk.toNat k⟩) rfl]
  simp only [SameButPorts, midTransmission, issued, hreq, hi.answer]

/-- Rounds answered `TX_OK`, fewer than the frame has chunks, answer as many chunks in their order (R119). -/
theorem Inv.run_okRounds (hi : Inv s) (hs : s.seq = .sndIssue) (hstart : s.txOff = 0#32)
    (hfrm : s.frm = Memory.ofBytes frame) (hlength : frame.length = s.frmLen.toNat) {rounds : List Round}
    (hrounds : ∀ r ∈ rounds, r.Ok s) (hcount : rounds.length < chunkCount s.frmLen.toNat s.chunk.toNat)
    (ha : s.agenda = okMoves rounds ++ rest) :
    ∃ t, Host.Core.run Sys2Proof.core (okMoves rounds).length s = .next t ∧
      SameButPorts (midTransmission s frame rounds.length (okMoves rounds) rest) t := by
  induction rounds using List.reverseRecOn generalizing rest with
  | nil =>
    refine ⟨s, rfl, ?_⟩
    have ha : s.agenda = rest := ha
    simp [SameButPorts, midTransmission, okMoves, commandWrites, okBeats, ← ha, ← hstart]
  | append_singleton rounds r ih =>
    rw [okMoves_concat, List.append_assoc] at ha
    rw [List.length_append, List.length_singleton] at hcount
    have hnext := (chunkCount_spec _ _ _ hi.chunk).mp hcount
    obtain ⟨u, hrun, hu⟩ := ih (fun r' hr' => hrounds r' (List.mem_append_left _ hr')) (by omega) ha
    obtain ⟨t, hround, ht⟩ := (hi.run hrun).run_midRound hu hs hfrm hlength
      ((chunkCount_spec _ _ _ hi.chunk).mp (by omega)) (hrounds r (by simp))
    rw [okMoves_concat, List.length_append, List.length_append, List.length_singleton]
    exact ⟨_, (run_add hrun).trans hround, hi.afterAnswer_ok_of_earlier hs hlength hnext ht⟩

/-- One round more, whatever its answer is (R119). -/
theorem Inv.run_okRounds_round (hi : Inv s) (hs : s.seq = .sndIssue) (hstart : s.txOff = 0#32)
    (hfrm : s.frm = Memory.ofBytes frame) (hlength : frame.length = s.frmLen.toNat) {rounds : List Round}
    (hrounds : ∀ r ∈ rounds, r.Ok s) (hcount : rounds.length < chunkCount s.frmLen.toNat s.chunk.toNat) {r : Round}
    (hr : r.Ok s) {a : TxAnswer} (ha : s.agenda = okMoves rounds ++ (r.moves a ++ rest)) :
    ∃ t, Host.Core.run Sys2Proof.core ((okMoves rounds).length + (r.moves a).length) s =
        .next (afterAnswer a ⟨s.txMode, chunkBytes frame s.chunk.toNat rounds.length⟩ t) ∧
      SameButPorts (issued (chunkBytes frame s.chunk.toNat rounds.length)
        (midTransmission s frame rounds.length (okMoves rounds ++ r.moves a) rest)) t := by
  obtain ⟨u, hrun, hu⟩ := hi.run_okRounds hs hstart hfrm hlength hrounds hcount ha
  obtain ⟨t, hround, ht⟩ := (hi.run hrun).run_midRound hu hs hfrm hlength
    ((chunkCount_spec _ _ _ hi.chunk).mp hcount) hr
  exact ⟨t, (run_add hrun).trans hround, ht⟩

end Transmission

/-- An idle core with a frame that holds `SND c` begins a transmission when it moves (R112). -/
theorem step_accept_snd {s : State} {c : Half} {held : List Word} {rest : List Move} (hs : s.seq = .idle)
    (hv : s.frmValid = true) (hc : 1 ≤ c.toNat) (hheld : s.held = encodeSnd c :: held)
    (ha : s.agenda = .core :: rest) : step s = .next (selectMode c { s with held := held, agenda := rest }) := by
  rw [(stepRunsDecodedCommand s _ _ hs hheld).2 rest ha, decode_encodeSnd]
  exact exec_snd_of_frame hs hv hc

/-- The state in which a transmission begins meets the invariant. -/
theorem Inv.begin_snd {s : State} (hi : Inv s) (hs : s.seq = .idle) (hv : s.frmValid = true) {c : Half}
    (hc : 1 ≤ c.toNat) (held : List Word) (rest : List Move) :
    Inv (Machine.selectMode c { s with held := held, agenda := rest }) :=
  ((hi.withHeld held).withAgenda rest).selectMode hs hv c hc

/-- Settles O42: the acceptance, the rounds but the last one, and the round whose answer ends the `SND` at `FRM_LEN`. -/
theorem transmissionSendsTheFrame : Obligations.TransmissionSendsTheFrame := by
  intro s c held rounds more frame hi hs hv hc hread hheld hcount hrounds ha
  obtain ⟨hfrm, hlength⟩ := hi.frm_eq hv hread
  have hspec (k : Nat) := chunkCount_spec s.frmLen.toNat c.toNat k hc
  have hbegin := hi.begin_snd hs hv hc held (okMoves rounds ++ more)
  have haccept := step_accept_snd hs hv hc hheld ha
  rw [Nat.add_comm, run_succ haccept]
  obtain rfl | ⟨rounds, r, rfl⟩ := List.eq_nil_or_concat' rounds
  · obtain ⟨_, _, _, _⟩ := hi.frame_bytes hv
    exact absurd ((hspec 0).mpr (by omega)) (by simp [← hcount])
  · rw [List.length_append, List.length_singleton] at hcount ⊢
    rw [okMoves_concat, List.append_assoc] at hbegin ⊢
    obtain ⟨t, hrun, ht⟩ := hbegin.run_okRounds_round rfl rfl hfrm hlength (rest := more) (a := .ok)
      (fun r' hr' => (hrounds r' (List.mem_append_left _ hr')).of_eq rfl rfl rfl rfl rfl)
      (show rounds.length < chunkCount s.frmLen.toNat c.toNat by omega)
      ((hrounds r (by simp)).of_eq rfl rfl rfl rfl rfl) rfl
    have hend := hbegin.afterAnswer_ok_of_last rfl hlength ((hspec _).mp (by omega))
      (hcount ▸ le_chunkCount_mul s.frmLen.toNat c.toNat hc) ht
    rw [List.length_append]
    refine ⟨_, hrun, ?_⟩
    rw [hs]
    exact hend

/-- Settles O43: the acceptance, the rounds answered `TX_OK`, and the round whose answer ends the `SND` with
`TRANSPORT_WRITE_FAILURE`. -/
theorem failedTransmissionStopsAtTheChunk : Obligations.FailedTransmissionStopsAtTheChunk := by
  intro s c held rounds failed more frame hi hs hv hc hread hheld hcount hrounds hfailed ha
  obtain ⟨hfrm, hlength⟩ := hi.frm_eq hv hread
  have hbegin := hi.begin_snd hs hv hc held (okMoves rounds ++ (failed.moves .fail ++ more))
  have haccept := step_accept_snd hs hv hc hheld ha
  rw [Nat.add_assoc, Nat.add_comm, run_succ haccept]
  obtain ⟨t, hrun, ht⟩ := hbegin.run_okRounds_round rfl rfl hfrm hlength
    (fun r hr => (hrounds r hr).of_eq rfl rfl rfl rfl rfl) hcount (hfailed.of_eq rfl rfl rfl rfl rfl) rfl
  have hend := hbegin.afterAnswer_fail rfl ht
  refine ⟨_, hrun, ?_⟩
  rw [hs]
  exact hend

end Sys2Proof.Machine
end
